-- ==== Sys2Proof/Word.lean ====
section
/-! DEFINITION. The word type of FXD: a byte (spec/00_scope.md R8: "A *byte* is an unsigned integer 0..255"). -/

namespace Sys2Proof

/-- R8: a byte; bit 7 is its most significant bit (R9). -/
abbrev Byte := BitVec 8

end Sys2Proof
end

