-- ==== Sys2Proof/Syntax.lean ====
section
/-! DEFINITION. The syntax of FXD: the values and decoders its operations speak of, the instructions (one
constructor per row of spec/opcode_table.json), and the requests an instruction is decoded from. -/

namespace Sys2Proof

/-- R21: the four states of the frame extractor. -/
inductive FxState where
  | stopped
  | firstDelimiter
  | inMessage
  | inMessageEscape
deriving DecidableEq, Repr

/-- R140: the direction of a decode; `up` is device to host, `down` host to device. -/
inductive Dir where
  | up
  | down
deriving DecidableEq, Repr

/-! ## Values of a decoded record (R14) -/

mutual
/-- R14: a value of a decoded record. `rat` is the exact rational that stands for the source's float (R165, D23);
`absent` is the sentinel symbol ABSENT; `unrecognized v` the tag Unrecognized(v). -/
inductive Value where
  | int (v : Int)
  | rat (q : Rat)
  | str (s : String)
  | absent
  | unrecognized (v : Int)
  | record (r : Fields)
  | list (vs : Values)
deriving DecidableEq, Repr
/-- R28, R30: an ordered map from field name to value, in the order the decoder produced the fields. -/
inductive Fields where
  | nil
  | cons (name : String) (v : Value) (rest : Fields)
deriving DecidableEq, Repr
/-- A list of values (R14). -/
inductive Values where
  | nil
  | cons (v : Value) (rest : Values)
deriving DecidableEq, Repr
end

/-! ## Layouts, descriptors, decoders as data

The source's design note: "the predicate/parser can be represented as tagged variants or function pointers" (R189).
DESIGN CHOICE (log entry 20): tagged variants, so that a schema is plain data. -/

/-- R155, R156: the item kinds of a whole-byte layout. `f4` is the float item the model refuses (R156, U9). -/
inductive Item where
  | u1 | u2 | u4
  | s1 | s2 | s4
  | f4
deriving DecidableEq, Repr

/-- R80: an optional value-enumeration, a partial map from integer to string. -/
abbrev Enum := List (Int × String)

/-- R189: a condition-predicate over the side table. Every Boolean function of finitely many values of finitely many
fields is a combination of these (log entry 20). -/
inductive Cond where
  /-- the name has an entry in the side table -/
  | present (name : String)
  /-- the entry under the name is `v`, a value of any kind: an integer, a name of an enumeration (R190), ABSENT, an exact
  rational, an Unrecognized tag with its integer, a record, a list -/
  | equals (name : String) (v : Value)
  /-- the entry under the name is a number below `q` -/
  | lessThan (name : String) (q : Rat)
  /-- the entry under the name is an Unrecognized tag, whatever it carries (R190) -/
  | isUnrecognized (name : String)
  | not (c : Cond)
  | and (c d : Cond)
  | or (c d : Cond)
deriving DecidableEq, Repr

/-- R165, R166: how a field's integer is scaled. -/
inductive Scaling where
  /-- by a fixed number of decimal places (R165) -/
  | places (k : Nat)
  /-- by the unit code decoded earlier under this name (R166) -/
  | byUnit (codeName : String)
deriving DecidableEq, Repr

/-- R82, steps 4 and 5: what becomes of a field's integer: itself, its name, or a quotient. A name is not divided, so
no field is both enumerated and scaled (log entry 34). -/
inductive Conversion where
  | plain
  | named (e : Enum)
  | scaled (how : Scaling)
deriving DecidableEq, Repr

/-- R82: everything that decides how one bit field becomes a value. -/
structure FieldSpec where
  width : Nat
  signed : Bool
  sentinel : Bool
  conv : Conversion
deriving DecidableEq, Repr

/-- R168: where the count of a repeated group comes from. -/
inductive Count where
  | fixed (n : Nat)
  /-- the integer already decoded under this name -/
  | named (name : String)
  /-- an unsigned count field of this many bits at the cursor, read first -/
  | inline (width : Nat)
deriving DecidableEq, Repr

/-- R169: whether a family numbers its messages from zero, or from one and its decoder passes `frame_number - 1`. -/
inductive Numbering where
  | fromZero
  | fromOne
deriving DecidableEq, Repr

/-- R170: where the capacity of a full message comes from. -/
inductive Capacity where
  /-- a constant of the family: ITEMS_PER_FRAME (R7) -/
  | family (name : String)
  /-- a value derived from the header of the sequence: the integer already decoded under this name -/
  | named (name : String)
deriving DecidableEq, Repr

mutual
/-- A decoder that reads a payload at a cursor: the operations of spec/43 and spec/44 as tagged variants. -/
inductive Parser where
  /-- one field at the cursor (R82, R172) -/
  | field (f : FieldSpec)
  /-- whole-byte items one after another (R155, R156) -/
  | unpack (l : List Item)
  /-- a continuation chosen by the payload's length (R157) -/
  | lensel (alts : Alts)
  /-- a repeated group (R168) -/
  | groups (c : Count) (g : Parser)
  /-- the absolute index of the item being decoded (R169, R170), from the frame number decoded under this name -/
  | absidx (frameNumber : String) (base : Numbering) (capacity : Capacity)
  /-- a sub-type byte and a nested decoder (R185) -/
  | subdispatch (alts : Alts)
  /-- two sub-structures back to back (R187) -/
  | aggregate (d1 d2 : Parser)
  /-- a schema run of its own (R188) -/
  | schema (ds : Schema)
  /-- a parsing routine chosen by the values decoded so far (R189, R192): the first where the condition holds -/
  | select (c : Cond) (d1 d2 : Parser)
deriving DecidableEq, Repr
/-- A finite map from a number (a payload length, a sub-type value) to a decoder. -/
inductive Alts where
  | nil
  | cons (key : Nat) (d : Parser) (rest : Alts)
deriving DecidableEq, Repr
/-- R188: an ordered list of descriptors. -/
inductive Schema where
  | nil
  | cons (d : Desc) (rest : Schema)
deriving DecidableEq, Repr
/-- R80: a field descriptor, its six members. -/
inductive Desc where
  | mk (name : String) (width : Nat) (enum : Option Enum) (signed : Bool) (cond : Option Cond) (sub : Sub)
deriving DecidableEq, Repr
/-- R80: the optional custom sub-parser. -/
inductive Sub where
  | none
  | some (p : Parser)
deriving DecidableEq, Repr
end

/-! ## Instructions -/

/-- The instructions of FXD, one constructor per row of spec/opcode_table.json, in the table's order. -/
inductive Instr where
  -- format EXT (R73): an FX step on a byte
  | stoppedDle
  | stoppedOther (b : Byte)
  | firstStx
  | firstOther (b : Byte)
  | inmsgDle
  | inmsgData (b : Byte)
  | escDle
  | escEtx
  | escOther (b : Byte)
  | overflow (b : Byte)
  -- format EVT (R38, R73): an input event
  | evtNone
  | evtByte (b : Byte)
  | evtTimeout
  | evtError
  -- format WIRE (R71)
  | wireStart
  | wireEnd
  -- format ENC (R125, R126)
  | encDle
  | encOther (b : Byte)
  | frame (content : List Byte)
  -- format HDR (R74): one decode, by the case its frame selects
  | hdrShort (f : List Byte) (dir : Dir)
  | hdrError (f : List Byte) (dir : Dir)
  | health (f : List Byte) (dir : Dir)
  | spConfig (f : List Byte) (dir : Dir)
  | vw (f : List Byte) (dir : Dir)
  | unmapped255 (f : List Byte) (dir : Dir)
  | unknownType (f : List Byte) (dir : Dir)
  | otherMapped (f : List Byte) (dir : Dir)
  -- format LAY (R79): one layout character
  | layNetwork
  | layU32
  | layU16
  | layU8
  | layS8
  -- format DESC (R80)
  | desc (d : Desc)
  -- format UOP (R81)
  | unpackFixed (p : List Byte) (l : List Item)
  | lensel (p : List Byte) (e : Alts)
  | extract (p : List Byte) (off n : Nat)
  | sext (v w : Nat)
  | sentU (v n : Nat)
  | sentS (v n : Nat)
  | scale (x : Int) (k : Nat)
  | unitscale (x : Int) (code : Int)
  | groups (p : List Byte) (cur c : Nat) (g : Parser)
  | absidx (frameNumber itemsPerFrame itemIndex : Nat)
  | subdispatch (p : List Byte) (cur : Nat) (s : Alts)
  | aggregate (p : List Byte) (cur : Nat) (d1 d2 : Parser)
  | schemaRun (p : List Byte) (cur : Nat) (ds : Schema)
  | unassigned1101
  | unassigned1110
  | unassigned1111
  -- format PSEUDO (R89)
  | deframe (s : List Byte)
  | nextFrame (timeout : Nat)
  | decode (f : List Byte) (dir : Dir)
  | nextMessage (timeout : Nat) (dir : Dir)
deriving DecidableEq, Repr

/-! ## Requests: what an instruction is decoded from -/

/-- The operands of an unpacker request, by shape. The spec packs only the 4-bit code (R81). -/
inductive UopArgs where
  | none
  | layout (p : List Byte) (l : List Item)
  | alts (p : List Byte) (e : Alts)
  | bits (p : List Byte) (off n : Nat)
  | raw (v n : Nat)
  | scaled (x : Int) (k : Nat)
  | coded (x : Int) (code : Int)
  | repeated (p : List Byte) (cur c : Nat) (g : Parser)
  | index (frameNumber itemsPerFrame itemIndex : Nat)
  | nested (p : List Byte) (cur : Nat) (s : Alts)
  | pair (p : List Byte) (cur : Nat) (d1 d2 : Parser)
  | program (p : List Byte) (cur : Nat) (ds : Schema)
deriving DecidableEq, Repr

/-- The composite operations the caller asks for (R89), the direction as its port value (R140). -/
inductive PseudoOp where
  | deframe (s : List Byte)
  | nextFrame (timeout : Nat)
  | decode (f : List Byte) (dir : BitVec 1)
  | nextMessage (timeout : Nat) (dir : BitVec 1)
deriving DecidableEq, Repr

/-- A request, one constructor per format of R70, with the selector bits spec/opcode_table.json gives the format and
the operands the spec packs nowhere. -/
inductive Req where
  /-- R73: W = st * 256 + b -/
  | ext (w : BitVec 10)
  /-- R38: in_kind and in_data -/
  | evt (kind : BitVec 2) (data : Byte)
  /-- R71: a delimiter, its first byte the more significant -/
  | wire (w : BitVec 16)
  /-- R126: one content byte for FE -/
  | enc (b : Byte)
  /-- R125: a whole message for FE -/
  | encFrame (content : List Byte)
  /-- R74, R140: a frame and the port value of the direction input -/
  | hdr (f : List Byte) (dir : BitVec 1)
  /-- R79: one layout character -/
  | lay (c : Byte)
  /-- R80: a descriptor, which has no binary packing -/
  | desc (d : Desc)
  /-- R81: the 4-bit code and the operands -/
  | uop (code : BitVec 4) (args : UopArgs)
  | pseudo (op : PseudoOp)
deriving DecidableEq, Repr

/-- Why a request is no instruction. -/
inductive DecodeError where
  /-- a WIRE word that is neither delimiter (R71) -/
  | wireWord
  /-- a layout character the spec does not define (R79) -/
  | layChar
  /-- a uop code with operands of another operation's shape -/
  | operandShape
  /-- an instruction that WellFormed refuses -/
  | illFormed
deriving DecidableEq, Repr

/-- R38, R113: what the transport answers to one read. `noData` is a read that returns no byte and reports neither
Timeout nor Error, which R113 treats as no event. -/
inductive Answer where
  | noData
  | byte (b : Byte)
  | timeout
  | error
deriving DecidableEq, Repr

/-- What the outside presents to FXD beside the transport's answers: the reset pin (R260) or an operation. -/
inductive Input where
  | rst
  | op (r : Req)
deriving DecidableEq, Repr

end Sys2Proof
end

