-- ==== Sys2Proof/Config.lean ====
section
/-! DEFINITION. The configuration of FXD: the constants of the protocol and the parameters the spec leaves to the
implementation (spec/00_scope.md R7). The parameters are a plain record held in the state and written by no step, so
that a claim about every state is a claim about every configuration (log entry 3). -/

namespace Sys2Proof

/-- R7: the three protocol bytes. -/
def DLE : Byte := 0x10
/-- R7 -/
def STX : Byte := 0x02
/-- R7 -/
def ETX : Byte := 0x03
/-- R7: bytes of header in a frame. -/
def HDR_LEN : Nat := 6
/-- R7: mask and required value of byte 0. -/
def HDR_MARK : Byte := 0x40
/-- R7: the largest width EXTRACT is defined for. -/
def EXTRACT_WMAX : Nat := 32

/-- R141, R146: one cell of a dispatch table. -/
inductive Entry where
  | unmapped
  | health
  | spConfig
  | vw
  /-- a decoder the configuration supplies, built from the operations of spec/43 and spec/44 (R205, R210; log entry 19);
  its cursor is created at bit `start` (R29: "the offset the decoder names") -/
  | program (start : Nat) (d : Parser)
  /-- mapped to a decoder that neither the spec nor the configuration gives (R210, U3) -/
  | lacking
deriving DecidableEq, Repr

/-- R7: the implementation parameters. -/
structure Config where
  /-- FRAME_MAX; none is "unbounded" -/
  frameMax : Option Nat
  /-- SPCFG_DIR -/
  spcfgDir : Dir
  /-- VW_MSGTYPE: the family's decoder is in UP_TABLE, only its number is open (R146) -/
  vwMsgType : Byte
  /-- the cells of UP_TABLE the source does not fix -/
  upTable : List (Byte × Entry)
  /-- the cells of DOWN_TABLE the source does not fix -/
  downTable : List (Byte × Entry)
  /-- UNIT_TABLE: code to unit name and decimal places -/
  unitTable : List (Int × String × Nat)
  /-- decimal places of a reading whose unit code is not in UNIT_TABLE (R167) -/
  unitFallback : Nat
  /-- ITEMS_PER_FRAME, per family -/
  itemsPerFrame : List (String × Nat)
  /-- U5: true when the implementation tests the marker of a frame of 1 to 5 bytes before its length -/
  shortMarkerFirst : Bool
deriving DecidableEq, Repr

/-- The configuration at reset. DESIGN CHOICE (log entries 3, 4, 14, 18, 36): FRAME_MAX unbounded (the source's machine),
SPCFG_DIR up (D15), VW_MSGTYPE 1, the short frame by R136, every open table empty. -/
def Config.default : Config where
  frameMax := none
  spcfgDir := .up
  vwMsgType := 1
  upTable := []
  downTable := []
  unitTable := []
  unitFallback := 0
  itemsPerFrame := []
  shortMarkerFirst := false

/-! ## Free values: nothing in Lean can evaluate them (log entries 21, 30) -/

/-- The number that a count, a capacity or a frame number takes from a name of the side table that holds no number of its
range (a negative integer, another kind of value, nothing): the spec states no result there. -/
opaque Config.freeNat : Fields → String → Nat

/-- The unit code taken from a name of the side table that holds no integer: the spec states no result there. -/
opaque Config.freeInt : Fields → String → Int

/-- ITEMS_PER_FRAME of a family that the configuration does not list (R7: OPEN). -/
opaque Config.freeItemsPerFrame : String → Nat

end Sys2Proof
end

