-- ==== Sys2Proof/Machine/Tables.lean ====
section
/-! DEFINITION. Records and side tables, conditions over them, and the values that fields and structured operations give:
what the interpreter and the check of R189 share (spec/10_state.md R28, R30, spec/43_unpack_primitives.md,
spec/44_schema_nested.md). -/

namespace Sys2Proof.Machine

/-! ## Records and side tables (R28, R30) -/

/-- The value under a name. -/
def fieldGet (name : String) : Fields → Option Value
  | .nil => none
  | .cons n v rest => if n = name then some v else fieldGet name rest

/-- `T[name] <- v`, at the end when the name is new. -/
def fieldSet (name : String) (v : Value) : Fields → Fields
  | .nil => .cons name v .nil
  | .cons n w rest => if n = name then .cons n v rest else .cons n w (fieldSet name v rest)

/-- The entries under every other name. -/
def fieldsWithout (name : String) : Fields → Fields
  | .nil => .nil
  | .cons n v rest => if n = name then fieldsWithout name rest else .cons n v (fieldsWithout name rest)

/-- R185: `r` "merged with" `s`: the fields of `r`, each with the value `s` has for it where `s` has one, then the other
fields of `s`. -/
def fieldMerge (r s : Fields) : Fields :=
  match r with
  | .nil => s
  | .cons n v rest => .cons n ((fieldGet n s).getD v) (fieldMerge rest (fieldsWithout n s))

/-- R192: what a sub-parser sees of the side table: the entries of its own run, then those of the run around it
(log entry 20). -/
def fieldsAround (outer : Fields) : Fields → Fields
  | .nil => outer
  | .cons n v rest => .cons n v (fieldsAround outer rest)

/-- A list of values as the values of a record's list (R14). -/
def valuesOf : List Value → Values
  | [] => .nil
  | v :: rest => .cons v (valuesOf rest)

/-! ## Numbers taken from the side table (R166, R168 to R170) -/

/-- The number decoded under a name, counted from `lo`; none where the name holds no integer from `lo` on. -/
def numberUnder (lo : Nat) (t : Fields) (name : String) : Option Nat :=
  match fieldGet name t with
  | some (.int v) => if (lo : Int) ≤ v then some (v - lo).toNat else none
  | _ => none

/-- R168, R169, R170: that number; where there is none the spec states no result, and it is a free value. DESIGN CHOICE
(log entry 21). -/
def namedFrom (lo : Nat) (t : Fields) (name : String) : Nat := (numberUnder lo t name).getD (Config.freeNat t name)

/-- The number decoded under a name. -/
def namedNat (t : Fields) (name : String) : Nat := namedFrom 0 t name

/-- R166: the unit code decoded under a name; none where the name holds no integer. -/
def codeUnder (t : Fields) (name : String) : Option Int :=
  match fieldGet name t with
  | some (.int v) => some v
  | _ => none

/-- R166: that code; a free value where there is none. DESIGN CHOICE (log entry 21). -/
def namedInt (t : Fields) (name : String) : Int := (codeUnder t name).getD (Config.freeInt t name)

/-- R7, R170: ITEMS_PER_FRAME of a family; none where the configuration does not list the family. -/
def familyItems (family : String) : List (String × Nat) → Option Nat
  | [] => none
  | (f, n) :: rest => if f = family then some n else familyItems family rest

/-- R170: the capacity of a full message, where the configuration or the side table gives one. -/
def capacityUnder (c : Config) (t : Fields) : Capacity → Option Nat
  | .family name => familyItems name c.itemsPerFrame
  | .named n => numberUnder 0 t n

/-- R170: that capacity; a free value where neither gives one. DESIGN CHOICE (log entry 30). -/
def capacityOf (c : Config) (t : Fields) (cap : Capacity) : Nat :=
  (capacityUnder c t cap).getD
    (match cap with
      | .family name => Config.freeItemsPerFrame name
      | .named n => Config.freeNat t n)

/-- R169: the first frame number of a family: its decoder passes the frame number less this one. -/
def firstFrame : Numbering → Nat
  | .fromZero => 0
  | .fromOne => 1

/-- R169: the number a decoder passes to ABSIDX: the frame number, or one less where the family numbers from one. A frame
number 0 of such a family has none, and it is a free value. DESIGN CHOICE (log entry 30). -/
def frameOperand (t : Fields) (name : String) (base : Numbering) : Nat := namedFrom (firstFrame base) t name

/-! ## Signed readings and sentinels (R161 to R163) -/

/-- R161: the two's-complement reading of a `w`-bit value: with the top bit set, `-((v ^ (2^w - 1)) + 1)`. -/
def signExtend (v w : Nat) : Int :=
  if v.testBit (w - 1) then -(((v ^^^ (2 ^ w - 1)) + 1 : Nat) : Int) else (v : Int)

/-- R162: the all-ones test. -/
def sentinelUnsigned (v n : Nat) : Bool := v = 2 ^ n - 1

/-- R163: the sign-bit-only test. -/
def sentinelSigned (v n : Nat) : Bool := v = 2 ^ (n - 1)

/-! ## What a field's integer becomes (R82, steps 4 and 5) -/

/-- R190: the name of an enumerated integer, or Unrecognized; it never raises. -/
def enumName (x : Int) : Enum → Value
  | [] => .unrecognized x
  | (k, n) :: rest => if k = x then .str n else enumName x rest

/-- R165: `SCALE(x, k)`, the exact quotient `x / 10^k`; `k = 0` returns `x`. -/
def scaled (x : Int) (k : Nat) : Value :=
  if k = 0 then .int x else .rat (mkRat x (10 ^ k))

/-- R166: the row of UNIT_TABLE for a code. -/
def unitRow (code : Int) : List (Int × String × Nat) → Option (String × Nat)
  | [] => none
  | (c, row) :: rest => if c = code then some row else unitRow code rest

/-- R166, R167: `UNITSCALE(x, code)`: the reading and its unit; an unknown code is the tag Unrecognized(code) and never
raises. -/
def unitScaled (c : Config) (x : Int) (code : Int) : Value × Value :=
  match unitRow code c.unitTable with
  | some (name, k) => (scaled x k, .str name)
  | none => (scaled x c.unitFallback, .unrecognized code)

/-- The pair UNITSCALE returns, as one value (log entry 23). -/
def pairValue (r : Value × Value) : Value := .list (.cons r.1 (.cons r.2 .nil))

/-- R82: the value of a field's integer, a dynamically scaled one by `unit`, from the name of its code (R166). -/
def converted (unit : String → Int → Value) (x : Int) : Conversion → Value
  | .plain => .int x
  | .named e => enumName x e
  | .scaled (.places k) => scaled x k
  | .scaled (.byUnit n) => unit n x

/-- R80, R190: the conversion of a descriptor's plain field. -/
def conversionOf : Option Enum → Conversion
  | none => .plain
  | some e => .named e

/-- R82: a raw field to its value: sentinel, then sign, then enumeration or scale. -/
def fieldValue (c : Config) (t : Fields) (f : FieldSpec) (raw : Nat) : Value :=
  if f.sentinel && (if f.signed then sentinelSigned raw f.width else sentinelUnsigned raw f.width) then .absent
  else
    converted (fun code x => pairValue (unitScaled c x (namedInt t code)))
      (if f.signed then signExtend raw f.width else (raw : Int)) f.conv

/-! ## The values of the structured operations (R155, R157, R169, R185 to R187) -/

/-- R156: the bytes of an item. -/
def itemSize : Item → Nat
  | .u1 | .s1 => 1
  | .u2 | .s2 => 2
  | .u4 | .s4 | .f4 => 4

/-- The decoder under a key. -/
def altAt (k : Nat) : Alts → Option Parser
  | .nil => none
  | .cons key d rest => if key = k then some d else altAt k rest

/-- R169: `ABSIDX`. -/
def absIndex (frameNumber itemsPerFrame itemIndex : Nat) : Nat :=
  frameNumber * itemsPerFrame + itemIndex

/-- R186: the record of a sub-type the table lacks. -/
def unmappedSubType (k : Nat) : Value := .record (.cons "subType" (.unrecognized k) .nil)

/-- R187: the record of two sub-structures. -/
def aggregateValue (v1 v2 : Value) : Value := .record (.cons "first" v1 (.cons "second" v2 .nil))

/-! ## Conditions (R189) -/

/-- A number below a rational; no other value is. -/
def valueBelow (q : Rat) : Value → Bool
  | .int y => y * q.den < q.num
  | .rat r => r.num * q.den < q.num * r.den
  | .str _ | .absent | .unrecognized _ | .record _ | .list _ => false

/-- The value is an Unrecognized tag. -/
def valueUnrecognized : Value → Bool
  | .unrecognized _ => true
  | .int _ | .rat _ | .str _ | .absent | .record _ | .list _ => false

/-- R189: a condition on the side table; none where it reads a name that is absent from it. A conjunction or disjunction
reads its second part only where the first leaves it open (log entry 21). -/
def evalCond (t : Fields) : Cond → Option Bool
  | .present n => some (fieldGet n t).isSome
  | .equals n v => (fieldGet n t).map fun x => decide (x = v)
  | .lessThan n q => (fieldGet n t).map (valueBelow q)
  | .isUnrecognized n => (fieldGet n t).map valueUnrecognized
  | .not c => (evalCond t c).map fun b => !b
  | .and c d => match evalCond t c with | some true => evalCond t d | r => r
  | .or c d => match evalCond t c with | some false => evalCond t d | r => r

/-- R80, R188: whether a field is present: it always is where its descriptor has no condition. -/
def fieldPresent (t : Fields) : Option Cond → Option Bool
  | none => some true
  | some c => evalCond t c

end Sys2Proof.Machine
end

