-- ==== Sys2Proof/Machine/Reach.lean ====
section
/-! DEFINITION. The side tables that can reach a condition (spec/44_schema_nested.md R189), and with them the two checks that
need them: whether every condition of a decoder is defined wherever it is reached, and whether it returns a record.

A run is followed over every payload at once, and over every value of what the spec leaves open in it. A cursor never moves back, so the bits of a field are free of all that was
read before, and a decoder reads the payload's length only where it chooses a continuation by it (R157): one run for each
such length and one for all others meet every table. Of each field the run takes one raw value of every class that conditions,
counts and unit codes tell apart; a class with no raw value is not taken (log entry 21). -/

namespace Sys2Proof.Machine

/-! ## What a decoder looks at -/

/-- The names a condition reads. -/
def condNames : Cond → List String
  | .present n | .equals n _ | .lessThan n _ | .isUnrecognized n => [n]
  | .not c => condNames c
  | .and c d | .or c d => condNames c ++ condNames d

/-- The values a condition compares with. -/
def condMentions : Cond → List Value
  | .present _ | .isUnrecognized _ => []
  | .equals _ v => [v]
  | .lessThan _ q => [.rat q]
  | .not c => condMentions c
  | .and c d | .or c d => condMentions c ++ condMentions d

/-- What a decoder looks at: its conditions, the names it takes a number from, those it takes a unit code from, the payload
lengths it tells apart, and the families whose capacity it takes. -/
structure Looks where
  conds : List Cond
  counted : List String
  coded : List String
  lengths : List Nat
  families : List String
deriving DecidableEq, Repr

/-- A decoder that looks at nothing. -/
def Looks.nothing : Looks := ⟨[], [], [], [], []⟩

/-- What two decoders look at. -/
def Looks.append (a b : Looks) : Looks :=
  ⟨a.conds ++ b.conds, a.counted ++ b.counted, a.coded ++ b.coded, a.lengths ++ b.lengths, a.families ++ b.families⟩

/-- The names looked at. -/
def Looks.names (a : Looks) : List String := a.conds.flatMap condNames ++ a.counted ++ a.coded

/-- Of a conversion: the unit code (R166). -/
def conversionLooks : Conversion → Looks
  | .scaled (.byUnit n) => { Looks.nothing with coded := [n] }
  | .plain | .named _ | .scaled (.places _) => Looks.nothing

/-- Of a count (R168). -/
def countLooks : Count → Looks
  | .named n => { Looks.nothing with counted := [n] }
  | .fixed _ | .inline _ => Looks.nothing

/-- Of a capacity (R170). -/
def capacityLooks : Capacity → Looks
  | .named n => { Looks.nothing with counted := [n] }
  | .family n => { Looks.nothing with families := [n] }

/-- The keys of a map. -/
def altKeys : Alts → List Nat
  | .nil => []
  | .cons k _ rest => k :: altKeys rest

mutual
/-- What a decoder looks at. -/
def parserLooks : Parser → Looks
  | .field f => conversionLooks f.conv
  | .unpack _ => Looks.nothing
  | .lensel alts => (altsLooks alts).append { Looks.nothing with lengths := altKeys alts }
  | .groups n g => (countLooks n).append (parserLooks g)
  | .absidx name _ cap => (capacityLooks cap).append { Looks.nothing with counted := [name] }
  | .subdispatch alts => altsLooks alts
  | .aggregate d1 d2 => (parserLooks d1).append (parserLooks d2)
  | .schema ds => schemaLooks ds
  | .select c d1 d2 => ((parserLooks d1).append (parserLooks d2)).append { Looks.nothing with conds := [c] }
/-- What the decoders of a map look at. -/
def altsLooks : Alts → Looks
  | .nil => Looks.nothing
  | .cons _ d rest => (parserLooks d).append (altsLooks rest)
/-- What the descriptors of a schema look at. -/
def schemaLooks : Schema → Looks
  | .nil => Looks.nothing
  | .cons d rest => (descLooks d).append (schemaLooks rest)
/-- What a descriptor looks at. -/
def descLooks : Desc → Looks
  | .mk _ _ _ _ cond sub => (subLooks sub).append { Looks.nothing with conds := cond.toList }
/-- What a sub-parser looks at. -/
def subLooks : Sub → Looks
  | .none => Looks.nothing
  | .some d => parserLooks d
end

/-! ## Values as far as they are told apart -/

/-- The beginnings of a list, itself the last. -/
def valuesPrefixes : Values → List Values
  | .nil => [.nil]
  | .cons v rest => .nil :: (valuesPrefixes rest).map (.cons v)

/-- A list with one value more. -/
def valuesSnoc (v : Value) : Values → Values
  | .nil => .cons v .nil
  | .cons w rest => .cons w (valuesSnoc v rest)

/-- The length of a list. -/
def valuesLength : Values → Nat
  | .nil => 0
  | .cons _ rest => valuesLength rest + 1

mutual
/-- A value and all that stands in it, each list with its beginnings. -/
def valueParts : Value → List Value
  | .record r => .record r :: fieldsParts r
  | .list vs => (valuesPrefixes vs).map .list ++ valuesParts vs
  | .int v => [.int v]
  | .rat q => [.rat q]
  | .str s => [.str s]
  | .absent => [.absent]
  | .unrecognized v => [.unrecognized v]
/-- All that stands in a record. -/
def fieldsParts : Fields → List Value
  | .nil => []
  | .cons _ v rest => valueParts v ++ fieldsParts rest
/-- All that stands in a list. -/
def valuesParts : Values → List Value
  | .nil => []
  | .cons v rest => valueParts v ++ valuesParts rest
end

/-- The number of a value, the length of a list. -/
def valueNumber : Value → Option Rat
  | .int v | .unrecognized v => some (mkRat v 1)
  | .rat q => some q
  | .list vs => some (mkRat (valuesLength vs) 1)
  | .str _ | .absent | .record _ => none

/-- What a run over every payload keeps in mind: the payload's length where it is one of those told apart, what conditions
compare with, the numbers that are told apart, and a bound from which on two counts are not. -/
structure Probe where
  room : Option Nat
  parts : List Value
  numbers : List Rat
  limit : Nat
deriving DecidableEq, Repr

/-- The probe of a decoder in a room. Above the greatest number told apart (a payload's bits among them) counts and indices
are one class; the bound leaves as many items again for those that read nothing. -/
def Probe.of (c : Config) (a : Looks) (room : Option Nat) : Probe :=
  let parts := (a.conds.flatMap condMentions).flatMap valueParts
  let numbers := parts.filterMap valueNumber ++ (if a.coded.isEmpty then [] else c.unitTable.map fun r => mkRat r.1 1)
  let top := numbers.foldl (fun m q => max m (q.num / q.den).toNat) (8 * room.getD 0)
  let limit := 2 * (top + 2)
  ⟨room, parts, numbers ++ (if a.counted.isEmpty then [] else (List.range (limit + 1)).map fun n => mkRat n 1), limit⟩

/-- A list that no condition compares with. -/
def Probe.otherValues (q : Probe) : Values := valuesOf q.parts

/-- A value where only equality with what conditions compare with matters. -/
def Probe.coarse (q : Probe) (v : Value) : Value := if q.parts.contains v then v else .list q.otherValues

/-- A value under a name that is looked at: numbers stay. -/
def Probe.kept (q : Probe) (v : Value) : Value :=
  match v with
  | .list _ | .record _ => q.coarse v
  | .int _ | .rat _ | .str _ | .absent | .unrecognized _ => v

/-- A list with one value more, where only equality matters. -/
def Probe.extend (q : Probe) (vs : Values) (v : Value) : Values :=
  let ws := valuesSnoc (q.coarse v) vs
  if q.parts.contains (.list ws) then ws else q.otherValues

/-- A table as far as the rest of its run looks at it; the rest of it only where a condition compares with a record. -/
def Probe.settle (q : Probe) (names : List String) : Fields → Fields
  | .nil => .nil
  | .cons n v rest =>
    if names.contains n then .cons n (q.kept v) (q.settle names rest)
    else if q.parts.any (fun w => match w with | .record _ => true | _ => false) then
      .cons n (q.coarse v) (q.settle names rest)
    else q.settle names rest

/-! ## The raw values of a field -/

/-- The integer at or next below the one that reads as the number, at `k` decimal places. -/
def nearestRaw (k : Nat) (q : Rat) : Int := q.num * 10 ^ k / q.den

/-- The integers at and around those given. -/
def around (centres : List Int) : List Int := (centres.flatMap fun x => [x - 1, x, x + 1]).eraseDups

/-- One integer from `lo` to `hi` of every class: at and around the ends, the keys and the numbers told apart. -/
def Probe.integers (q : Probe) (k : Nat) (keys : List Int) (lo hi : Int) : List Int :=
  (around (lo :: hi :: keys ++ q.numbers.map (nearestRaw k))).filter fun x => lo ≤ x && x ≤ hi

/-- A number that is a natural: the one given, or one of every class where it is free. -/
def Probe.naturals (q : Probe) : Option Nat → List Nat
  | some n => [n]
  | none => List.range (q.limit + 1)

/-- The integers a conversion tells apart. -/
def conversionKeys : Conversion → List Int
  | .named e => e.map fun r => r.1
  | .plain | .scaled _ => []

/-- The decimal places of a conversion (R165, R166). -/
def placesUnder (c : Config) (t : Fields) : Conversion → Nat
  | .plain | .named _ => 0
  | .scaled (.places k) => k
  | .scaled (.byUnit n) => (unitRow (namedInt t n) c.unitTable).elim c.unitFallback Prod.snd

/-- The table with a unit code under the name a conversion takes it from: the table itself where it has one, else one table
for a code of every class, since the code is free. -/
def Probe.coded (q : Probe) (t : Fields) : Conversion → List Fields
  | .plain | .named _ | .scaled (.places _) => [t]
  | .scaled (.byUnit n) =>
    if (codeUnder t n).isSome then [t]
    else (around (0 :: q.numbers.map (nearestRaw 0))).map fun code => fieldSet n (.int code) t

/-- The values of a field, one of every class. -/
def Probe.fieldValues (q : Probe) (c : Config) (t : Fields) (f : FieldSpec) : List Value :=
  (q.coded t f.conv).flatMap fun t' =>
    let lo : Int := if f.signed then -(2 ^ (f.width - 1)) else 0
    (q.integers (placesUnder c t' f.conv) (conversionKeys f.conv) lo (lo + 2 ^ f.width - 1)).map fun x =>
      fieldValue c t' f (x % 2 ^ f.width).toNat

/-- The field of a whole-byte item (R155, R156); a float item has none (U9). -/
def itemField (i : Item) : Option FieldSpec :=
  match i with
  | .u1 | .u2 | .u4 => some ⟨8 * itemSize i, false, false, .plain⟩
  | .s1 | .s2 | .s4 => some ⟨8 * itemSize i, true, false, .plain⟩
  | .f4 => none

/-! ## The run -/

/-- What a run can come to: each way it can return, and `none` for one that meets a condition reading an absent name, or a
nested decoder that returns no record. A run that raises comes to nothing. -/
abbrev Ways (α : Type) := List (Option α)

/-- One run after another. -/
def Ways.bind {α β : Type} (ws : Ways α) (k : α → Ways β) : Ways β :=
  ws.flatMap fun w =>
    match w with
    | some a => k a
    | none => [none]

/-- R53: the cursor after `n` bits, where they lie in the payload; it is counted in a room only. -/
def Probe.after (q : Probe) (cur n : Nat) : Option Nat :=
  match q.room with
  | none => some cur
  | some size => if cur + n ≤ 8 * size then some (cur + n) else none

/-- One field (R172). -/
def Probe.field (q : Probe) (c : Config) (t : Fields) (cur : Nat) (f : FieldSpec) : Ways (Value × Nat) :=
  match q.after cur f.width with
  | none => []
  | some cur' => (q.fieldValues c t f).map fun v => some (v, cur')

/-- Whole-byte items one after another (R155). -/
def Probe.items (q : Probe) (c : Config) : List Item → Ways (Values × Nat) → Ways (Values × Nat)
  | [], ws => ws
  | i :: rest, ws =>
    match itemField i with
    | none => []
    | some f =>
      q.items c rest (ws.bind fun s => (q.field c .nil s.2 f).bind fun r => [some (q.extend s.1 r.1, r.2)]).eraseDups

/-- Up to `n` groups, item `j` first: the ways after none of them, after one, and so on (R168). -/
def Probe.groups (q : Probe) (g : Nat → Nat → Ways (Value × Nat)) :
    Nat → Nat → Ways (Values × Nat) → List (Ways (Values × Nat))
  | 0, _, ws => [ws]
  | n + 1, j, ws =>
    ws :: q.groups g n (j + 1) (ws.bind fun s => (g s.2 j).bind fun r => [some (q.extend s.1 r.1, r.2)]).eraseDups

/-- The counts of a group, and where its first item starts (R168). -/
def Probe.counts (q : Probe) (t : Fields) (cur : Nat) : Count → List Nat × Nat
  | .fixed n => ([min n q.limit], cur)
  | .named n => ((q.naturals (numberUnder 0 t n)).map fun k => min k q.limit, cur)
  | .inline w => ((q.after cur w).elim [] fun _ => List.range (min (2 ^ w - 1) q.limit + 1), cur + w)

mutual
/-- The ways of a decoder. -/
def parserWays (c : Config) (q : Probe) (t : Fields) (j cur : Nat) : Parser → Ways (Value × Nat)
  | .field f => q.field c t cur f
  | .unpack l =>
    if l.contains .f4 then [] else (q.items c l [some (.nil, cur)]).bind fun r => [some (.list r.1, r.2)]
  | .lensel alts => q.room.elim [] fun size => (altsWays c q t j cur size alts).getD []
  | .groups n g =>
    let ks := q.counts t cur n
    let levels := q.groups (fun cur' j' => parserWays c q t j' cur' g) (ks.1.foldl max 0) 0 [some (.nil, ks.2)]
    Ways.bind (ks.1.flatMap fun k => levels.getD k []) fun r => [some (.list r.1, r.2)]
  | .absidx name base cap =>
    (q.naturals (numberUnder (firstFrame base) t name)).flatMap fun f =>
      (q.naturals (capacityUnder c t cap)).map fun k => some (.int (absIndex f k j), cur)
  | .subdispatch alts =>
    match q.after cur 8 with
    | none => []
    | some cur' =>
      (q.integers 0 ((altKeys alts).map Int.ofNat) 0 255).flatMap fun k =>
        match altsWays c q t j cur' k.toNat alts with
        | none => [some (unmappedSubType k.toNat, cur')]
        | some ws => ws.bind fun r =>
          match r.1 with
          | .record x => [some (.record (fieldMerge (.cons "subType" (.int k) .nil) x), r.2)]
          | _ => [none]
  | .aggregate d1 d2 =>
    (parserWays c q t j cur d1).bind fun r1 => (parserWays c q t j r1.2 d2).bind fun r2 =>
      [some (aggregateValue (q.coarse r1.1) (q.coarse r2.1), r2.2)]
  | .schema ds => (schemaWays c q t j [some (.nil, cur)] ds).bind fun r => [some (.record r.1, r.2)]
  | .select k d1 d2 =>
    if evalCond t k = some true then parserWays c q t j cur d1 else parserWays c q t j cur d2
/-- The ways of the decoder under a key; none where the map lacks the key. -/
def altsWays (c : Config) (q : Probe) (t : Fields) (j cur k : Nat) : Alts → Option (Ways (Value × Nat))
  | .nil => none
  | .cons key d rest => if key = k then some (parserWays c q t j cur d) else altsWays c q t j cur k rest
/-- R188: the ways of a schema, from those of the descriptors before. -/
def schemaWays (c : Config) (q : Probe) (outer : Fields) (j : Nat) (ws : Ways (Fields × Nat)) :
    Schema → Ways (Fields × Nat)
  | .nil => ws
  | .cons d rest =>
    schemaWays c q outer j
      (ws.bind fun s => (descWays c q outer s.1 j s.2 d).bind fun r =>
        [some (q.settle (schemaLooks rest).names r.1, r.2)]).eraseDups rest
/-- R188, R189: the ways of a descriptor. -/
def descWays (c : Config) (q : Probe) (outer t : Fields) (j cur : Nat) : Desc → Ways (Fields × Nat)
  | .mk name width enum signed cond sub =>
    match fieldPresent t cond with
      | none => [none]
      | some false => [some (t, cur)]
      | some true =>
        (subWays c q (fieldsAround outer t) j cur ⟨width, signed, false, conversionOf enum⟩ sub).bind fun r =>
          [some (fieldSet name r.1 t, r.2)]
/-- R80, R192: the ways of a descriptor's field. -/
def subWays (c : Config) (q : Probe) (t : Fields) (j cur : Nat) (f : FieldSpec) : Sub → Ways (Value × Nat)
  | .none => q.field c t cur f
  | .some d => parserWays c q t j cur d
end

end Sys2Proof.Machine

namespace Sys2Proof

open Machine

/-- The configuration with a capacity for each of the families, one configuration for each choice where it lists none: the
capacity is free, and one number for all uses (R7). -/
def Config.completions (limit : Nat) (c : Config) : List String → List Config
  | [] => [c]
  | f :: rest =>
    if (familyItems f c.itemsPerFrame).isSome then c.completions limit rest
    else (List.range (limit + 1)).flatMap fun n =>
      Config.completions limit { c with itemsPerFrame := c.itemsPerFrame ++ [(f, n)] } rest

/-- What a decoder can come to on some payload, from bit `start` in a table `t`: on a payload of each length it tells apart
and on one of any other length. -/
def Parser.outcomes (c : Config) (t : Fields) (start : Nat) (d : Parser) : Ways Value :=
  let a := parserLooks d
  (none :: a.lengths.map some).flatMap fun room =>
    let q := Probe.of c a room
    (c.completions q.limit a.families).flatMap fun c' =>
      (parserWays c' q t 0 start d).bind fun r => [some r.1]

/-- R189: every condition is defined on every table that can reach it, and (R185) every nested decoder returns a record. -/
def Parser.defined (c : Config) (t : Fields) (start : Nat) (d : Parser) : Bool := (d.outcomes c t start).all Option.isSome

/-- R205: the decoder returns a record wherever it returns. -/
def Parser.yieldsRecord (c : Config) (t : Fields) (start : Nat) (d : Parser) : Bool :=
  (d.outcomes c t start).all fun w =>
    match w with
    | some (.record _) => true
    | _ => false

end Sys2Proof
end

