-- ==== Sys2Proof/WellFormed.lean ====
section
/-! DEFINITION. Which instructions are well formed: the operand ranges and the schema conditions the spec states.
The decoder refuses an ill-formed instruction by name. -/

namespace Sys2Proof

open Machine

/-- R54, R160: a bit-field width has a meaning from 1 to 32. -/
def widthOk (n : Nat) : Bool := 1 ≤ n && n ≤ EXTRACT_WMAX

/-- R80, R166: the keys of a partial map are distinct. -/
def keysDistinct {α : Type} [DecidableEq α] {β : Type} : List (α × β) → Bool
  | [] => true
  | (k, _) :: rest => !(rest.any fun e => e.1 = k) && keysDistinct rest

/-- R80: an enumeration is a partial map. -/
def enumOk : Option Enum → Bool
  | none => true
  | some e => keysDistinct e

/-- R54, R80: the width is 1 to 32, and an enumeration is a partial map. -/
def FieldSpec.wf (f : FieldSpec) : Bool :=
  widthOk f.width &&
    match f.conv with
    | .named e => keysDistinct e
    | .plain | .scaled _ => true

/-- R168: an inline count is read from a field of legal width. -/
def Count.wf : Count → Bool
  | .fixed _ | .named _ => true
  | .inline w => widthOk w

/-- The number is a key of the map. -/
def Alts.hasKey (k : Nat) : Alts → Bool
  | .nil => false
  | .cons key _ rest => key = k || rest.hasKey k

/-- R80: the name of a descriptor. -/
def Desc.name : Desc → String
  | .mk name _ _ _ _ _ => name

/-- R189: "A predicate may read only names that earlier descriptors of the same run can have written". -/
def condOk (names : List String) : Option Cond → Bool
  | none => true
  | some c => (condNames c).all fun n => names.contains n

mutual
/-- A decoder of legal parts. -/
def Parser.wf : Parser → Bool
  | .field f => f.wf
  | .unpack _ | .absidx _ _ _ => true
  | .lensel alts => alts.wf
  | .groups c g => c.wf && g.wf
  | .subdispatch alts => alts.wf && alts.keysAreBytes
  | .aggregate d1 d2 => d1.wf && d2.wf
  | .schema ds => ds.wf []
  | .select _ d1 d2 => d1.wf && d2.wf
/-- Distinct keys, and every alternative of legal parts. -/
def Alts.wf : Alts → Bool
  | .nil => true
  | .cons k d rest => !(rest.hasKey k) && d.wf && rest.wf
/-- R185: a sub-type is one byte. -/
def Alts.keysAreBytes : Alts → Bool
  | .nil => true
  | .cons k _ rest => k < 256 && rest.keysAreBytes
/-- R80, R189, U14: names unique within the schema, and a condition reads earlier ones; `names` are those of the descriptors
before. -/
def Schema.wf (names : List String) : Schema → Bool
  | .nil => true
  | .cons d rest => d.wf names && rest.wf (d.name :: names)
/-- A descriptor within a schema: a name not used before, and its members of legal parts. -/
def Desc.wf (names : List String) : Desc → Bool
  | .mk name width enum _ cond sub => !(names.contains name) && enumOk enum && condOk names cond && sub.wf width
/-- R80: the width is mandatory, and ignored when a sub-parser is present. -/
def Sub.wf (width : Nat) : Sub → Bool
  | .none => widthOk width
  | .some p => p.wf
end

/-- A well-formed decoder at a cursor, in a table: of legal parts, and every condition defined on every table that can reach
it (R189). -/
def Parser.wfRun (c : Config) (t : Fields) (start : Nat) (d : Parser) : Bool := d.wf && d.defined c t start

/-- R205: a decoder of a dispatch table, from the bit it names (R29): well formed, and it returns a record. -/
def Parser.wfPayload (c : Config) (start : Nat) (d : Parser) : Bool := d.wfRun c .nil start && d.yieldsRecord c .nil start

/-- What decoding reads beside the request: whether the buffer is full (R110), the configuration (R140), and the side table
and the cursor that a lone row of format DESC or UOP goes on from (R189; log entry 21). -/
structure Ctx where
  full : Bool
  cfg : Config
  tab : Fields
  cur : Nat
deriving DecidableEq, Repr

/-- A sub-parser run in the context (R189); a plain field has no condition. -/
def Sub.definedIn (cx : Ctx) : Sub → Bool
  | .none => true
  | .some p => p.defined cx.cfg cx.tab cx.cur

/-- R80, R189: a descriptor run on its own: its members of legal parts, and where its condition holds, its sub-parser
defined. -/
def Desc.wfAlone (cx : Ctx) : Desc → Bool
  | .mk _ width enum _ cond sub =>
    enumOk enum && sub.wf width && (fieldPresent cx.tab cond ≠ some true || sub.definedIn cx)

/-- R74: bit 6 of byte 0. -/
def headerMarked (f : List Byte) : Bool := (f.getD 0 0 &&& HDR_MARK) = HDR_MARK

/-- R54, R73, R74, R81, R160 to R163: the operand ranges of each instruction. A table cell may name any decoder
(R7, R141; log entry 19), so a row of format HDR takes every frame with a header whose marker is set and whose msgType is
not 255, in either direction. The decoders of a row are checked from the cursor and the table the row runs them with (log
entry 21). -/
def Instr.wf (cx : Ctx) : Instr → Bool
  | .stoppedDle | .firstStx | .inmsgDle | .escDle | .escEtx | .overflow _ => true
  | .stoppedOther b | .inmsgData b => b ≠ DLE
  | .firstOther b => b ≠ STX
  | .escOther b => b ≠ DLE && b ≠ ETX
  | .evtNone | .evtByte _ | .evtTimeout | .evtError => true
  | .wireStart | .wireEnd | .encDle | .frame _ => true
  | .encOther b => b ≠ DLE
  | .hdrShort f _ => f.length < HDR_LEN
  | .hdrError f _ => HDR_LEN ≤ f.length && !(headerMarked f)
  | .health f _ | .spConfig f _ | .vw f _ | .unknownType f _ | .otherMapped f _ =>
    HDR_LEN ≤ f.length && headerMarked f && f.getD 5 0 ≠ 255
  | .unmapped255 f _ => HDR_LEN ≤ f.length && headerMarked f && f.getD 5 0 = 255
  | .layNetwork | .layU32 | .layU16 | .layU8 | .layS8 => true
  | .desc d => d.wfAlone cx
  | .unpackFixed _ _ => true
  | .lensel _ e => (Parser.lensel e).wfRun cx.cfg cx.tab 0
  | .extract _ _ n => widthOk n
  | .sext v w => 1 ≤ w && v < 2 ^ w
  | .sentU _ n | .sentS _ n => 1 ≤ n
  | .scale _ _ | .unitscale _ _ | .absidx _ _ _ => true
  | .groups _ cur n g => (Parser.groups (.fixed n) g).wfRun cx.cfg cx.tab cur
  | .subdispatch _ cur s => (Parser.subdispatch s).wfRun cx.cfg cx.tab cur
  | .aggregate _ cur d1 d2 => (Parser.aggregate d1 d2).wfRun cx.cfg cx.tab cur
  | .schemaRun _ cur ds => (Parser.schema ds).wfRun cx.cfg .nil cur
  | .unassigned1101 | .unassigned1110 | .unassigned1111 => true
  | .deframe _ | .nextFrame _ | .decode _ _ | .nextMessage _ _ => true

end Sys2Proof
end

