-- ==== Sys2Proof/Decode.lean ====
section
/-! DEFINITION. Decoding: from a request to an instruction, total, rejecting by name; then encoding; then the host's
reading of an opcode-table word. FXD has four things it decodes (spec/30_encoding.md): the pair (state, byte) that
selects an FX step, the header that selects a payload decoder, layout strings, and the operation codes of the
unpacker. -/

namespace Sys2Proof

/-! ## Format EXT: which FX step a byte selects (R72, R73) -/

/-- R21: the two-bit encoding of the FX state on the status port. -/
def FxState.code : FxState → BitVec 2
  | .stopped => 0
  | .firstDelimiter => 1
  | .inMessage => 2
  | .inMessageEscape => 3

/-- R21, read backwards. -/
def FxState.ofCode (c : BitVec 2) : FxState :=
  if c = 0 then .stopped else if c = 1 then .firstDelimiter else if c = 2 then .inMessage else .inMessageEscape

/-- R73: `W = st * 256 + b`, that is `W[9:8] = st` and `W[7:0] = b`. -/
def extWord (st : FxState) (b : Byte) : BitVec 10 := st.code ++ b

/-- R73: W[9:8]. -/
def extState (w : BitVec 10) : FxState := .ofCode (w.extractLsb' 8 2)

/-- R73: W[7:0]. -/
def extByte (w : BitVec 10) : Byte := w.extractLsb' 0 8

/-- The rows of format EXT that a word selects (R73); OVERFLOW is not selected by a word alone. -/
inductive ExtRow where
  | stoppedDle | stoppedOther | firstStx | firstOther | inmsgDle | inmsgData | escDle | escEtx | escOther
deriving DecidableEq, Repr

/-- R73: the rows in table order, each with its match and mask over W. -/
def extTable : List (ExtRow × BitVec 10 × BitVec 10) :=
  [(.stoppedDle, 0x010, 0x3FF), (.stoppedOther, 0x000, 0x300),
   (.firstStx, 0x102, 0x3FF), (.firstOther, 0x100, 0x300),
   (.inmsgDle, 0x210, 0x3FF), (.inmsgData, 0x200, 0x300),
   (.escDle, 0x310, 0x3FF), (.escEtx, 0x303, 0x3FF), (.escOther, 0x300, 0x300)]

/-- R73: "rows are tried in the order listed and the first that matches wins". -/
def extSelect (w : BitVec 10) : List (ExtRow × BitVec 10 × BitVec 10) → Option ExtRow
  | [] => none
  | (r, m, k) :: rest => if w &&& k = m then some r else extSelect w rest

/-- The instruction of a row on a byte. R110 takes the place of INMSG.DATA and ESC.DLE when `len = FRAME_MAX`. -/
def ExtRow.instr (full : Bool) (b : Byte) : ExtRow → Instr
  | .stoppedDle => .stoppedDle
  | .stoppedOther => .stoppedOther b
  | .firstStx => .firstStx
  | .firstOther => .firstOther b
  | .inmsgDle => .inmsgDle
  | .inmsgData => if full then .overflow b else .inmsgData b
  | .escDle => if full then .overflow b else .escDle
  | .escEtx => .escEtx
  | .escOther => .escOther b

/-- R73: the FX step a word selects. The table is total, so the last arm is never taken. -/
def decodeExt (full : Bool) (w : BitVec 10) : Instr :=
  match extSelect w extTable with
  | some r => r.instr full (extByte w)
  | none => .evtNone

/-! ## The direction port (R140) -/

/-- R140: `dir = UP` is port value 0, `dir = DOWN` port value 1. -/
def Dir.code : Dir → BitVec 1
  | .up => 0
  | .down => 1

/-- R140, read backwards. -/
def Dir.ofCode (c : BitVec 1) : Dir := if c = 0 then .up else .down

/-! ## Format HDR: which case of a decode a frame selects (R74, R77, R78, R140 to R142) -/

/-- The cases of format HDR. -/
inductive HdrRow where
  | short | error | health | spConfig | vw | unmapped255 | unknownType | otherMapped
deriving DecidableEq, Repr

/-- R56: byte `i` of a frame. -/
def frameByte (f : List Byte) (i : Nat) : Byte := f.getD i 0

/-- R137: the marker check, bit 6 of byte 0. -/
def markerSet (f : List Byte) : Bool := (frameByte f 0 &&& HDR_MARK) = HDR_MARK

/-- R138: msgType is byte 5. -/
def msgTypeOf (f : List Byte) : Byte := frameByte f 5

/-- A cell of a table given as a list; an unlisted msgType is unmapped (R77, R85). -/
def tableCell (t : Byte) : List (Byte × Entry) → Entry
  | [] => .unmapped
  | (k, e) :: rest => if k = t then e else tableCell t rest

/-- R78, R140, R146: the cell of the table that `dir` selects. What the source fixes (64, 255) and decision D15 (130)
hold in every configuration; every other cell is the configuration's. -/
def Config.lookup (c : Config) (dir : Dir) (t : Byte) : Entry :=
  if t = 255 then .unmapped
  else if t = 64 ∧ dir = .up then .health
  else if t = 130 ∧ dir = c.spcfgDir then .spConfig
  else if t = c.vwMsgType ∧ dir = .up then .vw
  else match dir with
    | .up => tableCell t c.upTable
    | .down => tableCell t c.downTable

/-- R135, R238: the case of a decode, in the order of work of R135. -/
def selectHdr (c : Config) (f : List Byte) (dir : Dir) : HdrRow :=
  if f.length < HDR_LEN then .short
  else if !markerSet f then .error
  else if msgTypeOf f = 255 then .unmapped255
  else match c.lookup dir (msgTypeOf f) with
    | .unmapped => .unknownType
    | .health => .health
    | .spConfig => .spConfig
    | .vw => .vw
    | .program _ _ => .otherMapped
    | .lacking => .otherMapped

/-- The instruction of a case. -/
def HdrRow.instr (f : List Byte) (dir : Dir) : HdrRow → Instr
  | .short => .hdrShort f dir
  | .error => .hdrError f dir
  | .health => .health f dir
  | .spConfig => .spConfig f dir
  | .vw => .vw f dir
  | .unmapped255 => .unmapped255 f dir
  | .unknownType => .unknownType f dir
  | .otherMapped => .otherMapped f dir

/-! ## Format LAY: layout characters and layout strings (R79) -/

/-- R79: `!` is ASCII 0x21. -/
def layoutMark : Byte := 0x21

/-- R79: the item a layout character stands for (`!` stands for none). -/
def layoutItem (c : Byte) : Option Item :=
  if c = 0x49 then some .u4
  else if c = 0x48 then some .u2
  else if c = 0x42 then some .u1
  else if c = 0x62 then some .s1
  else none

/-- The items after the `!`. -/
def layoutItems : List Byte → Option (List Item)
  | [] => some []
  | c :: rest =>
    match layoutItem c, layoutItems rest with
    | some i, some is => some (i :: is)
    | _, _ => none

/-- R79: a layout string, `!` first and only first (log entry 26). -/
def parseLayout : List Byte → Option (List Item)
  | [] => none
  | c :: rest => if c = layoutMark then layoutItems rest else none

/-- R79: the instruction of a layout character. -/
def decodeLay (c : Byte) : Except DecodeError Instr :=
  if c = layoutMark then .ok .layNetwork
  else match layoutItem c with
    | some .u4 => .ok .layU32
    | some .u2 => .ok .layU16
    | some .u1 => .ok .layU8
    | some .s1 => .ok .layS8
    | _ => .error .layChar

/-! ## Format UOP (R81) -/

/-- R81: the operation of a code, given operands of its shape. -/
def decodeUop (code : BitVec 4) (args : UopArgs) : Except DecodeError Instr :=
  match code.toNat, args with
  | 0, .layout p l => .ok (.unpackFixed p l)
  | 1, .alts p e => .ok (.lensel p e)
  | 2, .bits p off n => .ok (.extract p off n)
  | 3, .raw v w => .ok (.sext v w)
  | 4, .raw v n => .ok (.sentU v n)
  | 5, .raw v n => .ok (.sentS v n)
  | 6, .scaled x k => .ok (.scale x k)
  | 7, .coded x c => .ok (.unitscale x c)
  | 8, .repeated p cur c g => .ok (.groups p cur c g)
  | 9, .index a b c => .ok (.absidx a b c)
  | 10, .nested p cur s => .ok (.subdispatch p cur s)
  | 11, .pair p cur d1 d2 => .ok (.aggregate p cur d1 d2)
  | 12, .program p cur ds => .ok (.schemaRun p cur ds)
  | 13, .none => .ok .unassigned1101
  | 14, .none => .ok .unassigned1110
  | 15, .none => .ok .unassigned1111
  | _, _ => .error .operandShape

/-! ## The decoder -/

/-- R38, R73: the instruction of an event; in_data is read only for BYTE. -/
def decodeEvt (kind : BitVec 2) (data : Byte) : Instr :=
  if kind = 0 then .evtNone else if kind = 1 then .evtByte data else if kind = 2 then .evtTimeout else .evtError

/-- R71: the two delimiters. -/
def decodeWire (w : BitVec 16) : Except DecodeError Instr :=
  if w = 0x1002 then .ok .wireStart else if w = 0x1003 then .ok .wireEnd else .error .wireWord

/-- R126: the two ENC rows. -/
def decodeEnc (b : Byte) : Instr := if b = DLE then .encDle else .encOther b

/-- R89, R140: the composite operations. -/
def PseudoOp.instr : PseudoOp → Instr
  | .deframe s => .deframe s
  | .nextFrame t => .nextFrame t
  | .decode f d => .decode f (.ofCode d)
  | .nextMessage t d => .nextMessage t (.ofCode d)

/-- The instruction of a request, by its format (R70), before the operand ranges are checked. -/
def decodeFormat (cx : Ctx) : Req → Except DecodeError Instr
  | .ext w => .ok (decodeExt cx.full w)
  | .evt kind data => .ok (decodeEvt kind data)
  | .wire w => decodeWire w
  | .enc b => .ok (decodeEnc b)
  | .encFrame content => .ok (.frame content)
  | .hdr f d => .ok ((selectHdr cx.cfg f (.ofCode d)).instr f (.ofCode d))
  | .lay c => decodeLay c
  | .desc d => .ok (.desc d)
  | .uop code args => decodeUop code args
  | .pseudo op => .ok op.instr

/-- The decoder: total on every request, and every instruction it gives is well formed. -/
def decode (cx : Ctx) (r : Req) : Except DecodeError Instr :=
  match decodeFormat cx r with
  | .ok i => if i.wf cx then .ok i else .error .illFormed
  | .error e => .error e

/-! ## The encoder -/

/-- The request of an instruction, from the same tables: R21 and R73 for EXT, R38 for EVT, R71, R126, R74, R140, R79, R81. -/
def encode : Instr → Req
  | .stoppedDle => .ext (extWord .stopped DLE)
  | .stoppedOther b => .ext (extWord .stopped b)
  | .firstStx => .ext (extWord .firstDelimiter STX)
  | .firstOther b => .ext (extWord .firstDelimiter b)
  | .inmsgDle => .ext (extWord .inMessage DLE)
  | .inmsgData b => .ext (extWord .inMessage b)
  | .escDle => .ext (extWord .inMessageEscape DLE)
  | .escEtx => .ext (extWord .inMessageEscape ETX)
  | .escOther b => .ext (extWord .inMessageEscape b)
  | .overflow b => .ext (extWord (if b = DLE then .inMessageEscape else .inMessage) b)
  | .evtNone => .evt 0 0
  | .evtByte b => .evt 1 b
  | .evtTimeout => .evt 2 0
  | .evtError => .evt 3 0
  | .wireStart => .wire 0x1002
  | .wireEnd => .wire 0x1003
  | .encDle => .enc DLE
  | .encOther b => .enc b
  | .frame content => .encFrame content
  | .hdrShort f d => .hdr f d.code
  | .hdrError f d => .hdr f d.code
  | .health f d => .hdr f d.code
  | .spConfig f d => .hdr f d.code
  | .vw f d => .hdr f d.code
  | .unmapped255 f d => .hdr f d.code
  | .unknownType f d => .hdr f d.code
  | .otherMapped f d => .hdr f d.code
  | .layNetwork => .lay 0x21
  | .layU32 => .lay 0x49
  | .layU16 => .lay 0x48
  | .layU8 => .lay 0x42
  | .layS8 => .lay 0x62
  | .desc d => .desc d
  | .unpackFixed p l => .uop 0 (.layout p l)
  | .lensel p e => .uop 1 (.alts p e)
  | .extract p off n => .uop 2 (.bits p off n)
  | .sext v w => .uop 3 (.raw v w)
  | .sentU v n => .uop 4 (.raw v n)
  | .sentS v n => .uop 5 (.raw v n)
  | .scale x k => .uop 6 (.scaled x k)
  | .unitscale x c => .uop 7 (.coded x c)
  | .groups p cur c g => .uop 8 (.repeated p cur c g)
  | .absidx a b c => .uop 9 (.index a b c)
  | .subdispatch p cur s => .uop 10 (.nested p cur s)
  | .aggregate p cur d1 d2 => .uop 11 (.pair p cur d1 d2)
  | .schemaRun p cur ds => .uop 12 (.program p cur ds)
  | .unassigned1101 => .uop 13 .none
  | .unassigned1110 => .uop 14 .none
  | .unassigned1111 => .uop 15 .none
  | .deframe s => .pseudo (.deframe s)
  | .nextFrame t => .pseudo (.nextFrame t)
  | .decode f d => .pseudo (.decode f d.code)
  | .nextMessage t d => .pseudo (.nextMessage t d.code)

/-- Whether an instruction is the one its request selects where the selection reads more than the request: R110 reads
the buffer's length, R140 the dispatch tables. -/
def Instr.selectedIn (cx : Ctx) : Instr → Bool
  | .inmsgData _ | .escDle => !cx.full
  | .overflow _ => cx.full
  | .hdrShort f d => selectHdr cx.cfg f d = .short
  | .hdrError f d => selectHdr cx.cfg f d = .error
  | .health f d => selectHdr cx.cfg f d = .health
  | .spConfig f d => selectHdr cx.cfg f d = .spConfig
  | .vw f d => selectHdr cx.cfg f d = .vw
  | .unmapped255 f d => selectHdr cx.cfg f d = .unmapped255
  | .unknownType f d => selectHdr cx.cfg f d = .unknownType
  | .otherMapped f d => selectHdr cx.cfg f d = .otherMapped
  | .stoppedDle | .stoppedOther _ | .firstStx | .firstOther _ | .inmsgDle | .escEtx | .escOther _ => true
  | .evtNone | .evtByte _ | .evtTimeout | .evtError | .wireStart | .wireEnd | .encDle | .encOther _ | .frame _ => true
  | .layNetwork | .layU32 | .layU16 | .layU8 | .layS8 | .desc _ | .unpackFixed _ _ | .lensel _ _ => true
  | .extract _ _ _ | .sext _ _ | .sentU _ _ | .sentS _ _ | .scale _ _ | .unitscale _ _ | .groups _ _ _ _ => true
  | .absidx _ _ _ | .subdispatch _ _ _ | .aggregate _ _ _ _ | .schemaRun _ _ _ => true
  | .unassigned1101 | .unassigned1110 | .unassigned1111 => true
  | .deframe _ | .nextFrame _ | .decode _ _ | .nextMessage _ _ => true

/-- R38, R73: the request the transport's answer is, in a state of FX. -/
def answerReq (st : FxState) : Answer → Req
  | .noData => .evt 0 0
  | .byte b => .ext (extWord st b)
  | .timeout => .evt 2 0
  | .error => .evt 3 0

/-! ## Words as the opcode table numbers them (log entry 12) -/

/-- The operands a uop word stands for when the table gives it none: the least of each kind. -/
def leastArgs (code : Nat) : UopArgs :=
  match code with
  | 0 => .layout [] []
  | 1 => .alts [] .nil
  | 2 => .bits [] 0 1
  | 3 | 4 | 5 => .raw 0 1
  | 6 => .scaled 0 0
  | 7 => .coded 0 0
  | 8 => .repeated [] 0 0 (.unpack [])
  | 9 => .index 0 0 0
  | 10 => .nested [] 0 .nil
  | 11 => .pair [] 0 (.unpack []) (.unpack [])
  | 12 => .program [] 0 .nil
  | _ => .none

/-- R74: the six header bytes of `H`, first byte most significant. -/
def headerBytes (h : BitVec 48) : List Byte :=
  [h.extractLsb' 40 8, h.extractLsb' 32 8, h.extractLsb' 24 8, h.extractLsb' 16 8, h.extractLsb' 8 8,
   h.extractLsb' 0 8]

/-- The request of a word of spec/opcode_table.json. The table's formats share their words and carry no format bits, so
width and value decide: ten-bit words are EXT, other 16-bit words WIRE, up to 48 bits HDR; of the bytes, 0x10 is ENC.DLE,
0 to 3 the event kinds, 4 to 15 the uop codes, the five layout characters LAY, and the rest ENC.OTHER. -/
def tableReq (nbits w : Nat) : Option Req :=
  if nbits = 0 ∨ 48 < nbits ∨ 2 ^ 48 ≤ w then none
  else if nbits ≤ 2 then some (.evt (BitVec.ofNat 2 w) 0)
  else if nbits ≤ 4 then some (.uop (BitVec.ofNat 4 w) (leastArgs (w % 16)))
  else if nbits ≤ 8 then
    if 256 ≤ w then none
    else if w < 4 then some (.evt (BitVec.ofNat 2 w) 0)
    else if w < 16 then some (.uop (BitVec.ofNat 4 w) (leastArgs w))
    else if w = 0x21 ∨ w = 0x49 ∨ w = 0x48 ∨ w = 0x42 ∨ w = 0x62 then some (.lay (BitVec.ofNat 8 w))
    else some (.enc (BitVec.ofNat 8 w))
  else if nbits ≤ 16 then
    if w < 1024 then some (.ext (BitVec.ofNat 10 w))
    else if w < 65536 then some (.wire (BitVec.ofNat 16 w))
    else none
  else some (.hdr (headerBytes (BitVec.ofNat 48 w)) 0)

/-- The instruction the decoder reads from a word of spec/opcode_table.json, in the context of the reset state (an
empty buffer; the configuration, side table and cursor at reset). -/
def decodeTableWord (nbits w : Nat) : Option Instr :=
  match tableReq nbits w with
  | some r =>
    match decode ⟨false, Config.default, .nil, 0⟩ r with
    | .ok i => some i
    | .error _ => none
  | none => none

end Sys2Proof
end

