-- ==== Sys2Proof/Machine/State.lean ====
section
/-! DEFINITION. The state of FXD as plain data, the reasons a step can stop, and the state after reset. -/

namespace Sys2Proof.Machine

/-- The accumulation buffer's bytes by index (R22, R45): strictly rising indices, no entry equal to what an unlisted
index reads as (log entry 5). -/
abbrev Memory := List Host.Cell

/-- R20: the persistent state of FXD: the state register (R21), the length register and the buffer (R22). -/
structure Fx where
  /-- R21 -/
  st : FxState
  /-- R22: the length register -/
  len : Nat
  /-- R22: the bytes of the buffer; those at index `len` and above have no meaning -/
  buf : Memory
deriving DecidableEq, Repr

/-- R39: the output of one FX step, its label with its datum. -/
inductive Label where
  | none
  | frame (s : List Byte)
  | framingError
  | overflow
  | timedOut
  | transportError
deriving DecidableEq, Repr

/-- R27: the parsed view of a frame's first six bytes. -/
structure Header where
  nodeId : BitVec 20
  priceCode : Byte
  sequence : Byte
  msgType : Byte
deriving DecidableEq, Repr

/-- R13: what an operation returns to the caller; `frames` is the list deframe returns (R114). -/
inductive Result where
  | frame (s : List Byte)
  | timedOut
  | transportError
  | ok (hdr : Header) (r : Fields)
  | unknownType (hdr : Header)
  | headerError
  | malformedPayload
  | frames (fs : List (List Byte))
deriving DecidableEq, Repr

/-- What an unpacker operation returns to the decoder that uses it (R155 to R190); a cursor it returns is in `cur`, a
side table in `tab`. -/
inductive Ret where
  | value (v : Value)
  /-- R162, R163: the answer of a sentinel test -/
  | flag (b : Bool)
  /-- R155: the items of a whole-byte unpack -/
  | items (vs : List Int)
  /-- R168: the items of a repeated group -/
  | values (vs : Values)
  /-- R157: the continuation a length selects -/
  | selected (d : Parser)
deriving DecidableEq, Repr

/-- R113, R145: a call in progress, with the timeout passed to each read. -/
inductive Call where
  | nextFrame (timeout : Nat)
  | nextMessage (timeout : Nat) (dir : Dir)
deriving DecidableEq, Repr

/-- The faults of FXD: none. "Nothing in this core is fatal to the process" (R225), and the spec treats no open point as
a fault (spec/93_implementation_defined.md), so nothing raises one. -/
inductive Fault
deriving DecidableEq, Repr

/-- Why the model gives no meaning. Each is safe: where the machine would go on, a claim about it cannot be proved. -/
inductive Refusal where
  /-- raised by exec for an instruction that has no meaning yet; safe -/
  | notModelled (mnemonic : String)
  /-- raised by step for a request that is no instruction: a WIRE word that is no delimiter (R71), a layout character
  the spec does not define (R79), a uop code with operands of another operation (R81), a width or a value outside an
  operation's domain (R54, R160, R161, U13), a schema or a map that R80, R157, R185 or R189 refuses (U14); safe -/
  | undecodable (e : DecodeError)
  /-- raised by the EXT and HDR rows in a state in which the row is not the one selected (R73, R135); safe, and never
  raised on a decoded instruction -/
  | rowNotSelected
  /-- raised by every FX event after an ERROR event and before reset (R112, U4); safe -/
  | eventAfterTransportError
  /-- raised by nextFrame and nextMessage while a call is in progress (R246, U6); safe -/
  | callInProgress
  /-- raised by OTHER_MAPPED for a type mapped to a decoder the model lacks (R210, U3, U8); safe -/
  | decoderLacking
  /-- raised by the unassigned uop codes (R83); safe -/
  | unassignedUop
  /-- raised by EXTRACT and every bit-field read of a width outside 1 to 32 (R160, U13), and by a sentinel test of a
  field of no bits; safe -/
  | widthOutOfRange
  /-- raised by SEXT outside its domain (R161, U13); safe -/
  | sextDomain
  /-- raised by a layout with a float item (R156, U9); safe -/
  | floatItem
  /-- raised by a condition that reads a name absent from the side table (R189, U14), of a decoded instruction only the
  condition of a lone DESC row; safe -/
  | conditionReadsAbsentName
  /-- raised by a descriptor whose name is already in the side table (R80, U14); safe -/
  | duplicateFieldName
  /-- raised by OTHER_MAPPED for a type that the configuration maps to a decoder with a schema that R80 or R189 refuses,
  or that returns no record (R205, U14); safe -/
  | decoderIllFormed
  /-- raised where a nested or a payload decoder does not return a record (R185, R205); safe -/
  | notARecord
deriving DecidableEq, Repr

/-- The whole state: what the spec gives FXD, the outputs of its operations, and what the outside presents. -/
structure State where
  /-- R20 -/
  fx : Fx
  /-- R112, U4: an ERROR event was stepped since the last reset (log entry 6) -/
  failed : Bool
  /-- R111, R113: the call in progress (log entry 9) -/
  call : Option Call
  /-- R39: the label of the FX step just taken; none where the step was none of FX (log entry 9) -/
  label : Label
  /-- R13, R39, R236: the result that arrived on the step just taken, a one-step strobe (log entry 9) -/
  result : Option Result
  /-- what the last unpacker operation returned (log entry 9) -/
  ret : Option Ret
  /-- R45, R76: the payload being decoded (log entry 10) -/
  pay : List Byte
  /-- R29: the bit cursor (log entry 10) -/
  cur : Nat
  /-- R30: the side table T (log entry 10) -/
  tab : Fields
  /-- R155: the byte index of a whole-byte unpack (log entry 10) -/
  pos : Nat
  /-- R155: the values of the whole-byte unpack so far (log entry 10) -/
  items : List Int
  /-- R125: the bytes FE has produced, oldest first (log entry 9) -/
  wire : List Byte
  /-- R247, R260: reset assertions and operations not yet taken, oldest first (log entry 1) -/
  reqs : List Input
  /-- R37, R38: what the transport will answer to the next reads, oldest first (log entry 1) -/
  line : List Answer
  /-- R7: the configuration, which no step writes (log entry 3) -/
  cfg : Config
deriving DecidableEq, Repr

/-- R40: a newly created FX instance. -/
def Fx.reset : Fx where
  st := .stopped
  len := 0
  buf := []

/-- R40: the state right after reset; the registers R40 gives no value are empty or zero (log entries 1, 5, 6, 9, 10). -/
def State.reset : State where
  fx := Fx.reset
  failed := false
  call := none
  label := .none
  result := none
  ret := none
  pay := []
  cur := 0
  tab := .nil
  pos := 0
  items := []
  wire := []
  reqs := []
  line := []
  cfg := Config.default

end Sys2Proof.Machine
end

