-- ==== Sys2Proof/Machine/Ops.lean ====
section
/-! DEFINITION. The named operations: the buffer's bytes, append, clear and emit, the shared shape of an operation that
may raise MalformedPayload (R233 is FXD's one "taking an exception"), and reset. -/

namespace Sys2Proof.Machine

/-- What a step, and every meaning, answers. -/
abbrev Out := Host.Outcome State Fault Refusal

/-! ## The buffer's bytes (R22, R45) -/

/-- What an index nothing has been written to reads as. R40 leaves it unspecified and unobservable; DESIGN CHOICE
(log entry 5). -/
def Memory.unlisted : Byte := 0

/-- One byte of the buffer. -/
def Memory.read : Memory → Nat → Byte
  | [], _ => Memory.unlisted
  | (k, x) :: rest, a => if k = a then x else Memory.read rest a

/-- R46: `buf[a] <- v`, keeping the canonical form. -/
def Memory.write : Memory → Nat → Byte → Memory
  | [], a, v => if v = Memory.unlisted then [] else [(a, v)]
  | (k, x) :: rest, a, v =>
    if a < k then if v = Memory.unlisted then (k, x) :: rest else (a, v) :: (k, x) :: rest
    else if a = k then if v = Memory.unlisted then rest else (a, v) :: rest
    else (k, x) :: Memory.write rest a v

/-- Every listed index is at least `lo`, the indices rise strictly, and no listed byte is the unlisted one. -/
def Memory.wfFrom (lo : Nat) : Memory → Bool
  | [] => true
  | (k, x) :: rest => lo ≤ k && x ≠ Memory.unlisted && Memory.wfFrom (k + 1) rest

/-- The canonical form of the buffer's bytes. -/
def Memory.wf (m : Memory) : Bool := Memory.wfFrom 0 m

/-- The bytes at the `n` indices from `a` on, in order. -/
def Memory.slice (m : Memory) (a : Nat) : Nat → List Byte
  | 0 => []
  | n + 1 => Memory.read m a :: Memory.slice m (a + 1) n

/-! ## The operations on FX state (R46, R47, R108) -/

/-- R22: the contents of the buffer, `buf[0..len]`; what emit copies out. -/
def Fx.contents (q : Fx) : List Byte := Memory.slice q.buf 0 q.len

/-- R57, R110: the buffer has no room for another byte. -/
def Fx.full (max : Option Nat) (q : Fx) : Bool :=
  match max with
  | none => false
  | some n => n ≤ q.len

/-- R46: `buf[len] <- b; len <- len + 1`. -/
def Fx.append (q : Fx) (b : Byte) : Fx :=
  { q with buf := Memory.write q.buf q.len b, len := q.len + 1 }

/-- R47: `len <- 0`; the stored bytes need not be erased. -/
def Fx.clear (q : Fx) : Fx := { q with len := 0 }

/-- `st <- S`. -/
def Fx.goto (q : Fx) (st : FxState) : Fx := { q with st := st }

/-- Whether the buffer of the state has no room (R57). -/
def State.full (s : State) : Bool := s.fx.full s.cfg.frameMax

/-- What decoding reads of the state (R110, R140, R189). -/
def State.ctx (s : State) : Ctx := ⟨s.full, s.cfg, s.tab, s.cur⟩

/-! ## Operations that may raise (R233) -/

/-- What an operation of MD or BU ends in: a value, `raise MalformedPayload` (R53, R231), or a refusal where the spec
gives no meaning. -/
inductive Bu (α : Type) where
  | ok (a : α)
  | malformed
  | refuse (r : Refusal)
deriving DecidableEq, Repr

/-- R233: `raise` unwinds through every enclosing decoder. -/
def Bu.bind {α β : Type} (x : Bu α) (k : α → Bu β) : Bu β :=
  match x with
  | .ok a => k a
  | .malformed => .malformed
  | .refuse r => .refuse r

/-- R233, R234: the operation in progress ends with result MalformedPayload; nothing else is written and nothing is
returned with it. -/
def State.raiseMalformed (s : State) : State :=
  { s with result := some .malformedPayload, ret := none }

/-- How an unpacker operation of the caller ends: what it returns is written by `k`, a raise ends it (R233). -/
def uopReturn {α : Type} (r : Bu α) (s : State) (k : α → State) : Out :=
  match r with
  | .ok a => .next (k a)
  | .malformed => .next s.raiseMalformed
  | .refuse q => .refused q

/-- How a call of `decode` ends: with one of its results (R13, R233). -/
def mdReturn (r : Bu Result) (s : State) : Out :=
  match r with
  | .ok x => .next { s with result := some x }
  | .malformed => .next { s with result := some .malformedPayload }
  | .refuse q => .refused q

/-! ## The outputs of a step (R39, R236) -/

/-- R236: the label and the result are outputs of one step; a step begins with neither. -/
def State.quiet (s : State) : State := { s with label := .none, result := none }

/-! ## Reset (R260, R261) -/

/-- R40, R260: reset puts FX into the state of a new instance, discards a partial message without a label, and touches
neither MD, FE nor the configuration; the bytes of the buffer are not erased (R47). -/
def fxReset (s : State) : State :=
  { s with
    fx := { s.fx with st := .stopped, len := 0 }
    failed := false
    call := none
    label := .none
    result := none }

end Sys2Proof.Machine
end

