-- ==== Sys2Proof/Machine/Flags.lean ====
section
/-! DEFINITION. FXD has no flags and no condition codes (spec/10_state.md R34): "No operation sets a status flag".
What stands in their place are the numeric codes results carry on the spec's own ports (R39, D11) and the two status
outputs (R35). -/

namespace Sys2Proof.Machine

/-- R39: the code of an MD or FX result. deframe is no port operation and its list of frames carries the code of Frame. -/
def resultCode : Result → BitVec 3
  | .frame _ => 0
  | .ok _ _ => 0
  | .frames _ => 0
  | .timedOut => 1
  | .transportError => 2
  | .headerError => 4
  | .malformedPayload => 5
  | .unknownType _ => 6

/-- R39: the code of a step's label; `none` is no result and has no code. -/
def labelCode : Label → Option (BitVec 3)
  | .none => none
  | .frame _ => some 0
  | .timedOut => some 1
  | .transportError => some 2
  | .framingError => some 3
  | .overflow => some 7

/-- R39: "Only `frame(s)`, `timed_out` and `transport_error` reach the caller". -/
def labelReachesCaller : Label → Bool
  | .frame _ | .timedOut | .transportError => true
  | .none | .framingError | .overflow => false

/-- R39, R232: which results are errors; UnknownType is none. -/
def resultIsError : Result → Bool
  | .timedOut | .transportError | .headerError | .malformedPayload => true
  | .frame _ | .ok _ _ | .unknownType _ | .frames _ => false

/-- R39, R236: the result strobe of the step just taken: its code where a result arrived on it, none otherwise. -/
def strobe (s : State) : Option (BitVec 3) := s.result.map resultCode

/-- R21, R35: the 2-bit status output. -/
def statusSt (s : State) : BitVec 2 := s.fx.st.code

/-- R22, R35: the length status output. -/
def statusLen (s : State) : Nat := s.fx.len

end Sys2Proof.Machine
end

