-- ==== Sys2Proof/Machine/Operands.lean ====
section
/-! DEFINITION. The operand forms of FXD: bytes and bits of a payload, whole-byte items, bit fields, signed readings,
sentinels (spec/00_scope.md R8 to R12, spec/43_unpack_primitives.md). -/

namespace Sys2Proof.Machine

/-! ## Bytes (R10, R48) -/

/-- R10: big-endian assembly, on top of `acc`. -/
def beFrom (acc : Nat) : List Byte → Nat
  | [] => acc
  | b :: rest => beFrom (acc * 256 + b.toNat) rest

/-- R10: `be(b0, b1, ...)`, the first byte the most significant. -/
def be (bs : List Byte) : Nat := beFrom 0 bs

/-- R48, R53: `n` bytes at index `a`, big-endian, or MalformedPayload past the end. -/
def memRead (p : List Byte) (a n : Nat) : Bu Nat :=
  if a + n ≤ p.length then .ok (be ((p.drop a).take n)) else .malformed

/-! ## Bits (R11, R49, R158) -/

/-- R11: the bit at offset `k`, most significant bit of the first byte first; 0 or 1. -/
def bitAt (p : List Byte) (k : Nat) : Nat :=
  if (p.getD (k / 8) 0).getLsbD (7 - k % 8) then 1 else 0

/-- R158: `sum over i = 0 .. n-1 of bit(p, off + i) * 2^(n-1-i)`, its first term first. -/
def bitSum (p : List Byte) (off : Nat) : Nat → Nat
  | 0 => 0
  | n + 1 => bitAt p off * 2 ^ n + bitSum p (off + 1) n

/-- R158: `EXTRACT(p, off, n)`; refused outside widths 1 to 32 (R160). -/
def extract (p : List Byte) (off n : Nat) : Bu Nat :=
  if widthOk n then
    if off + n ≤ 8 * p.length then .ok (bitSum p off n) else .malformed
  else .refuse .widthOutOfRange

/-- R159: the byte-granular form, one to five bytes shifted and masked. -/
def extractBytes (p : List Byte) (off n : Nat) : Nat :=
  let first := off / 8
  let last := (off + n - 1) / 8
  let acc := be ((p.drop first).take (last - first + 1))
  (acc >>> (7 - (off + n - 1) % 8)) &&& (2 ^ n - 1)

/-- `bit(p, k) <- x`. -/
def setBit (p : List Byte) (k : Nat) (x : Bool) : List Byte :=
  p.set (k / 8)
    (if x then p.getD (k / 8) 0 ||| BitVec.twoPow 8 (7 - k % 8)
     else p.getD (k / 8) 0 &&& ~~~(BitVec.twoPow 8 (7 - k % 8)))

/-- R160: the reference bit-packer: bit `n-1-i` of `v` at offset `off + i`, every other bit as it was. -/
def packField (p : List Byte) (off : Nat) (n v : Nat) : List Byte :=
  match n with
  | 0 => p
  | m + 1 => packField (setBit p off (v.testBit m)) (off + 1) m v

/-! ## Signed readings, sentinels, scaling (R161 to R167) -/

/-- R161: `SEXT(v, w)`, refused outside its domain (D21). -/
def sext (v w : Nat) : Bu Int :=
  if 1 ≤ w && v < 2 ^ w then .ok (signExtend v w) else .refuse .sextDomain

/-- R162, R163: a sentinel test of an `n`-bit field. -/
def sentinel (signed : Bool) (v n : Nat) : Bu Bool :=
  if n = 0 then .refuse .widthOutOfRange
  else .ok (if signed then sentinelSigned v n else sentinelUnsigned v n)

/-! ## Whole-byte items (R155, R156) -/

/-- R155: `size(L)`. -/
def layoutSize : List Item → Nat
  | [] => 0
  | i :: rest => itemSize i + layoutSize rest

/-- R156: the value of an item's raw bytes; a float item is refused (U9). -/
def itemValue (i : Item) (raw : Nat) : Bu Int :=
  match i with
  | .u1 | .u2 | .u4 => .ok (raw : Int)
  | .s1 | .s2 | .s4 => sext raw (8 * itemSize i)
  | .f4 => .refuse .floatItem

/-- R155: one item at byte index `a`. -/
def itemAt (p : List Byte) (a : Nat) (i : Item) : Bu Int :=
  (memRead p a (itemSize i)).bind (itemValue i)

/-- R155: the items one after another from byte index `a`. -/
def itemsFrom (p : List Byte) (a : Nat) : List Item → Bu (List Int)
  | [] => .ok []
  | i :: rest =>
    (itemAt p a i).bind fun v => (itemsFrom p (a + itemSize i) rest).bind fun vs => .ok (v :: vs)

/-- R155: `UNPACK_FIXED(p, L)`. -/
def unpackFixed (p : List Byte) (l : List Item) : Bu (List Int) :=
  if l.contains .f4 then .refuse .floatItem
  else if p.length < layoutSize l then .malformed
  else itemsFrom p 0 l

/-- R157: `LENSEL(p, E)` over a finite map. -/
def lengthSelect {α : Type} (p : List Byte) : List (Nat × α) → Bu α
  | [] => .malformed
  | (k, x) :: rest => if p.length = k then .ok x else lengthSelect p rest

/-! ## Records and lists as values (R28, R14) -/

/-- The record of a decoder's value (R205). -/
def asRecord : Value → Bu Fields
  | .record r => .ok r
  | _ => .refuse .notARecord

/-- A list of integers as a value. -/
def intValues : List Int → Values
  | [] => .nil
  | v :: rest => .cons (.int v) (intValues rest)

/-- Raw bytes as a value (R209). -/
def byteValues : List Byte → Values
  | [] => .nil
  | b :: rest => .cons (.int b.toNat) (byteValues rest)

end Sys2Proof.Machine
end

