-- ==== Sys2Proof/Machine/Schema.lean ====
section
/-! DEFINITION. Decoders that read a payload at a cursor, and the table-driven field-schema interpreter
(spec/43_unpack_primitives.md R168 to R172, spec/44_schema_nested.md). -/

namespace Sys2Proof.Machine

/-! ## One field (R82, R172) -/

/-- R172: `v <- EXTRACT(p, cur, n); cur <- cur + n`. -/
def readField (c : Config) (p : List Byte) (t : Fields) (cur : Nat) (f : FieldSpec) : Bu (Value × Nat) :=
  (extract p cur f.width).bind fun raw => .ok (fieldValue c t f raw, cur + f.width)

/-- R155, R172: whole-byte items read at the cursor, adjacent. R172 speaks of a cursor at a byte boundary only. DESIGN
CHOICE (log entry 37): at any other cursor the items are read from that bit on. -/
def itemsAtCursor (p : List Byte) (cur : Nat) : List Item → Bu (List Int × Nat)
  | [] => .ok ([], cur)
  | i :: rest =>
    (extract p cur (8 * itemSize i)).bind fun raw => (itemValue i raw).bind fun v =>
      (itemsAtCursor p (cur + 8 * itemSize i) rest).bind fun r => .ok (v :: r.1, r.2)

/-- R155, R156: a whole-byte unpack at the cursor; a float item is refused before anything is read (U9). -/
def unpackAtCursor (p : List Byte) (cur : Nat) (l : List Item) : Bu (List Int × Nat) :=
  if l.contains .f4 then .refuse .floatItem else itemsAtCursor p cur l

/-! ## Groups (R168, R169) -/

/-- R168: `c` groups, item `j` first, each read where the one before it ended. -/
def groupLoop (g : Nat → Nat → Bu (Value × Nat)) : Nat → Nat → Nat → Bu (Values × Nat)
  | 0, _, cur => .ok (.nil, cur)
  | c + 1, j, cur =>
    (g cur j).bind fun r => (groupLoop g c (j + 1) r.2).bind fun rest => .ok (.cons r.1 rest.1, rest.2)

/-- R168: the count of a group, and where its first item starts. -/
def countAt (p : List Byte) (t : Fields) (cur : Nat) : Count → Bu (Nat × Nat)
  | .fixed n => .ok (n, cur)
  | .named n => .ok (namedNat t n, cur)
  | .inline w => (extract p cur w).bind fun k => .ok (k, cur + w)

/-! ## The interpreter -/

/-- R185: `{subType: t}` merged with the nested decoder's record. -/
def withSubType (k : Nat) (v : Value) : Bu Value :=
  (asRecord v).bind fun r => .ok (.record (fieldMerge (.cons "subType" (.int k) .nil) r))

mutual
/-- A decoder on the payload `p` at `cur`, with the side table it sees and the index of the innermost group it stands in
(R168). DESIGN CHOICE (log entry 30): the index is 0 where it stands in no group, which R169 does not say. -/
def runParser (c : Config) (p : List Byte) (t : Fields) (j cur : Nat) : Parser → Bu (Value × Nat)
  | .field f => readField c p t cur f
  | .unpack l => (unpackAtCursor p cur l).bind fun r => .ok (.list (intValues r.1), r.2)
  | .lensel alts =>
    match runAlts c p t j cur p.length alts with
    | some r => r
    | none => .malformed
  | .groups n g =>
    (countAt p t cur n).bind fun k =>
      (groupLoop (fun cur' j' => runParser c p t j' cur' g) k.1 0 k.2).bind fun r => .ok (.list r.1, r.2)
  | .absidx name base cap => .ok (.int (absIndex (frameOperand t name base) (capacityOf c t cap) j), cur)
  | .subdispatch alts =>
    (extract p cur 8).bind fun k =>
      match runAlts c p t j (cur + 8) k alts with
      | some r => r.bind fun x => (withSubType k x.1).bind fun v => .ok (v, x.2)
      | none => .ok (unmappedSubType k, cur + 8)
  | .aggregate d1 d2 =>
    (runParser c p t j cur d1).bind fun r1 => (runParser c p t j r1.2 d2).bind fun r2 =>
      .ok (aggregateValue r1.1 r2.1, r2.2)
  | .schema ds => (runSchema c p t .nil j cur ds).bind fun r => .ok (.record r.1, r.2)
  | .select k d1 d2 => if evalCond t k = some true then runParser c p t j cur d1 else runParser c p t j cur d2
/-- The decoder under a key, run; none where the map lacks the key. -/
def runAlts (c : Config) (p : List Byte) (t : Fields) (j cur k : Nat) : Alts → Option (Bu (Value × Nat))
  | .nil => none
  | .cons key d rest => if key = k then some (runParser c p t j cur d) else runAlts c p t j cur k rest
/-- R188: the descriptors in declared order, from a side table `t` and a cursor, inside a run whose table is `outer` and
in a group at index `j`. -/
def runSchema (c : Config) (p : List Byte) (outer t : Fields) (j cur : Nat) : Schema → Bu (Fields × Nat)
  | .nil => .ok (t, cur)
  | .cons d rest => (runDesc c p outer t j cur d).bind fun r => runSchema c p outer r.1 j r.2 rest
/-- R188 to R192: one descriptor: skipped where its condition is false; read, and stored under its name, otherwise. A
condition reads its own run's table alone (R189), a sub-parser that table and the one around it (R192; log entry 20). -/
def runDesc (c : Config) (p : List Byte) (outer t : Fields) (j cur : Nat) : Desc → Bu (Fields × Nat)
  | .mk name width enum signed cond sub =>
    match fieldPresent t cond with
    | none => .refuse .conditionReadsAbsentName
    | some false => .ok (t, cur)
    | some true =>
      if (fieldGet name t).isSome then .refuse .duplicateFieldName
      else (runSub c p (fieldsAround outer t) j cur ⟨width, signed, false, conversionOf enum⟩ sub).bind fun r =>
        .ok (fieldSet name r.1 t, r.2)
/-- R80, R188: the field read by EXTRACT where there is no sub-parser. DESIGN CHOICE (log entry 30): a sub-parser is run
at the group index of the schema it stands in, which R80 and R192 do not say. -/
def runSub (c : Config) (p : List Byte) (t : Fields) (j cur : Nat) (f : FieldSpec) : Sub → Bu (Value × Nat)
  | .none => readField c p t cur f
  | .some d => runParser c p t j cur d
end

end Sys2Proof.Machine
end

