-- ==== Sys2Proof/Machine/Header.lean ====
section
/-! DEFINITION. Format HDR: the header, the three payload decoders the spec gives, and one decode by the case its frame
selects (spec/42_header_dispatch.md, spec/45_payload_decoders.md). -/

namespace Sys2Proof.Machine

/-! ## The header and the payload (R138, R76) -/

/-- R138: `nodeId = ((f[0] & 0x0F) << 16) | (f[2] << 8) | f[3]`; the others are single bytes. -/
def parseHeader (f : List Byte) : Header where
  nodeId :=
    ((frameByte f 0 &&& 0x0F).setWidth 20 <<< 16) ||| ((frameByte f 2).setWidth 20 <<< 8) |||
      (frameByte f 3).setWidth 20
  priceCode := frameByte f 1
  sequence := frameByte f 4
  msgType := msgTypeOf f

/-- R76: the frame after the header. -/
def payload (f : List Byte) : List Byte := f.drop HDR_LEN

/-! ## The payload decoders (R205) -/

/-- R207: `!IIHbHBB`. -/
def healthLayout : List Item := [.u4, .u4, .u2, .s1, .u2, .u1, .u1]

/-- R207: the six names; FW takes the two trailing items (C2, D16). -/
def healthRecord : List Int → Fields
  | [t, u, bat, tmp, sn, fw0, fw1] =>
    .cons "Time" (.int t) (.cons "Uptime" (.int u) (.cons "Battery" (.int bat) (.cons "Temperature" (.int tmp)
      (.cons "SN" (.int sn) (.cons "FW" (.list (.cons (.int fw0) (.cons (.int fw1) .nil))) .nil)))))
  | _ => .nil

/-- R207: HEALTH(p). -/
def healthPayload (p : List Byte) : Bu Fields :=
  (unpackFixed p healthLayout).bind fun vs => .ok (healthRecord vs)

/-- R208: SP_CONFIG(p); MalformedPayload below two bytes, the rest ignored. -/
def spConfigPayload (p : List Byte) : Bu Fields :=
  (memRead p 0 2).bind fun v => .ok (.cons "SamplingPeriod" (.int v) .nil)

/-- R209: the lengths of the family and the channel counts they stand for. -/
def vwLengths : List (Nat × Nat) := [(6, 0), (14, 1), (22, 2), (30, 3), (38, 4), (46, 5)]

/-- R209: the prefix, 4-byte Time and 2-byte Pressure. -/
def vwPrefix : List Item := [.u4, .u2]

/-- R209: `n` channel groups of eight raw bytes each. -/
def vwChannels (p : List Byte) : Nat → Values
  | 0 => .nil
  | n + 1 => .cons (.list (byteValues (p.take 8))) (vwChannels (p.drop 8) n)

/-- R209: VW(p). -/
def vwPayload (p : List Byte) : Bu Fields :=
  (lengthSelect p vwLengths).bind fun n =>
    (unpackFixed p vwPrefix).bind fun vs =>
      match vs with
      | [t, pr] =>
        .ok (.cons "Time" (.int t) (.cons "Pressure" (.int pr) (.cons "ChannelCount" (.int n)
          (.cons "Channels" (.list (vwChannels (p.drop 6) n)) .nil))))
      | _ => .malformed

/-- R29, R205, R210: a decoder the configuration supplies, run from the bit it names with an empty side table and item index
0 (log entry 30); its record is the message's. -/
def programPayload (c : Config) (start : Nat) (d : Parser) (p : List Byte) : Bu Fields :=
  (runParser c p .nil 0 start d).bind fun r => asRecord r.1

/-! ## The cases of a decode (R135) -/

/-- R135, R143: a payload decoder's record with the header, or its error unchanged. -/
def recordResult (f : List Byte) (r : Bu Fields) : Bu Result :=
  r.bind fun x => .ok (.ok (parseHeader f) x)

/-- R136: MalformedPayload; the configuration may make it HeaderError for one to five bytes with the marker clear
(U5, log entry 14). -/
def shortResult (c : Config) (f : List Byte) : Bu Result :=
  if c.shortMarkerFirst && !f.isEmpty && !markerSet f then .ok .headerError else .malformed

/-- R207: a Health message. -/
def healthResult (f : List Byte) : Bu Result := recordResult f (healthPayload (payload f))

/-- R208: an SP Config message. -/
def spConfigResult (f : List Byte) : Bu Result := recordResult f (spConfigPayload (payload f))

/-- R209: a message of the vibrating-wire family. -/
def vwResult (f : List Byte) : Bu Result := recordResult f (vwPayload (payload f))

/-- R142: the header and UnknownType; the payload is not looked at. -/
def unknownResult (f : List Byte) : Bu Result := .ok (.unknownType (parseHeader f))

/-- R210: a type mapped to a decoder this spec does not give: the configuration's, or refused. A decoder that R189, R80
or R205 refuses is refused whatever the payload: "it is a configuration error, not a run-time fault" (U14). -/
def otherResult (c : Config) (f : List Byte) (dir : Dir) : Bu Result :=
  match c.lookup dir (msgTypeOf f) with
  | .program start d =>
    if d.wfPayload c start then recordResult f (programPayload c start d (payload f)) else .refuse .decoderIllFormed
  | _ => .refuse .decoderLacking

/-- R135: `decode(f, dir)`, a function of the frame, the direction and the configuration alone (R31). -/
def decodeResult (c : Config) (f : List Byte) (dir : Dir) : Bu Result :=
  match selectHdr c f dir with
  | .short => shortResult c f
  | .error => .ok .headerError
  | .health => healthResult f
  | .spConfig => spConfigResult f
  | .vw => vwResult f
  | .unmapped255 => unknownResult f
  | .unknownType => unknownResult f
  | .otherMapped => otherResult c f dir

/-! ## The meanings of format HDR -/

/-- A row of format HDR, run where the frame, the direction and the configuration select it (R135; log entry 11). -/
def hdrRun (row : HdrRow) (f : List Byte) (dir : Dir) (s : State) (r : Bu Result) : Out :=
  if selectHdr s.cfg f dir = row then mdReturn r s else .refused .rowNotSelected

/-- R136 -/
def execHdrShort (f : List Byte) (dir : Dir) (s : State) : Out :=
  hdrRun .short f dir s (shortResult s.cfg f)

/-- R137 -/
def execHdrError (f : List Byte) (dir : Dir) (s : State) : Out :=
  hdrRun .error f dir s (.ok .headerError)

/-- R207 -/
def execHealth (f : List Byte) (dir : Dir) (s : State) : Out :=
  hdrRun .health f dir s (healthResult f)

/-- R208 -/
def execSpConfig (f : List Byte) (dir : Dir) (s : State) : Out :=
  hdrRun .spConfig f dir s (spConfigResult f)

/-- R209 -/
def execVw (f : List Byte) (dir : Dir) (s : State) : Out :=
  hdrRun .vw f dir s (vwResult f)

/-- R142: 255 is unmapped in both tables. -/
def execUnmapped255 (f : List Byte) (dir : Dir) (s : State) : Out :=
  hdrRun .unmapped255 f dir s (unknownResult f)

/-- R142: a type unmapped in the selected table. -/
def execUnknownType (f : List Byte) (dir : Dir) (s : State) : Out :=
  hdrRun .unknownType f dir s (unknownResult f)

/-- R210 -/
def execOtherMapped (f : List Byte) (dir : Dir) (s : State) : Out :=
  hdrRun .otherMapped f dir s (otherResult s.cfg f dir)

end Sys2Proof.Machine
end

