-- ==== Sys2Proof/Machine/Extractor.lean ====
section
/-! DEFINITION. Formats EXT and EVT: the frame extractor's step rules R101 to R112, each as a function of FX state that
gives the next FX state and the step's label, and the events that select them (spec/40_frame_extractor.md). -/

namespace Sys2Proof.Machine

/-! ## The step rules on FX state (R100) -/

/-- What a step rule gives: the FX state after the step, and the label. -/
abbrev FxStep := Fx × Label

/-- R101: `st <- FIRST_DELIMITER`. -/
def Fx.stoppedDle (q : Fx) : FxStep := (q.goto .firstDelimiter, .none)

/-- R102: no register is written. -/
def Fx.stoppedOther (q : Fx) : FxStep := (q, .none)

/-- R103: `len <- 0; st <- IN_MESSAGE`. -/
def Fx.firstStx (q : Fx) : FxStep := (q.clear.goto .inMessage, .none)

/-- R104: `st <- STOPPED`, no label. -/
def Fx.firstOther (q : Fx) : FxStep := (q.goto .stopped, .none)

/-- R105: `st <- IN_MESSAGE_ESCAPE`, the byte not appended. -/
def Fx.inmsgDle (q : Fx) : FxStep := (q.goto .inMessageEscape, .none)

/-- R110: `len <- 0; st <- STOPPED`, label overflow. -/
def Fx.overflow (q : Fx) : FxStep := (q.clear.goto .stopped, .overflow)

/-- R106: append, remain; R110 at capacity. -/
def Fx.inmsgData (max : Option Nat) (b : Byte) (q : Fx) : FxStep :=
  if q.full max then q.overflow else (q.append b, .none)

/-- R107: append one DLE, return to IN_MESSAGE; R110 at capacity. -/
def Fx.escDle (max : Option Nat) (q : Fx) : FxStep :=
  if q.full max then q.overflow else ((q.append DLE).goto .inMessage, .none)

/-- R108: emit the contents, `len <- 0; st <- STOPPED`. -/
def Fx.escEtx (q : Fx) : FxStep := (q.clear.goto .stopped, .frame q.contents)

/-- R109: `len <- 0; st <- STOPPED`, label framing_error. -/
def Fx.escOther (q : Fx) : FxStep := (q.clear.goto .stopped, .framingError)

/-- R100: the step on a byte, chosen by the state and the byte's class (R72). -/
def Fx.byte (max : Option Nat) (b : Byte) (q : Fx) : FxStep :=
  match q.st with
  | .stopped => if b = DLE then q.stoppedDle else q.stoppedOther
  | .firstDelimiter => if b = STX then q.firstStx else q.firstOther
  | .inMessage => if b = DLE then q.inmsgDle else q.inmsgData max b
  | .inMessageEscape => if b = DLE then q.escDle max else if b = ETX then q.escEtx else q.escOther

/-! ## The end of a step: the label, and the call in progress (R39, R113, R145) -/

/-- A call that returns a result is over. -/
def endCall (r : Result) (s : State) : State := { s with result := some r, call := none }

/-- R113, R145: a frame ends nextFrame with Frame(s), and nextMessage with the decode of it. -/
def deliverFrame (f : List Byte) (c : Call) (s : State) : Out :=
  match c with
  | .nextFrame _ => .next (endCall (.frame f) s)
  | .nextMessage _ dir => mdReturn (decodeResult s.cfg f dir) { s with call := none }

/-- R39, R113: the step's label; of a call in progress, frame, timed_out and transport_error end it, and the labels
none, framing_error and overflow keep it reading. -/
def deliver (l : Label) (s : State) : Out :=
  match s.call, l with
  | some c, .frame f => deliverFrame f c { s with label := l }
  | some _, .timedOut => .next (endCall .timedOut { s with label := l })
  | some _, .transportError => .next (endCall .transportError { s with label := l })
  | some _, .none | some _, .framingError | some _, .overflow => .next { s with label := l }
  | none, _ => .next { s with label := l }

/-- A step rule run where `selected`; events after a transport error have no meaning until reset (R112, U4). -/
def fxRun (selected : Bool) (rule : Fx → FxStep) (s : State) : Out :=
  if s.failed then .refused .eventAfterTransportError
  else if selected then deliver (rule s.fx).2 { s with fx := (rule s.fx).1 }
  else .refused .rowNotSelected

/-- R111: no register is written; label timed_out. -/
def fxTimeout (s : State) : Out :=
  if s.failed then .refused .eventAfterTransportError else deliver .timedOut s

/-- R112: no register is written; label transport_error; the connection is presumed unusable. -/
def fxError (s : State) : Out :=
  if s.failed then .refused .eventAfterTransportError else deliver .transportError { s with failed := true }

/-- R38, R113: the step on one answer of the transport; a read of no bytes is no event. -/
def fxAnswer (a : Answer) (s : State) : Out :=
  match a with
  | .noData => .next s
  | .byte b => fxRun true (Fx.byte s.cfg.frameMax b) s
  | .timeout => fxTimeout s
  | .error => fxError s

/-! ## The meanings of format EXT -/

/-- R101 -/
def execStoppedDle (s : State) : Out := fxRun (s.fx.st = .stopped) Fx.stoppedDle s

/-- R102 -/
def execStoppedOther (_b : Byte) (s : State) : Out := fxRun (s.fx.st = .stopped) Fx.stoppedOther s

/-- R103 -/
def execFirstStx (s : State) : Out := fxRun (s.fx.st = .firstDelimiter) Fx.firstStx s

/-- R104 -/
def execFirstOther (_b : Byte) (s : State) : Out := fxRun (s.fx.st = .firstDelimiter) Fx.firstOther s

/-- R105 -/
def execInmsgDle (s : State) : Out := fxRun (s.fx.st = .inMessage) Fx.inmsgDle s

/-- R106; R110 when `len = FRAME_MAX` -/
def execInmsgData (b : Byte) (s : State) : Out :=
  fxRun (s.fx.st = .inMessage) (Fx.inmsgData s.cfg.frameMax b) s

/-- R107; R110 when `len = FRAME_MAX` -/
def execEscDle (s : State) : Out := fxRun (s.fx.st = .inMessageEscape) (Fx.escDle s.cfg.frameMax) s

/-- R108 -/
def execEscEtx (s : State) : Out := fxRun (s.fx.st = .inMessageEscape) Fx.escEtx s

/-- R109 -/
def execEscOther (_b : Byte) (s : State) : Out := fxRun (s.fx.st = .inMessageEscape) Fx.escOther s

/-- R110: the operands of R106 (`b` not DLE) or of R107 (`b` = DLE), with `len = FRAME_MAX`. -/
def execOverflow (b : Byte) (s : State) : Out :=
  fxRun (s.full && s.fx.st = (if b = DLE then .inMessageEscape else .inMessage)) Fx.overflow s

/-! ## The meanings of format EVT -/

/-- R38, R252: no event; FX holds all state. -/
def execEvtNone (s : State) : Out := .next s

/-- R73: BYTE defers to the EXT rows. -/
def execEvtByte (b : Byte) (s : State) : Out := fxAnswer (.byte b) s

/-- R111 -/
def execEvtTimeout (s : State) : Out := fxAnswer .timeout s

/-- R112 -/
def execEvtError (s : State) : Out := fxAnswer .error s

end Sys2Proof.Machine
end

