-- ==== Sys2Proof/Machine/Composite.lean ====
section
/-! DEFINITION. Format PSEUDO: the composite operations (R89), each a composition of the step and function rules. -/

namespace Sys2Proof.Machine

/-- R114: the run of FX over a byte sequence: the FX state it ends in, and the labels in order. -/
def Fx.run (max : Option Nat) (q : Fx) : List Byte → Fx × List Label
  | [] => (q, [])
  | b :: rest =>
    let r := q.byte max b
    let r' := Fx.run max r.1 rest
    (r'.1, r.2 :: r'.2)

/-- R114: the `s_i` of the labels `frame(s_i)`, in order. -/
def framesOf : List Label → List (List Byte)
  | [] => []
  | .frame f :: rest => f :: framesOf rest
  | _ :: rest => framesOf rest

/-- R114: `deframe(s)`, run from the reset state. -/
def deframe (max : Option Nat) (bs : List Byte) : List (List Byte) := framesOf (Fx.reset.run max bs).2

/-- R113: the read loop of a call in progress over what the transport has to answer. It ends when the call returns;
where the answers run out first the call blocks and stays in progress. -/
def readLoop : List Answer → State → Out
  | [], s => .next { s with line := [] }
  | a :: rest, s =>
    match fxAnswer a { s with line := rest } with
    | .next s' => if s'.call.isNone then .next s' else readLoop rest s'
    | .fault r => .fault r
    | .refused r => .refused r

/-- R113, R145: a call begins; one call at a time on an instance (R246, U6), none after a transport error (R112, U4). -/
def beginCall (c : Call) (s : State) : Out :=
  if s.call.isSome then .refused .callInProgress
  else if s.failed then .refused .eventAfterTransportError
  else readLoop s.line { s with call := some c }

/-- R89, R114: deframe runs an instance of its own, from reset (log entry 27). -/
def execDeframe (bs : List Byte) (s : State) : Out :=
  .next { s with result := some (.frames (deframe s.cfg.frameMax bs)) }

/-- R113 -/
def execNextFrame (timeout : Nat) (s : State) : Out := beginCall (.nextFrame timeout) s

/-- R135 -/
def execDecode (f : List Byte) (dir : Dir) (s : State) : Out := mdReturn (decodeResult s.cfg f dir) s

/-- R145 -/
def execNextMessage (timeout : Nat) (dir : Dir) (s : State) : Out := beginCall (.nextMessage timeout dir) s

end Sys2Proof.Machine
end

