-- ==== Sys2Proof/Machine/Encoder.lean ====
section
/-! DEFINITION. Formats WIRE and ENC: the frame encoder FE (spec/41_frame_encoder.md). FE has no state; what it produces
is appended to the wire output (log entry 13). -/

namespace Sys2Proof.Machine

/-- R71: DLE STX. -/
def startDelimiter : List Byte := [DLE, STX]

/-- R71: DLE ETX. -/
def endDelimiter : List Byte := [DLE, ETX]

/-- R126: one content byte as it travels. -/
def escByte (b : Byte) : List Byte := if b = DLE then [DLE, DLE] else [b]

/-- R126: the escaping of the content, byte by byte. -/
def esc : List Byte → List Byte
  | [] => []
  | b :: rest => escByte b ++ esc rest

/-- R125: `frame(P) = [0x10, 0x02] ++ esc(P) ++ [0x10, 0x03]`. -/
def frameOf (content : List Byte) : List Byte := startDelimiter ++ esc content ++ endDelimiter

/-- What FE sends goes to the wire output. -/
def send (bs : List Byte) (s : State) : Out := .next { s with wire := s.wire ++ bs }

/-- R71, R125: the start delimiter. -/
def execWireStart (s : State) : Out := send startDelimiter s

/-- R71, R125: the end delimiter. -/
def execWireEnd (s : State) : Out := send endDelimiter s

/-- R126: content byte 0x10 is sent as 10 10. -/
def execEncDle (s : State) : Out := send [DLE, DLE] s

/-- R126: every other content byte is sent as itself. -/
def execEncOther (b : Byte) (s : State) : Out := send [b] s

/-- R125 -/
def execFrame (content : List Byte) (s : State) : Out := send (frameOf content) s

end Sys2Proof.Machine
end

