-- ==== Sys2Proof/Machine/Unpack.lean ====
section
/-! DEFINITION. Formats LAY, DESC and UOP: the bit-field unpacker BU, one operation at a time (spec/30_encoding.md R79 to
R81, spec/43_unpack_primitives.md, spec/44_schema_nested.md). An operation that takes a payload loads it into `pay`, and
what it returns goes to `ret`, `cur` and `tab` (log entry 10). -/

namespace Sys2Proof.Machine

/-! ## Format LAY: one item of a whole-byte unpack (R79, R155) -/

/-- R155: `raw <- MemRead(a, size); v <- ...; a <- a + size`, the value after those before it. -/
def layItem (i : Item) (s : State) : Out :=
  uopReturn (itemAt s.pay s.pos i) s fun v =>
    { s with pos := s.pos + itemSize i, items := s.items ++ [v], ret := some (.value (.int v)) }

/-- R79, R155: `!`, first character only: big-endian, packed, no byte consumed; items start at byte 0 (log entry 26). -/
def execLayNetwork (s : State) : Out := .next { s with pos := 0, items := [] }

/-- R79: `I` -/
def execLayU32 (s : State) : Out := layItem .u4 s

/-- R79: `H` -/
def execLayU16 (s : State) : Out := layItem .u2 s

/-- R79: `B` -/
def execLayU8 (s : State) : Out := layItem .u1 s

/-- R79: `b` -/
def execLayS8 (s : State) : Out := layItem .s1 s

/-! ## Format DESC (R80, R188) -/

/-- R188: one descriptor against the side table and the cursor, in no group (log entry 30). -/
def execDesc (d : Desc) (s : State) : Out :=
  uopReturn (runDesc s.cfg s.pay .nil s.tab 0 s.cur d) s fun r => { s with tab := r.1, cur := r.2 }

/-! ## Format UOP (R81) -/

/-- R155: loads `p` and runs the whole layout from byte 0. -/
def execUnpackFixed (p : List Byte) (l : List Item) (s : State) : Out :=
  uopReturn (unpackFixed p l) s fun vs =>
    { s with pay := p, pos := layoutSize l, items := vs, ret := some (.items vs) }

/-- R157: MalformedPayload for a length the map lacks. -/
def lengthChoice (p : List Byte) (e : Alts) : Bu Parser :=
  match altAt p.length e with
  | some d => .ok d
  | none => .malformed

/-- R157 -/
def execLensel (p : List Byte) (e : Alts) (s : State) : Out :=
  uopReturn (lengthChoice p e) s fun d => { s with pay := p, ret := some (.selected d) }

/-- R158 -/
def execExtract (p : List Byte) (off n : Nat) (s : State) : Out :=
  uopReturn (extract p off n) s fun v => { s with pay := p, ret := some (.value (.int v)) }

/-- R161 -/
def execSext (v w : Nat) (s : State) : Out :=
  uopReturn (sext v w) s fun x => { s with ret := some (.value (.int x)) }

/-- R162 -/
def execSentU (v n : Nat) (s : State) : Out :=
  uopReturn (sentinel false v n) s fun b => { s with ret := some (.flag b) }

/-- R163 -/
def execSentS (v n : Nat) (s : State) : Out :=
  uopReturn (sentinel true v n) s fun b => { s with ret := some (.flag b) }

/-- R165 -/
def execScale (x : Int) (k : Nat) (s : State) : Out :=
  .next { s with ret := some (.value (scaled x k)) }

/-- R166, R167 -/
def execUnitscale (x : Int) (code : Int) (s : State) : Out :=
  .next { s with ret := some (.value (pairValue (unitScaled s.cfg x code))) }

/-- R168 -/
def execGroups (p : List Byte) (cur c : Nat) (g : Parser) (s : State) : Out :=
  uopReturn (groupLoop (fun cur' j => runParser s.cfg p s.tab j cur' g) c 0 cur) s fun r =>
    { s with pay := p, cur := r.2, ret := some (.values r.1) }

/-- R169 -/
def execAbsidx (frameNumber itemsPerFrame itemIndex : Nat) (s : State) : Out :=
  .next { s with ret := some (.value (.int (absIndex frameNumber itemsPerFrame itemIndex))) }

/-- R185, R186; in no group (log entry 30) -/
def execSubdispatch (p : List Byte) (cur : Nat) (alts : Alts) (s : State) : Out :=
  uopReturn (runParser s.cfg p s.tab 0 cur (.subdispatch alts)) s fun r =>
    { s with pay := p, cur := r.2, ret := some (.value r.1) }

/-- R187; in no group (log entry 30) -/
def execAggregate (p : List Byte) (cur : Nat) (d1 d2 : Parser) (s : State) : Out :=
  uopReturn (runParser s.cfg p s.tab 0 cur (.aggregate d1 d2)) s fun r =>
    { s with pay := p, cur := r.2, ret := some (.value r.1) }

/-- R188: the side table starts empty, in no group (log entry 30); the final table and cursor are returned. -/
def execSchemaRun (p : List Byte) (cur : Nat) (ds : Schema) (s : State) : Out :=
  uopReturn (runSchema s.cfg p .nil .nil 0 cur ds) s fun r =>
    { s with pay := p, cur := r.2, tab := r.1, ret := some (.value (.record r.1)) }

/-- R83: "select nothing; a model refuses them". -/
def execUnassigned1101 (_s : State) : Out := .refused .unassignedUop

/-- R83 -/
def execUnassigned1110 (_s : State) : Out := .refused .unassignedUop

/-- R83 -/
def execUnassigned1111 (_s : State) : Out := .refused .unassignedUop

end Sys2Proof.Machine
end

