-- ==== Sys2Proof/Machine/Dispatch.lean ====
section
/-! DEFINITION. The dispatch: one arm per instruction, each one call of its meaning. -/

namespace Sys2Proof.Machine

def exec (i : Instr) (s : State) : Host.Outcome State Fault Refusal :=
  match i with
  -- format EXT
  | .stoppedDle => Sys2Proof.Machine.execStoppedDle s
  | .stoppedOther b => Sys2Proof.Machine.execStoppedOther b s
  | .firstStx => Sys2Proof.Machine.execFirstStx s
  | .firstOther b => Sys2Proof.Machine.execFirstOther b s
  | .inmsgDle => Sys2Proof.Machine.execInmsgDle s
  | .inmsgData b => Sys2Proof.Machine.execInmsgData b s
  | .escDle => Sys2Proof.Machine.execEscDle s
  | .escEtx => Sys2Proof.Machine.execEscEtx s
  | .escOther b => Sys2Proof.Machine.execEscOther b s
  | .overflow b => Sys2Proof.Machine.execOverflow b s
  -- format EVT
  | .evtNone => Sys2Proof.Machine.execEvtNone s
  | .evtByte b => Sys2Proof.Machine.execEvtByte b s
  | .evtTimeout => Sys2Proof.Machine.execEvtTimeout s
  | .evtError => Sys2Proof.Machine.execEvtError s
  -- format WIRE
  | .wireStart => Sys2Proof.Machine.execWireStart s
  | .wireEnd => Sys2Proof.Machine.execWireEnd s
  -- format ENC
  | .encDle => Sys2Proof.Machine.execEncDle s
  | .encOther b => Sys2Proof.Machine.execEncOther b s
  | .frame content => Sys2Proof.Machine.execFrame content s
  -- format HDR
  | .hdrShort f dir => Sys2Proof.Machine.execHdrShort f dir s
  | .hdrError f dir => Sys2Proof.Machine.execHdrError f dir s
  | .health f dir => Sys2Proof.Machine.execHealth f dir s
  | .spConfig f dir => Sys2Proof.Machine.execSpConfig f dir s
  | .vw f dir => Sys2Proof.Machine.execVw f dir s
  | .unmapped255 f dir => Sys2Proof.Machine.execUnmapped255 f dir s
  | .unknownType f dir => Sys2Proof.Machine.execUnknownType f dir s
  | .otherMapped f dir => Sys2Proof.Machine.execOtherMapped f dir s
  -- format LAY
  | .layNetwork => Sys2Proof.Machine.execLayNetwork s
  | .layU32 => Sys2Proof.Machine.execLayU32 s
  | .layU16 => Sys2Proof.Machine.execLayU16 s
  | .layU8 => Sys2Proof.Machine.execLayU8 s
  | .layS8 => Sys2Proof.Machine.execLayS8 s
  -- format DESC
  | .desc d => Sys2Proof.Machine.execDesc d s
  -- format UOP
  | .unpackFixed p l => Sys2Proof.Machine.execUnpackFixed p l s
  | .lensel p e => Sys2Proof.Machine.execLensel p e s
  | .extract p off n => Sys2Proof.Machine.execExtract p off n s
  | .sext v w => Sys2Proof.Machine.execSext v w s
  | .sentU v n => Sys2Proof.Machine.execSentU v n s
  | .sentS v n => Sys2Proof.Machine.execSentS v n s
  | .scale x k => Sys2Proof.Machine.execScale x k s
  | .unitscale x code => Sys2Proof.Machine.execUnitscale x code s
  | .groups p cur c g => Sys2Proof.Machine.execGroups p cur c g s
  | .absidx fn ipf k => Sys2Proof.Machine.execAbsidx fn ipf k s
  | .subdispatch p cur alts => Sys2Proof.Machine.execSubdispatch p cur alts s
  | .aggregate p cur d1 d2 => Sys2Proof.Machine.execAggregate p cur d1 d2 s
  | .schemaRun p cur ds => Sys2Proof.Machine.execSchemaRun p cur ds s
  | .unassigned1101 => Sys2Proof.Machine.execUnassigned1101 s
  | .unassigned1110 => Sys2Proof.Machine.execUnassigned1110 s
  | .unassigned1111 => Sys2Proof.Machine.execUnassigned1111 s
  -- format PSEUDO
  | .deframe bs => Sys2Proof.Machine.execDeframe bs s
  | .nextFrame timeout => Sys2Proof.Machine.execNextFrame timeout s
  | .decode f dir => Sys2Proof.Machine.execDecode f dir s
  | .nextMessage timeout dir => Sys2Proof.Machine.execNextMessage timeout dir s

end Sys2Proof.Machine
end

