-- ==== Sys2Proof/Machine/Step.lean ====
section
/-! DEFINITION. The step: what the outside presents next is fetched, decoded and run (R55, R59). -/

namespace Sys2Proof.Machine

/-- Decodes a request against the state and runs the instruction. -/
def runReq (r : Req) (s : State) : Host.Outcome State Fault Refusal :=
  match decode s.ctx r with
  | .ok i => exec i s
  | .error e => .refused (.undecodable e)

/-- What the outside presents next is taken and run: a waiting reset or operation first, else one answer of the
transport, else there is no event (R38; log entry 2). What is taken is consumed (R55). DESIGN CHOICE (log entries 2, 28):
an answer reaches FX as an event whenever no request waits, also while no call is reading, and what such an event emits is
the step's label alone, which no later call returns. -/
def serve (s : State) : Host.Outcome State Fault Refusal :=
  match s.reqs with
  | .rst :: rest => .next (fxReset { s with reqs := rest })
  | .op r :: rest => runReq r { s with reqs := rest }
  | [] =>
    match s.line with
    | a :: rest => runReq (answerReq s.fx.st a) { s with line := rest }
    | [] => runReq (.evt 0 0) s

/-- One step: the outputs of the step before are gone (R236), and what the outside presents next is served
(DESIGN CHOICE, log entries 2 and 28: an answer of the transport also outside a call). -/
def step (s : State) : Host.Outcome State Fault Refusal := serve s.quiet

/-- The state whose very next step runs the instruction of a word of spec/opcode_table.json (log entries 1 and 12): its
request stands first among those not yet taken, and for an EXT word the state register holds the state W names (R73). -/
def State.withFetchWord (s : State) (nbits w : Nat) : State :=
  match tableReq nbits w with
  | some (.ext x) => { s with fx := s.fx.goto (extState x), reqs := .op (.ext x) :: s.reqs }
  | some r => { s with reqs := .op r :: s.reqs }
  | none => s

end Sys2Proof.Machine
end

