-- ==== Sys2Proof/Safety.lean ====
section
/-! DEFINITION. What counts as a well-kept state of FXD, and when two states cannot be told apart. -/

namespace Sys2Proof.Machine

/-- R22: `len ≤ FRAME_MAX`, and every stored byte at an index below FRAME_MAX. -/
def Fx.bounded (max : Option Nat) (q : Fx) : Bool :=
  match max with
  | none => true
  | some n => q.len ≤ n && q.buf.all fun c => c.1 < n

/-- R23: `len = 0` whenever `st` is STOPPED or FIRST_DELIMITER. -/
def Fx.clearOutside (q : Fx) : Bool :=
  match q.st with
  | .stopped | .firstDelimiter => q.len = 0
  | .inMessage | .inMessageEscape => true

/-- The invariant of FX state: the buffer's canonical form, R22 and R23. -/
def Fx.wf (max : Option Nat) (q : Fx) : Bool := q.buf.wf && q.bounded max && q.clearOutside

/-- The invariant of the state: that of FX, and no call in progress on a connection presumed unusable (R112, U4). -/
def State.Inv (s : State) : Bool := s.fx.wf s.cfg.frameMax && (!s.failed || s.call.isNone)

/-- R22, U11: two FX states that differ at most in the bytes at index `len` and above. -/
def Fx.sameVisible (q r : Fx) : Prop :=
  q.st = r.st ∧ q.len = r.len ∧ ∀ a, a < q.len → Memory.read q.buf a = Memory.read r.buf a

/-- Two states that differ at most in the buffer bytes that have no meaning. -/
def State.sameVisible (s t : State) : Prop := s.fx.sameVisible t.fx ∧ { s with fx := t.fx } = t

/-- Two outcomes that cannot be told apart. -/
def Out.sameVisible (x y : Out) : Prop :=
  match x, y with
  | .next s, .next t => s.sameVisible t
  | .refused q, .refused r => q = r
  | _, _ => False

/-- R38, R115: the bytes among the transport's answers, in order. -/
def bytesOf : List Answer → List Byte
  | [] => []
  | .byte b :: rest => b :: bytesOf rest
  | _ :: rest => bytesOf rest

/-- A schema of descriptors in declared order (R188). -/
def schemaOf : List Desc → Schema
  | [] => .nil
  | d :: rest => .cons d (schemaOf rest)

/-- The descriptor rows of a schema, run one at a time in declared order (R188). -/
def runDescRows : Schema → State → Out
  | .nil, s => .next s
  | .cons d rest, s =>
    match exec (.desc d) s with
    | .next t => runDescRows rest t
    | r => r

/-- The layout character of an item, as an instruction (R79); only the four kinds the spec spells have one. -/
def itemRow : Item → Option Instr
  | .u1 => some .layU8
  | .u2 => some .layU16
  | .u4 => some .layU32
  | .s1 => some .layS8
  | .s2 | .s4 | .f4 => none

/-- Instructions run one at a time, in order. -/
def runRows : List Instr → State → Out
  | [], s => .next s
  | i :: rest, s =>
    match exec i s with
    | .next t => runRows rest t
    | r => r

/-- The ENC row of a content byte (R126). -/
def encRow (b : Byte) : Instr := if b = DLE then .encDle else .encOther b

/-- The instructions that step FX: the EXT and EVT rows, and the calls that read the transport. Every other instruction
is a function of MD or FE (R31, R125). -/
def stepsFx : Instr → Bool
  | .stoppedDle | .stoppedOther _ | .firstStx | .firstOther _ | .inmsgDle | .inmsgData _ | .escDle | .escEtx
  | .escOther _ | .overflow _ | .evtNone | .evtByte _ | .evtTimeout | .evtError | .nextFrame _ | .nextMessage _ _ => true
  | .wireStart | .wireEnd | .encDle | .encOther _ | .frame _ | .hdrShort _ _ | .hdrError _ _ | .health _ _
  | .spConfig _ _ | .vw _ _ | .unmapped255 _ _ | .unknownType _ _ | .otherMapped _ _ | .layNetwork | .layU32 | .layU16
  | .layU8 | .layS8 | .desc _ | .unpackFixed _ _ | .lensel _ _ | .extract _ _ _ | .sext _ _ | .sentU _ _ | .sentS _ _
  | .scale _ _ | .unitscale _ _ | .groups _ _ _ _ | .absidx _ _ _ | .subdispatch _ _ _ | .aggregate _ _ _ _
  | .schemaRun _ _ _ | .unassigned1101 | .unassigned1110 | .unassigned1111 | .deframe _ | .decode _ _ => false

/-- One input event stepped: the EXT and EVT rows. -/
def isEventRow (i : Instr) : Bool :=
  stepsFx i && match i with | .nextFrame _ | .nextMessage _ _ => false | _ => true

end Sys2Proof.Machine
end

