-- ==== Sys2Proof/Certificates/Slice0/Obligations.lean ====
section
/-! DEFINITION. The statements about FXD, for the provers. Each docstring names the rules of spec/ it formalises, and says
where a clause rests on a choice of the model (a log entry of notes/assumptions). -/

open Sys2Proof Sys2Proof.Machine

/-! ## The frame extractor: one step per event -/

/-- R101, R102: the two steps in STOPPED, their selection, and that nothing but the register named and the label
changes. -/
def Obligations.StoppedStepsHuntForDle : Prop :=
  (∀ full, decodeExt full 0x010 = .stoppedDle) ∧
  (∀ full b, b ≠ DLE → decodeExt full (extWord .stopped b) = .stoppedOther b) ∧
  ∀ s : State, s.failed = false → s.fx.st = .stopped →
    exec .stoppedDle s = .next { s with fx := { s.fx with st := .firstDelimiter }, label := .none } ∧
    ∀ b, b ≠ DLE → exec (.stoppedOther b) s = .next { s with label := .none }

/-- R103, R104: the two steps in FIRST_DELIMITER. -/
def Obligations.FirstDelimiterStepsOpenOrResync : Prop :=
  (∀ full, decodeExt full 0x102 = .firstStx) ∧
  (∀ full b, b ≠ STX → decodeExt full (extWord .firstDelimiter b) = .firstOther b) ∧
  ∀ s : State, s.failed = false → s.fx.st = .firstDelimiter →
    exec .firstStx s = .next { s with fx := { s.fx with len := 0, st := .inMessage }, label := .none } ∧
    ∀ b, b ≠ STX → exec (.firstOther b) s = .next { s with fx := { s.fx with st := .stopped }, label := .none }

/-- R105, R106: the two steps in IN_MESSAGE, the append with room in the buffer. -/
def Obligations.InMessageStepsEscapeOrAppend : Prop :=
  (∀ full, decodeExt full 0x210 = .inmsgDle) ∧
  (∀ b, b ≠ DLE → decodeExt false (extWord .inMessage b) = .inmsgData b) ∧
  ∀ s : State, s.failed = false → s.fx.st = .inMessage →
    exec .inmsgDle s = .next { s with fx := { s.fx with st := .inMessageEscape }, label := .none } ∧
    ∀ b, b ≠ DLE → (∀ n, s.cfg.frameMax = some n → s.fx.len < n) →
      exec (.inmsgData b) s =
        .next { s with fx := { s.fx with buf := Memory.write s.fx.buf s.fx.len b, len := s.fx.len + 1 },
                       label := .none }

/-- R107, R109: in IN_MESSAGE_ESCAPE a doubled DLE appends one DLE, with room in the buffer, and returns to IN_MESSAGE;
any byte other than DLE and ETX, STX included, is a framing error that drops the message, reaches no caller and leaves a
call in progress reading. -/
def Obligations.EscapeStepsAppendOrAbort : Prop :=
  decodeExt false 0x310 = .escDle ∧
  (∀ full b, b ≠ DLE → b ≠ ETX → decodeExt full (extWord .inMessageEscape b) = .escOther b) ∧
  ∀ s : State, s.failed = false → s.fx.st = .inMessageEscape →
    ((∀ n, s.cfg.frameMax = some n → s.fx.len < n) →
      exec .escDle s =
        .next { s with fx := { s.fx with buf := Memory.write s.fx.buf s.fx.len 0x10, len := s.fx.len + 1,
                                         st := .inMessage },
                       label := .none }) ∧
    ∀ b, b ≠ DLE → b ≠ ETX →
      exec (.escOther b) s =
        .next { s with fx := { s.fx with len := 0, st := .stopped }, label := .framingError }

/-- R108, R113, R145: ETX in IN_MESSAGE_ESCAPE emits the contents, clears and stops; a nextFrame in progress returns the
frame, a nextMessage in progress the decode of it, or is refused as that decode is. The clear after the emit is the spec's
decision D6 (log entry 8). -/
def Obligations.EtxEmitsTheContents : Prop :=
  (∀ full, decodeExt full 0x303 = .escEtx) ∧
  ∀ s : State, s.failed = false → s.fx.st = .inMessageEscape →
    (s.call = none →
      exec .escEtx s =
        .next { s with fx := { s.fx with len := 0, st := .stopped }, label := .frame s.fx.contents }) ∧
    (∀ n, s.call = some (.nextFrame n) →
      exec .escEtx s =
        .next { s with fx := { s.fx with len := 0, st := .stopped }, label := .frame s.fx.contents,
                       result := some (.frame s.fx.contents), call := none }) ∧
    ∀ n dir, s.call = some (.nextMessage n dir) →
      (∀ r, exec (.decode s.fx.contents dir) s = .next { s with result := some r } →
        exec .escEtx s =
          .next { s with fx := { s.fx with len := 0, st := .stopped }, label := .frame s.fx.contents,
                         result := some r, call := none }) ∧
      ∀ e, exec (.decode s.fx.contents dir) s = .refused e → exec .escEtx s = .refused e

/-- R110: at `len = FRAME_MAX` the append rows and OVERFLOW clear the buffer, go to STOPPED and emit nothing; with an
unbounded buffer no byte step ever has the label overflow. The treatment is the spec's decision D5. -/
def Obligations.OverflowReplacesAppendAtCapacity : Prop :=
  (∀ (s : State) (b : Byte), s.failed = false → s.cfg.frameMax = some s.fx.len → b ≠ DLE → s.fx.st = .inMessage →
    exec (.inmsgData b) s = .next { s with fx := { s.fx with len := 0, st := .stopped }, label := .overflow } ∧
    exec (.overflow b) s = exec (.inmsgData b) s ∧ decodeExt s.full (extWord s.fx.st b) = .overflow b) ∧
  (∀ s : State, s.failed = false → s.cfg.frameMax = some s.fx.len → s.fx.st = .inMessageEscape →
    exec .escDle s = .next { s with fx := { s.fx with len := 0, st := .stopped }, label := .overflow } ∧
    exec (.overflow DLE) s = exec .escDle s ∧ decodeExt s.full (extWord s.fx.st DLE) = .overflow DLE) ∧
  ∀ (q : Fx) (b : Byte), (q.byte none b).2 ≠ .overflow

/-- R38, R73, R100: the row of every (state, byte) pair, and the EVT kinds; the table is total; BYTE defers to it, and with no
call in progress it completes on a live connection in every FX state and writes FX state and the label alone; no event
changes nothing. -/
def Obligations.EveryStateAndByteSelectsItsRow : Prop :=
  (∀ (full : Bool) (st : FxState) (b : Byte),
    decodeExt full (extWord st b) =
      match st with
      | .stopped => if b = DLE then .stoppedDle else .stoppedOther b
      | .firstDelimiter => if b = STX then .firstStx else .firstOther b
      | .inMessage => if b = DLE then .inmsgDle else if full then .overflow b else .inmsgData b
      | .inMessageEscape =>
        if b = DLE then (if full then .overflow b else .escDle) else if b = ETX then .escEtx else .escOther b) ∧
  (∀ d, decodeEvt 0 d = .evtNone ∧ decodeEvt 1 d = .evtByte d ∧ decodeEvt 2 d = .evtTimeout ∧ decodeEvt 3 d = .evtError) ∧
  (∀ (w : BitVec 10), (extSelect w extTable).isSome) ∧
  (∀ (s : State) (b : Byte), exec (.evtByte b) s = exec (decodeExt s.full (extWord s.fx.st b)) s) ∧
  (∀ (s : State) (b : Byte), s.failed = false → s.call = none →
    ∃ q l, exec (.evtByte b) s = .next { s with fx := q, label := l } ∧ (q, l) = s.fx.byte s.cfg.frameMax b) ∧
  ∀ s : State, exec .evtNone s = .next s

/-- R111, R112, R226, R229: TIMEOUT and ERROR write no FX register, in any state; a call in progress returns TimedOut or
TransportError. After ERROR every event is refused until reset (U4); `failed` is the model's own record of it (log entry
6). -/
def Obligations.TimeoutAndErrorWriteNoRegister : Prop :=
  (∀ s : State, s.failed = false →
    (s.call = none →
      exec .evtTimeout s = .next { s with label := .timedOut } ∧
      exec .evtError s = .next { s with label := .transportError, failed := true }) ∧
    ∀ c, s.call = some c →
      exec .evtTimeout s = .next { s with label := .timedOut, result := some .timedOut, call := none } ∧
      exec .evtError s =
        .next { s with label := .transportError, failed := true, result := some .transportError, call := none }) ∧
  ∀ s : State, s.failed = true →
    (∀ i, isEventRow i = true → i ≠ .evtNone → exec i s = .refused .eventAfterTransportError) ∧
    ∀ n dir, s.call = none → exec (.nextFrame n) s = .refused .eventAfterTransportError ∧
      exec (.nextMessage n dir) s = .refused .eventAfterTransportError

/-- R22, R46, R47, R55: an event row stores at most one byte, at index `len`; every other byte of the buffer reads as
before, and a row that does not lengthen the contents leaves every byte. Append puts its byte after the contents and keeps
the canonical form; clear leaves no contents. -/
def Obligations.EventRowsStoreOnlyAtLen : Prop :=
  (∀ (i : Instr) (s t : State), isEventRow i = true → exec i s = .next t →
    (∀ a, a ≠ s.fx.len → Memory.read t.fx.buf a = Memory.read s.fx.buf a) ∧
    (t.fx.len ≠ s.fx.len + 1 → ∀ a, Memory.read t.fx.buf a = Memory.read s.fx.buf a)) ∧
  ∀ (q : Fx) (b : Byte), q.buf.wf = true →
    (q.append b).contents = q.contents ++ [b] ∧ (q.append b).buf.wf = true ∧
    Memory.read (q.append b).buf q.len = b ∧ q.clear.contents = []

/-- R20, R24, R31, R144, R240: an event row writes FX state, the label and the failed record, and at most the result and
the call: no register of MD, no output of FE, no input queue and no parameter. What is not an event and not a call that
reads the transport leaves FX, the connection, the label, the inputs and the configuration as they were; that deframe is
one of these is the model's reading of R114, an instance of its own (DEDUCED, log entry 27). -/
def Obligations.UnitsLeaveEachOthersStateAlone : Prop :=
  (∀ (i : Instr) (s t : State), isEventRow i = true → exec i s = .next t →
    t.ret = s.ret ∧ t.pay = s.pay ∧ t.cur = s.cur ∧ t.tab = s.tab ∧ t.pos = s.pos ∧ t.items = s.items ∧
    t.wire = s.wire ∧ t.reqs = s.reqs ∧ t.line = s.line ∧ t.cfg = s.cfg ∧
    (t.call = s.call ∨ t.call = none) ∧ (s.call = none → t.result = s.result)) ∧
  ∀ (i : Instr) (s t : State), stepsFx i = false → exec i s = .next t →
    t.fx = s.fx ∧ t.failed = s.failed ∧ t.call = s.call ∧ t.label = s.label ∧ t.reqs = s.reqs ∧ t.line = s.line ∧
    t.cfg = s.cfg

/-- R63, R260: no step writes the configuration. -/
def Obligations.ConfigurationNeverWritten : Prop :=
  ∀ s t : State, step s = .next t → t.cfg = s.cfg

/-- R277: the step on a byte is taken in every state of FX, on a live connection with no call in progress, and from
FIRST_DELIMITER and from IN_MESSAGE_ESCAPE it leaves both states. -/
def Obligations.DelimiterStatesLastOneByte : Prop :=
  (∀ (s : State) (b : Byte), s.failed = false → s.call = none →
    ∃ t, exec (.evtByte b) s = .next t ∧
      (s.fx.st = .firstDelimiter → t.fx.st = .stopped ∨ t.fx.st = .inMessage) ∧
      (s.fx.st = .inMessageEscape → t.fx.st = .stopped ∨ t.fx.st = .inMessage)) ∧
  ∀ (max : Option Nat) (q : Fx) (b : Byte),
    (q.st = .firstDelimiter → (q.byte max b).1.st ≠ .firstDelimiter ∧ (q.byte max b).1.st ≠ .inMessageEscape) ∧
    (q.st = .inMessageEscape → (q.byte max b).1.st = .stopped ∨ (q.byte max b).1.st = .inMessage)

/-! ## Reset -/

/-- R40, R260, R261: what reset leaves, and what the reset pin does: `st` and `len`, a partial message discarded without a
label, the connection's failure and its call ended; MD, FE, the configuration and the transport untouched. The values of the
registers R40 gives none are the model's choice (log entries 1, 5, 9, 10) and are not stated here. -/
def Obligations.ResetIsANewInstance : Prop :=
  (State.reset.fx.st = .stopped ∧ State.reset.fx.len = 0 ∧ State.reset.fx.contents = [] ∧ State.reset.result = none) ∧
  ∀ (s : State) (rest : List Input), s.reqs = .rst :: rest →
    step s = .next { s with reqs := rest, fx := { s.fx with st := .stopped, len := 0 }, failed := false, call := none,
                            label := .none, result := none }

/-! ## Runs of the extractor -/

/-- R114, R115: a run over a concatenation is the run of the second part from where the first ended, the labels
concatenated. -/
def Obligations.RunIsAFoldOverTheBytes : Prop :=
  ∀ (max : Option Nat) (q : Fx) (s t : List Byte),
    (q.run max (s ++ t)).1 = ((q.run max s).1.run max t).1 ∧
    (q.run max (s ++ t)).2 = (q.run max s).2 ++ ((q.run max s).1.run max t).2 ∧
    (q.run max s).2.length = s.length

/-- R38, R55, R111, R115: what the transport answers, with TIMEOUT answers anywhere among the bytes, is consumed one answer
a step, FX ends where the run over the bytes alone ends, and with no call in progress no result arrives. That a read of no
bytes is no event is R113's; that answers are stepped also while no call reads is the model's choice (log entry 28). -/
def Obligations.StepsFollowTheBytesWhateverTheTimeouts : Prop :=
  ∀ (s : State) (as rest : List Answer), s.reqs = [] → s.call = none → s.failed = false → s.line = as ++ rest →
    .error ∉ as →
    ∃ t, Host.Core.run Sys2Proof.core as.length s = .next t ∧ t.fx = (s.fx.run s.cfg.frameMax (bytesOf as)).1 ∧
      t.line = rest ∧ t.failed = false ∧ t.call = none ∧ (as = [] → t = s) ∧ (as ≠ [] → t.result = none) ∧ t.cfg = s.cfg

/-- R117: from (STOPPED, []), a wire frame emits exactly one frame, its content, on the last byte, and FX is back in
(STOPPED, []); for every content, the empty one and any number of DLE bytes included. -/
def Obligations.RoundTripFromStopped : Prop :=
  ∀ (max : Option Nat) (content : List Byte) (q : Fx), (∀ n, max = some n → content.length ≤ n) →
    q.st = .stopped → q.len = 0 → q.buf.wf = true →
    (q.run max (frameOf content)).2 = List.replicate ((frameOf content).length - 1) .none ++ [.frame content] ∧
    (q.run max (frameOf content)).1.st = .stopped ∧ (q.run max (frameOf content)).1.contents = []

/-- R89, R114, R128: deframe on any bytes returns the frames of the run from reset, and it is a left inverse of frame. That
deframe runs an instance of its own is the model's reading (log entry 27). -/
def Obligations.DeframeCollectsFrames : Prop :=
  (∀ (s : State) (bs : List Byte),
    exec (.deframe bs) s =
      .next { s with result := some (.frames ((Fx.reset.run s.cfg.frameMax bs).2.filterMap fun l =>
        match l with
        | .frame f => some f
        | _ => none)) }) ∧
  ∀ (s : State) (content : List Byte), (∀ n, s.cfg.frameMax = some n → content.length ≤ n) →
    exec (.deframe (frameOf content)) s = .next { s with result := some (.frames [content]) }

/-- R118: after noise that ends in STOPPED the frame is delivered and nothing else; after noise that ends in
FIRST_DELIMITER or IN_MESSAGE nothing is emitted for it; after noise that ends in IN_MESSAGE_ESCAPE the one frame
`old ++ [10 02] ++ P` is. Noise without a DLE leaves FX in STOPPED, with no label and the buffer untouched. -/
def Obligations.ResynchronisationAsFarAsItIsTrue : Prop :=
  (∀ (max : Option Nat) (q : Fx) (noise : List Byte), q.st = .stopped → DLE ∉ noise →
    q.run max noise = (q, List.replicate noise.length .none)) ∧
  ∀ (max : Option Nat) (noise content : List Byte),
    let q := (Fx.reset.run max noise).1
    (q.st = .stopped → (∀ n, max = some n → content.length ≤ n) →
      deframe max (noise ++ frameOf content) = deframe max noise ++ [content]) ∧
    (q.st = .firstDelimiter ∨ q.st = .inMessage →
      deframe max (noise ++ frameOf content) = deframe max noise) ∧
    (q.st = .inMessageEscape → (∀ n, max = some n → q.len + 2 + content.length ≤ n) →
      deframe max (noise ++ frameOf content) = deframe max noise ++ [q.contents ++ [0x10, 0x02] ++ content])

/-- R119 a: a run of `k` DLE bytes before STX starts a message only when `k` is odd. -/
def Obligations.OnlyOddDleRunsOpenAMessage : Prop :=
  ∀ (max : Option Nat) (q : Fx) (k : Nat), q.st = .stopped →
    (q.run max (List.replicate k DLE ++ [STX])).1.st = (if k % 2 = 1 then .inMessage else .stopped)

/-- R110, R127: a message with more than FRAME_MAX content bytes emits nothing at all and leaves FX in STOPPED. Rests on
the spec's decisions D4 and D5. -/
def Obligations.OversizedMessageEmitsNothing : Prop :=
  ∀ (n : Nat) (content : List Byte) (q : Fx), n < content.length → q.st = .stopped → q.len = 0 →
    framesOf (q.run (some n) (frameOf content)).2 = [] ∧ (q.run (some n) (frameOf content)).1.st = .stopped ∧
    (q.run (some n) (frameOf content)).1.len = 0

/-- R22, U11: buffer bytes at index `len` and above are never observed: two states that differ only there take the same
step to states that differ only there, or are both refused for the same reason. -/
def Obligations.StaleBufferBytesAreNeverObserved : Prop :=
  ∀ s t : State, s.sameVisible t → s.fx.buf.wf = true → t.fx.buf.wf = true → Out.sameVisible (step s) (step t)

/-! ## The composite calls -/

/-- R113: nextFrame reads until a frame, a timeout or an error; framing errors and overflows do not end it; it consumes no
answer after the one that ends it; a call already in progress is refused (U6). That an error leaves FX as it was is R112 by
the spec's decision D7, and `failed` is the model's own record of it (log entry 6); that a call whose answers run out stays
in progress is log entry 28. -/
def Obligations.NextFrameReturnsFirstOutcome : Prop :=
  ∀ (s : State) (n : Nat) (before rest : List Answer), s.call = none → s.failed = false →
    (∀ a ∈ before, a ≠ .timeout ∧ a ≠ .error) → framesOf (s.fx.run s.cfg.frameMax (bytesOf before)).2 = [] →
    let q := (s.fx.run s.cfg.frameMax (bytesOf before)).1
    (∀ b f, s.line = before ++ .byte b :: rest → (q.byte s.cfg.frameMax b).2 = .frame f →
      exec (.nextFrame n) s =
        .next { s with fx := (q.byte s.cfg.frameMax b).1, line := rest, label := .frame f, result := some (.frame f) }) ∧
    (s.line = before ++ .timeout :: rest →
      exec (.nextFrame n) s =
        .next { s with fx := q, line := rest, label := .timedOut, result := some .timedOut }) ∧
    (s.line = before ++ .error :: rest →
      exec (.nextFrame n) s =
        .next { s with fx := q, line := rest, label := .transportError, result := some .transportError, failed := true }) ∧
    (s.line = before →
      ∃ l, exec (.nextFrame n) s = .next { s with fx := q, line := [], label := l, call := some (.nextFrame n) }) ∧
    ∀ c, exec (.nextFrame n) { s with call := some c } = .refused .callInProgress

/-- R113, R116, R117, R145: from (STOPPED, []) a call of nextFrame on a wire frame returns its content, a call of
nextMessage the decode of it; either leaves the rest of the line unread and the instance ready for the next call. On every
content but one of a type mapped outside the spec, nextMessage returns a result, whatever the direction. -/
def Obligations.CallsReceiveAWireMessage : Prop :=
  ∀ (s : State) (n : Nat) (content : List Byte) (rest : List Answer), s.call = none → s.failed = false →
    s.fx.st = .stopped → s.fx.len = 0 → s.fx.buf.wf = true → (∀ m, s.cfg.frameMax = some m → content.length ≤ m) →
    s.line = (frameOf content).map .byte ++ rest →
    ∃ q : Fx, q.st = .stopped ∧ q.len = 0 ∧ q.buf.wf = true ∧
      exec (.nextFrame n) s =
        .next { s with fx := q, line := rest, label := .frame content, result := some (.frame content) } ∧
      (∀ (dir : Dir) (r : Result), exec (.decode content dir) s = .next { s with result := some r } →
        exec (.nextMessage n dir) s =
          .next { s with fx := q, line := rest, label := .frame content, result := some r }) ∧
      ∀ dir : Dir, selectHdr s.cfg content dir ≠ .otherMapped →
        ∃ r, exec (.decode content dir) s = .next { s with result := some r } ∧
          exec (.nextMessage n dir) s =
            .next { s with fx := q, line := rest, label := .frame content, result := some r }

/-- R145: nextMessage is nextFrame and then decode of the frame, and adds no behaviour. -/
def Obligations.NextMessageIsNextFrameThenDecode : Prop :=
  ∀ (s t : State) (n : Nat) (dir : Dir), exec (.nextFrame n) s = .next t →
    (t.call ≠ none → exec (.nextMessage n dir) s = .next { t with call := some (.nextMessage n dir) }) ∧
    (t.call = none →
      (∀ f, t.result = some (.frame f) → exec (.nextMessage n dir) s = exec (.decode f dir) t) ∧
      ((∀ f, t.result ≠ some (.frame f)) → exec (.nextMessage n dir) s = .next t))

/-! ## The frame encoder -/

/-- R71, R125, R126: what each FE operation sends; FE changes nothing but what it has sent. -/
def Obligations.EncoderSendsEscapedFrame : Prop :=
  ∀ s : State,
    exec .wireStart s = .next { s with wire := s.wire ++ [0x10, 0x02] } ∧
    exec .wireEnd s = .next { s with wire := s.wire ++ [0x10, 0x03] } ∧
    exec .encDle s = .next { s with wire := s.wire ++ [0x10, 0x10] } ∧
    (∀ b, b ≠ 0x10 → exec (.encOther b) s = .next { s with wire := s.wire ++ [b] }) ∧
    ∀ content, exec (.frame content) s =
      .next { s with wire := s.wire ++ ([0x10, 0x02] ++
        content.flatMap (fun p => if p = 0x10 then [0x10, 0x10] else [p]) ++ [0x10, 0x03]) }

/-- R125, R126: FRAME is the start delimiter, the ENC row of every content byte in order, and the end delimiter. -/
def Obligations.FrameIsItsRowsInOrder : Prop :=
  ∀ (s : State) (content : List Byte),
    exec (.frame content) s = runRows (.wireStart :: (content.map encRow ++ [.wireEnd])) s

/-- R127: the length of a wire frame and its bounds. -/
def Obligations.WireFrameLength : Prop :=
  ∀ content : List Byte,
    (frameOf content).length = content.length + 4 + content.count 0x10 ∧
    content.length + 4 ≤ (frameOf content).length ∧ (frameOf content).length ≤ 2 * content.length + 4

/-! ## The message decoder -/

/-- R27, R75, R138: the four header fields as numbers; parsing never looks past byte 5. -/
def Obligations.HeaderFieldsFromTheirBytes : Prop :=
  ∀ (b0 b1 b2 b3 b4 b5 : Byte) (p : List Byte),
    let h := parseHeader (b0 :: b1 :: b2 :: b3 :: b4 :: b5 :: p)
    h.nodeId.toNat = (b0.toNat % 16) * 65536 + b2.toNat * 256 + b3.toNat ∧ h.priceCode = b1 ∧ h.sequence = b4 ∧
    h.msgType = b5

/-- R139, U12: two frames that differ only in bits 7, 5 and 4 of byte 0 decode alike, in both directions and under every
configuration. -/
def Obligations.UnreadHeaderBitsDoNotMatter : Prop :=
  ∀ (s : State) (dir : Dir) (b b' : Byte) (rest : List Byte), b &&& 0x4F = b' &&& 0x4F →
    exec (.decode (b :: rest) dir) s = exec (.decode (b' :: rest) dir) s

/-- R135, R238: decode is the HDR row its frame selects, tried in R135's order; it changes the result alone, and completes
on every frame whose type is not mapped to a decoder outside the spec. -/
def Obligations.DecodeRunsTheRowSelected : Prop :=
  ∀ (s : State) (f : List Byte) (dir : Dir),
    exec (.decode f dir) s = exec ((selectHdr s.cfg f dir).instr f dir) s ∧
    (f.length < 6 → selectHdr s.cfg f dir = .short) ∧
    (6 ≤ f.length → f.getD 0 0 &&& 0x40 = 0 → selectHdr s.cfg f dir = .error) ∧
    (6 ≤ f.length → f.getD 0 0 &&& 0x40 ≠ 0 → s.cfg.lookup dir (f.getD 5 0) = .unmapped →
      (selectHdr s.cfg f dir).instr f dir =
        if f.getD 5 0 = 255 then .unmapped255 f dir else .unknownType f dir) ∧
    (selectHdr s.cfg f dir ≠ .otherMapped → ∃ r, exec (.decode f dir) s = .next { s with result := some r })

/-- R136, R137 and entry U5: a frame of fewer than six bytes is MalformedPayload; a whole header with bit 6 of byte 0 clear
is HeaderError whatever its msgType. Where the configuration tests the marker first, one to five bytes with the marker
clear are HeaderError, the other reading R136 leaves open (log entry 14). -/
def Obligations.HeaderFailuresByLengthThenMarker : Prop :=
  (∀ (s : State) (f : List Byte) (dir : Dir), f.length < 6 →
    (s.cfg.shortMarkerFirst = false ∨ f = [] ∨ f.getD 0 0 &&& 0x40 ≠ 0 →
      exec (.hdrShort f dir) s = .next { s with result := some .malformedPayload }) ∧
    (s.cfg.shortMarkerFirst = true → f ≠ [] → f.getD 0 0 &&& 0x40 = 0 →
      exec (.hdrShort f dir) s = .next { s with result := some .headerError })) ∧
  ∀ (s : State) (f : List Byte) (dir : Dir), 6 ≤ f.length → f.getD 0 0 &&& 0x40 = 0 →
    exec (.hdrError f dir) s = .next { s with result := some .headerError }

/-- R207: Health, wherever a dispatch table names it (64 up by R146): from 15 payload bytes its record, below 15
MalformedPayload. Fifteen bytes, the two-byte FW and raw values are the spec's decisions D16 and D17 (log entry 15); the
offsets, the widths and the signed byte are those of the layout characters, which the spec takes from general knowledge
(PRESUMED, log entry 26). -/
def Obligations.HealthRecordFromItsBytes : Prop :=
  ∀ (s : State) (f : List Byte) (dir : Dir), 6 ≤ f.length → f.getD 0 0 &&& 0x40 ≠ 0 →
    s.cfg.lookup dir (f.getD 5 0) = .health →
    let p := f.drop 6
    (15 ≤ p.length →
      exec (.health f dir) s = .next { s with result := some (.ok (parseHeader f)
        (.cons "Time" (.int (be (p.take 4)))
        (.cons "Uptime" (.int (be ((p.drop 4).take 4)))
        (.cons "Battery" (.int (be ((p.drop 8).take 2)))
        (.cons "Temperature" (.int (p.getD 10 0).toInt)
        (.cons "SN" (.int (be ((p.drop 11).take 2)))
        (.cons "FW" (.list (valuesOf [.int (p.getD 13 0).toNat, .int (p.getD 14 0).toNat])) .nil))))))) }) ∧
    (p.length < 15 → exec (.health f dir) s = .next { s with result := some .malformedPayload })

/-- R208: SP Config, wherever a dispatch table names it (130 in the table of SPCFG_DIR by R146): two bytes big-endian, the
rest ignored, fewer than two MalformedPayload. The reading is the spec's decision D18 (log entry 16). -/
def Obligations.SamplingPeriodFromTwoBytes : Prop :=
  ∀ (s : State) (f : List Byte) (dir : Dir), 6 ≤ f.length → f.getD 0 0 &&& 0x40 ≠ 0 →
    s.cfg.lookup dir (f.getD 5 0) = .spConfig →
    let p := f.drop 6
    (2 ≤ p.length →
      exec (.spConfig f dir) s = .next { s with result := some (.ok (parseHeader f)
        (.cons "SamplingPeriod" (.int ((p.getD 0 0).toNat * 256 + (p.getD 1 0).toNat : Nat)) .nil)) }) ∧
    (p.length < 2 → exec (.spConfig f dir) s = .next { s with result := some .malformedPayload })

/-- R209: the vibrating-wire family, wherever a dispatch table names it: six lengths stand for 0 to 5 channels, any other
is MalformedPayload. The fields but
the count are the spec's decision D19 (log entry 17). -/
def Obligations.VibratingWireLengthsAndChannels : Prop :=
  ∀ (s : State) (f : List Byte) (dir : Dir), 6 ≤ f.length → f.getD 0 0 &&& 0x40 ≠ 0 →
    s.cfg.lookup dir (f.getD 5 0) = .vw →
    let p := f.drop 6
    (∀ n, n ≤ 5 → p.length = 6 + 8 * n →
      exec (.vw f dir) s = .next { s with result := some (.ok (parseHeader f)
        (.cons "Time" (.int (be (p.take 4)))
        (.cons "Pressure" (.int (be ((p.drop 4).take 2)))
        (.cons "ChannelCount" (.int n)
        (.cons "Channels" (.list (valuesOf ((List.range n).map fun j =>
          .list (valuesOf (((p.drop (6 + 8 * j)).take 8).map fun b => .int b.toNat))))) .nil))))) }) ∧
    ((∀ n, n ≤ 5 → p.length ≠ 6 + 8 * n) →
      exec (.vw f dir) s = .next { s with result := some .malformedPayload })

/-- R142, R146: an unmapped type is UnknownType with the header, its payload not looked at; 255 is unmapped in both
tables, 64 is Health in the up table, 130 is SP Config in the table of SPCFG_DIR, and VW is in the up table at VW_MSGTYPE,
where that is none of the others. -/
def Obligations.UnmappedTypeIsUnknownType : Prop :=
  (∀ (c : Config) (dir : Dir), c.lookup dir 255 = .unmapped ∧ c.lookup .up 64 = .health ∧
    c.lookup c.spcfgDir 130 = .spConfig ∧
    (c.vwMsgType ≠ 64 → c.vwMsgType ≠ 130 → c.vwMsgType ≠ 255 → c.lookup .up c.vwMsgType = .vw)) ∧
  ∀ (s : State) (f : List Byte) (dir : Dir), 6 ≤ f.length → f.getD 0 0 &&& 0x40 ≠ 0 →
    (f.getD 5 0 = 255 →
      exec (.unmapped255 f dir) s = .next { s with result := some (.unknownType (parseHeader f)) }) ∧
    (f.getD 5 0 ≠ 255 → s.cfg.lookup dir (f.getD 5 0) = .unmapped →
      exec (.unknownType f dir) s = .next { s with result := some (.unknownType (parseHeader f)) })

/-- R210, R205, R29: a type mapped to a decoder the model lacks is refused, never UnknownType; a decoder the configuration
supplies runs on the payload, from the bit it names (R29) with an empty side table, and its failure is MalformedPayload; one that R80, R189
or R205 refuses is refused on every payload (U14). That the configuration may supply one is the model's choice (log entry
19). -/
def Obligations.OtherMappedTypesRunOrAreRefused : Prop :=
  ∀ (s : State) (f : List Byte) (dir : Dir), 6 ≤ f.length → f.getD 0 0 &&& 0x40 ≠ 0 →
    (s.cfg.lookup dir (f.getD 5 0) = .lacking → exec (.otherMapped f dir) s = .refused .decoderLacking) ∧
    ∀ start d, s.cfg.lookup dir (f.getD 5 0) = .program start d →
      (d.wfPayload s.cfg start = false → exec (.otherMapped f dir) s = .refused .decoderIllFormed) ∧
      (∀ r cur, d.wfPayload s.cfg start = true → runParser s.cfg (f.drop 6) .nil 0 start d = .ok (.record r, cur) →
        exec (.otherMapped f dir) s = .next { s with result := some (.ok (parseHeader f) r) }) ∧
      (d.wfPayload s.cfg start = true → runParser s.cfg (f.drop 6) .nil 0 start d = .malformed →
        exec (.otherMapped f dir) s = .next { s with result := some .malformedPayload })

/-! ## The bit-field unpacker -/

/-- R158, R53: EXTRACT is the sum of its bits, MSB first, for widths 1 to 32; a field that ends with the payload is
allowed, one that ends past it is MalformedPayload. -/
def Obligations.ExtractIsTheSumOfItsBits : Prop :=
  ∀ (s : State) (p : List Byte) (off n : Nat),
    (1 ≤ n → n ≤ 32 → off + n ≤ 8 * p.length →
      exec (.extract p off n) s = .next { s with pay := p, ret := some (.value (.int
        ((∑ i ∈ Finset.range n, (if (p.getD ((off + i) / 8) 0).getLsbD (7 - (off + i) % 8) then 1 else 0)
          * 2 ^ (n - 1 - i) : Nat)))) }) ∧
    (1 ≤ n → n ≤ 32 → 8 * p.length < off + n → exec (.extract p off n) s = .next s.raiseMalformed)

/-- R49, R51, R159: the byte-granular form agrees with the bit-serial one for every width 1 to 32 and every valid offset;
a byte-aligned EXTRACT of one to four bytes is the big-endian read of those bytes. -/
def Obligations.ByteGranularExtractAgrees : Prop :=
  (∀ (p : List Byte) (off n : Nat), 1 ≤ n → n ≤ 32 → off + n ≤ 8 * p.length →
    extract p off n = .ok (extractBytes p off n)) ∧
  ∀ (p : List Byte) (a k : Nat), 1 ≤ k → k ≤ 4 → extract p (8 * a) (8 * k) = memRead p a k

/-- R160: extracting a field written by the reference bit-packer returns the original value; the packer keeps the length
and every bit outside the field. -/
def Obligations.ExtractOfPackedFieldIsValue : Prop :=
  ∀ (p : List Byte) (off n v : Nat), 1 ≤ n → n ≤ 32 → off + n ≤ 8 * p.length → v < 2 ^ n →
    extract (packField p off n v) off n = .ok v ∧ (packField p off n v).length = p.length ∧
    ∀ k, k < off ∨ off + n ≤ k → bitAt (packField p off n v) k = bitAt p k

/-- R161: the two's-complement reading, for every width from 1: `v` below half the range, `v - 2^w` from there on; it is
the source's formula, the magnitude `(v XOR (2^w - 1)) + 1` negated. -/
def Obligations.SignExtensionIsTwosComplement : Prop :=
  ∀ (s : State) (v w : Nat),
    (1 ≤ w → v < 2 ^ (w - 1) → exec (.sext v w) s = .next { s with ret := some (.value (.int v)) }) ∧
    (1 ≤ w → 2 ^ (w - 1) ≤ v → v < 2 ^ w →
      exec (.sext v w) s = .next { s with ret := some (.value (.int ((v : Int) - 2 ^ w))) } ∧
        (v : Int) - 2 ^ w = -(((v ^^^ (2 ^ w - 1)) + 1 : Nat) : Int))

/-- R82, R162, R163, R164: all-ones for an unsigned field, the sign bit alone for a signed one, and no other raw value. A
sentinel-bearing field with the pattern is ABSENT, tested on the raw pattern before anything else, whether it is plain,
enumerated, scaled by any number of places or by a unit code; any other raw value is sign extended and then scaled or named
(R190: by the first row of its key, Unrecognized where there is none), as it is in a field that bears no sentinel. Fields are read through a group of one item. -/
def Obligations.SentinelPatternsReadAbsent : Prop :=
  (∀ (s : State) (v n : Nat), 1 ≤ n → v < 2 ^ n →
    exec (.sentU v n) s = .next { s with ret := some (.flag (decide (v + 1 = 2 ^ n))) } ∧
    exec (.sentS v n) s = .next { s with ret := some (.flag (decide (2 * v = 2 ^ n))) }) ∧
  ∀ (s : State) (p : List Byte) (off n : Nat) (conv : Conversion) (signed sentinel : Bool), 1 ≤ n → n ≤ 32 →
    off + n ≤ 8 * p.length →
    let raw := bitSum p off n
    let x : Int := if signed ∧ 2 ^ n ≤ 2 * raw then (raw : Int) - 2 ^ n else raw
    let v : Value := match conv with
      | .plain => .int x
      | .named e => match e.find? (fun r => r.1 = x) with | some r => .str r.2 | none => .unrecognized x
      | .scaled (.places k) => if k = 0 then .int x else .rat (mkRat x (10 ^ k))
      | .scaled (.byUnit code) => pairValue (unitScaled s.cfg x (namedInt s.tab code))
    let pattern := if signed then 2 * raw = 2 ^ n else raw + 1 = 2 ^ n
    exec (.groups p off 1 (.field ⟨n, signed, sentinel, conv⟩)) s =
      .next { s with pay := p, cur := off + n,
                     ret := some (.values (valuesOf [if sentinel ∧ pattern then .absent else v])) }

/-- R165, R166, R167: SCALE is the exact quotient by a power of ten, and the integer itself for no decimal places. UNITSCALE
takes places and name from the row of UNIT_TABLE, first match; a code without a row is tagged Unrecognized, never raises,
and the reading takes the configuration's fallback places (D24). -/
def Obligations.ScalingIsExact : Prop :=
  (∀ (s : State) (x : Int) (k : Nat),
    (k = 0 → exec (.scale x k) s = .next { s with ret := some (.value (.int x)) }) ∧
    (1 ≤ k → ∃ q : Rat, exec (.scale x k) s = .next { s with ret := some (.value (.rat q)) } ∧ q * 10 ^ k = x)) ∧
  ∀ (s : State) (x code : Int),
    (∀ before name k after, s.cfg.unitTable = before ++ (code, name, k) :: after → (∀ r ∈ before, r.1 ≠ code) →
      exec (.unitscale x code) s =
        .next { s with ret := some (.value (.list (valuesOf [scaled x k, .str name]))) }) ∧
    ((∀ r ∈ s.cfg.unitTable, r.1 ≠ code) →
      exec (.unitscale x code) s =
        .next { s with ret := some (.value (.list (valuesOf [scaled x s.cfg.unitFallback, .unrecognized code]))) })

/-- R155: every item of a layout of integer items is read at its running offset, big-endian, signed items sign extended;
only the prefix is read; a shorter payload is MalformedPayload. Inside a decoder, at a cursor on a byte boundary, it gives
what UNPACK_FIXED gives of the payload from that byte on, and moves the cursor past it (R172). -/
def Obligations.UnpackFixedReadsEveryItem : Prop :=
  ∀ (s : State) (p : List Byte) (l : List Item),
    (.f4 ∉ l → layoutSize l ≤ p.length →
      ∃ vs, exec (.unpackFixed p l) s =
          .next { s with pay := p, pos := layoutSize l, items := vs, ret := some (.items vs) } ∧
        vs.length = l.length ∧
        ∀ k i, l[k]? = some i →
          let raw := be ((p.drop (layoutSize (l.take k))).take (itemSize i))
          vs[k]? = some (if i = .s1 ∨ i = .s2 ∨ i = .s4 then signExtend raw (8 * itemSize i) else (raw : Int))) ∧
    (.f4 ∉ l → p.length < layoutSize l → exec (.unpackFixed p l) s = .next s.raiseMalformed) ∧
    ∀ (c : Config) (t : Fields) (j a : Nat), .f4 ∉ l →
      (a + layoutSize l ≤ p.length → ∃ vs, unpackFixed (p.drop a) l = .ok vs ∧
        exec (.unpackFixed (p.drop a) l) s =
          .next { s with pay := p.drop a, pos := layoutSize l, items := vs, ret := some (.items vs) } ∧
        runParser c p t j (8 * a) (.unpack l) = .ok (.list (valuesOf (vs.map .int)), 8 * (a + layoutSize l))) ∧
      (l ≠ [] → p.length < a + layoutSize l → runParser c p t j (8 * a) (.unpack l) = .malformed)

/-- R79, R155: each layout character reads its item at the running byte index, big-endian, and moves the index past it;
past the end MalformedPayload; `!` consumes no byte. -/
def Obligations.LayoutCharactersReadTheirItems : Prop :=
  (∀ s : State, exec .layNetwork s = .next { s with pos := 0, items := [] }) ∧
  (∀ (s : State) (i : Instr) (n : Nat), (i, n) ∈ [(Instr.layU32, 4), (.layU16, 2), (.layU8, 1)] →
    (s.pos + n ≤ s.pay.length →
      exec i s = .next { s with pos := s.pos + n, items := s.items ++ [(be ((s.pay.drop s.pos).take n) : Int)],
                                ret := some (.value (.int (be ((s.pay.drop s.pos).take n)))) }) ∧
    (s.pay.length < s.pos + n → exec i s = .next s.raiseMalformed)) ∧
  ∀ s : State,
    (s.pos < s.pay.length →
      exec .layS8 s = .next { s with pos := s.pos + 1, items := s.items ++ [(s.pay.getD s.pos 0).toInt],
                                     ret := some (.value (.int (s.pay.getD s.pos 0).toInt)) }) ∧
    (s.pay.length ≤ s.pos → exec .layS8 s = .next s.raiseMalformed)

/-- R155, R79: UNPACK_FIXED on a payload long enough is the layout's characters, `!` first, run one at a time. -/
def Obligations.UnpackFixedIsItsCharactersInOrder : Prop :=
  ∀ (s t : State) (p : List Byte) (l : List Item) (rows : List Instr), l.mapM itemRow = some rows →
    layoutSize l ≤ p.length → exec (.unpackFixed p l) s = .next t →
    ∃ u, runRows (.layNetwork :: rows) { s with pay := p } = .next u ∧ u.items = t.items ∧ u.pos = t.pos

/-- R157: the continuation under the payload's length; any length the map lacks, longer or shorter, is
MalformedPayload. Inside a decoder the continuation is run at the cursor. -/
def Obligations.LengthSelectsContinuation : Prop :=
  ∀ (s : State) (p : List Byte) (e : Alts),
    (∀ d, altAt p.length e = some d → exec (.lensel p e) s = .next { s with pay := p, ret := some (.selected d) }) ∧
    (e.hasKey p.length = false → exec (.lensel p e) s = .next s.raiseMalformed) ∧
    (e.hasKey p.length = true → ∃ d, altAt p.length e = some d) ∧
    ∀ (c : Config) (t : Fields) (j cur : Nat),
      (∀ d, altAt p.length e = some d → runParser c p t j cur (.lensel e) = runParser c p t j cur d) ∧
      (e.hasKey p.length = false → runParser c p t j cur (.lensel e) = .malformed)

/-- R168: GROUPS, for every group decoder: no group leaves the cursor; one group more is read, with the next index, where
those before it ended, and its value comes last; a failure of any group is the failure of the whole. Of unsigned fields of
`n` bits, item `j` is at `cur + j * n`; the count is believed, and one larger than the payload holds is MalformedPayload.
Inside a decoder the count is a constant, the number decoded under a name, or a count field read first, and the groups are
those of GROUPS with that count, after the field. -/
def Obligations.GroupsReadAdjacentItems : Prop :=
  (∀ (s : State) (p : List Byte) (cur : Nat) (g : Parser),
    let returns (c : Nat) (vs : List Value) (cur' : Nat) : Prop :=
      exec (.groups p cur c g) s = .next { s with pay := p, cur := cur', ret := some (.values (valuesOf vs)) }
    returns 0 [] cur ∧
    (∀ c vs cur1, returns c vs cur1 →
      (∀ v cur2, runParser s.cfg p s.tab c cur1 g = .ok (v, cur2) → returns (c + 1) (vs ++ [v]) cur2) ∧
      (runParser s.cfg p s.tab c cur1 g = .malformed → exec (.groups p cur (c + 1) g) s = .next s.raiseMalformed)) ∧
    ∀ c, exec (.groups p cur c g) s = .next s.raiseMalformed →
      exec (.groups p cur (c + 1) g) s = .next s.raiseMalformed) ∧
  (∀ (s : State) (p : List Byte) (cur c n : Nat), 1 ≤ n → n ≤ 32 →
    let g := Parser.field ⟨n, false, false, .plain⟩
    (c = 0 ∨ cur + c * n ≤ 8 * p.length →
      exec (.groups p cur c g) s =
        .next { s with pay := p, cur := cur + c * n,
                       ret := some (.values (valuesOf ((List.range c).map fun j => .int (bitSum p (cur + j * n) n)))) }) ∧
    (1 ≤ c → 8 * p.length < cur + c * n → exec (.groups p cur c g) s = .next s.raiseMalformed)) ∧
  ∀ (s : State) (p : List Byte) (cur : Nat) (g : Parser),
    let inside (at' : Nat) (n : Count) := runParser s.cfg p s.tab 0 at' (.groups n g)
    (∀ c, (∀ vs cur', inside cur (.fixed c) = .ok (.list vs, cur') ↔
          exec (.groups p cur c g) s = .next { s with pay := p, cur := cur', ret := some (.values vs) }) ∧
        (inside cur (.fixed c) = .malformed ↔ exec (.groups p cur c g) s = .next s.raiseMalformed)) ∧
    (∀ name c, fieldGet name s.tab = some (.int (c : Nat)) → inside cur (.named name) = inside cur (.fixed c)) ∧
    ∀ w, 1 ≤ w → w ≤ 32 →
      (cur + w ≤ 8 * p.length → inside cur (.inline w) = inside (cur + w) (.fixed (bitSum p cur w))) ∧
      (8 * p.length < cur + w → inside cur (.inline w) = .malformed)

/-- R169, R170: the absolute index, and that the indices of the items of full messages are contiguous. Inside a decoder it
takes the frame number decoded before, less one where the family numbers from one, and the family's constant or a capacity
decoded before, never the count of the message. The formula is the spec's decision D25, and the item index, that of the
innermost group, the model's choice outside a group decoder (log entry 30). -/
def Obligations.AbsoluteIndexIsContiguous : Prop :=
  (∀ (s : State) (fn ipf k : Nat),
    exec (.absidx fn ipf k) s = .next { s with ret := some (.value (.int (fn * ipf + k : Nat))) }) ∧
  (∀ fn ipf, absIndex fn ipf ipf = absIndex (fn + 1) ipf 0) ∧
  ∀ (c : Config) (p : List Byte) (t : Fields) (j cur fn ipf : Nat) (name : String) (cap : Capacity),
    (match cap with
      | .family family => ∃ before after, c.itemsPerFrame = before ++ (family, ipf) :: after ∧ ∀ r ∈ before, r.1 ≠ family
      | .named n => fieldGet n t = some (.int ipf)) →
    (fieldGet name t = some (.int fn) →
      runParser c p t j cur (.absidx name .fromZero cap) = .ok (.int (fn * ipf + j : Nat), cur)) ∧
    (fieldGet name t = some (.int (fn + 1)) →
      runParser c p t j cur (.absidx name .fromOne cap) = .ok (.int (fn * ipf + j : Nat), cur))

/-- R185, R186: a sub-type byte and the decoder under it, its record merged under `subType`: every field of that record
reads its value in the merged one, and `subType` the byte, where the record has no field of that name (log entry 29). An
unmapped sub-type is tagged and reads nothing further (D26); a missing byte is MalformedPayload. -/
def Obligations.SubtypeByteSelectsDecoder : Prop :=
  ∀ (s : State) (p : List Byte) (cur : Nat) (alts : Alts),
    (8 * p.length < cur + 8 → exec (.subdispatch p cur alts) s = .next s.raiseMalformed) ∧
    (cur + 8 ≤ 8 * p.length → alts.hasKey (bitSum p cur 8) = false →
      exec (.subdispatch p cur alts) s =
        .next { s with pay := p, cur := cur + 8,
                       ret := some (.value (.record (.cons "subType" (.unrecognized (bitSum p cur 8)) .nil))) }) ∧
    ∀ d, cur + 8 ≤ 8 * p.length → altAt (bitSum p cur 8) alts = some d →
      (∀ r cur', runParser s.cfg p s.tab 0 (cur + 8) d = .ok (.record r, cur') →
        exec (.subdispatch p cur alts) s =
          .next { s with pay := p, cur := cur',
                         ret := some (.value (.record (fieldMerge (.cons "subType" (.int (bitSum p cur 8)) .nil) r))) }) ∧
      (runParser s.cfg p s.tab 0 (cur + 8) d = .malformed →
        exec (.subdispatch p cur alts) s = .next s.raiseMalformed) ∧
      ∀ (k : Nat) (r : Fields) (m : String),
        fieldGet m (fieldMerge (.cons "subType" (.int k) .nil) r) =
          (fieldGet m r).or (if m = "subType" then some (.int k) else none)

/-- R187: the second sub-structure starts where the first ended; a failure of either is the failure of the whole. -/
def Obligations.AggregateRunsBackToBack : Prop :=
  ∀ (s : State) (p : List Byte) (cur : Nat) (d1 d2 : Parser),
    (∀ v1 c1 v2 c2, runParser s.cfg p s.tab 0 cur d1 = .ok (v1, c1) → runParser s.cfg p s.tab 0 c1 d2 = .ok (v2, c2) →
      exec (.aggregate p cur d1 d2) s =
        .next { s with pay := p, cur := c2,
                       ret := some (.value (.record (.cons "first" v1 (.cons "second" v2 .nil)))) }) ∧
    (runParser s.cfg p s.tab 0 cur d1 = .malformed → exec (.aggregate p cur d1 d2) s = .next s.raiseMalformed) ∧
    ∀ v1 c1, runParser s.cfg p s.tab 0 cur d1 = .ok (v1, c1) → runParser s.cfg p s.tab 0 c1 d2 = .malformed →
      exec (.aggregate p cur d1 d2) s = .next s.raiseMalformed

/-- R188 to R192: one descriptor: a false condition skips it; with no condition or a true one it is run: a plain field is
read at the cursor, sign extended when signed, named when enumerated (by the first row of its key, Unrecognized where there is none); a sub-parser is run at the cursor, whatever the width,
sees the table, and moves the cursor; the value is stored under the name, every other name reads as before, and a read past the end is MalformedPayload. A
condition on an absent name, and a name already stored, are refused (U14). -/
def Obligations.DescriptorReadsItsField : Prop :=
  ∀ (s : State) (name : String) (n : Nat) (enum : Option Enum) (signed : Bool),
    (∀ k sub, evalCond s.tab k = some false →
      exec (.desc (.mk name n enum signed (some k) sub)) s = .next s) ∧
    (∀ k sub, evalCond s.tab k = none →
      exec (.desc (.mk name n enum signed (some k) sub)) s = .refused .conditionReadsAbsentName) ∧
    ∀ cond, (cond = none ∨ ∃ k, cond = some k ∧ evalCond s.tab k = some true) →
      (fieldGet name s.tab = none → 1 ≤ n → n ≤ 32 → s.cur + n ≤ 8 * s.pay.length →
        let raw := bitSum s.pay s.cur n
        let x : Int := if signed ∧ 2 ^ (n - 1) ≤ raw then (raw : Int) - 2 ^ n else raw
        let v : Value := match enum with
          | none => .int x
          | some e => match e.find? (fun r => r.1 = x) with | some r => .str r.2 | none => .unrecognized x
        exec (.desc (.mk name n enum signed cond .none)) s =
            .next { s with tab := fieldSet name v s.tab, cur := s.cur + n } ∧
          fieldGet name (fieldSet name v s.tab) = some v ∧
          ∀ m, m ≠ name → fieldGet m (fieldSet name v s.tab) = fieldGet m s.tab) ∧
      (fieldGet name s.tab = none → 1 ≤ n → n ≤ 32 → 8 * s.pay.length < s.cur + n →
        exec (.desc (.mk name n enum signed cond .none)) s = .next s.raiseMalformed) ∧
      (∀ d v cur', fieldGet name s.tab = none → runParser s.cfg s.pay s.tab 0 s.cur d = .ok (v, cur') →
        exec (.desc (.mk name n enum signed cond (.some d))) s =
          .next { s with tab := fieldSet name v s.tab, cur := cur' }) ∧
      (∀ d, fieldGet name s.tab = none → runParser s.cfg s.pay s.tab 0 s.cur d = .malformed →
        exec (.desc (.mk name n enum signed cond (.some d))) s = .next s.raiseMalformed) ∧
      ∀ sub, fieldGet name s.tab ≠ none →
        exec (.desc (.mk name n enum signed cond sub)) s = .refused .duplicateFieldName

/-- R188: SCHEMA_RUN is its descriptors run one at a time in declared order, from an empty side table and the start
cursor; the table and the cursor it ends with are theirs, and where a descriptor raises (its result shows it), the whole
raises. -/
def Obligations.SchemaRunIsItsDescriptorsInOrder : Prop :=
  ∀ (s : State) (p : List Byte) (cur : Nat) (ds : Schema),
    exec (.schemaRun p cur .nil) s =
      .next { s with pay := p, cur := cur, tab := .nil, ret := some (.value (.record .nil)) } ∧
    (∀ u, runDescRows ds { s with pay := p, cur := cur, tab := .nil, result := none } = .next u →
      (u.result = none →
        exec (.schemaRun p cur ds) s =
          .next { s with pay := p, cur := u.cur, tab := u.tab, ret := some (.value (.record u.tab)) }) ∧
      (u.result ≠ none → exec (.schemaRun p cur ds) s = .next s.raiseMalformed)) ∧
    (∀ q, exec (.schemaRun p cur ds) s = .refused q →
      runDescRows ds { s with pay := p, cur := cur, tab := .nil, result := none } = .refused q) ∧
    ∀ T c, runSchema s.cfg p .nil .nil 0 cur ds = .ok (T, c) →
      exec (.schemaRun p cur ds) s =
          .next { s with pay := p, cur := c, tab := T, ret := some (.value (.record T)) } ∧
        runDescRows ds { s with pay := p, cur := cur, tab := .nil } =
          .next { s with pay := p, cur := c, tab := T }

/-- R29, R172, R192, R53: no decoder moves the cursor back, and none that returns has read past the payload's end. -/
def Obligations.CursorNeverMovesBackOrPastTheEnd : Prop :=
  ∀ (c : Config) (p : List Byte) (t : Fields) (j cur cur' : Nat) (d : Parser) (v : Value),
    runParser c p t j cur d = .ok (v, cur') → cur ≤ cur' ∧ (cur' ≤ 8 * p.length ∨ cur' = cur)

/-- R81, R83, R189 and entries U9, U13, U14: what the spec gives no meaning to is refused by name: the unassigned uop codes, EXTRACT
of a width outside 1 to 32, SEXT outside its domain, a layout with a float item; and, before it runs, a schema (entry U14)
that repeats a name, that has a condition reading a name no earlier descriptor has, or one reading a name that an earlier
descriptor writes on some payloads only, also as the sub-parser of a lone descriptor; one that tests first what makes the name present is an instruction. The bounds are the spec's decisions D20, D21, D27 and D32 (log entries 21, 24
and 25). -/
def Obligations.OutsideTheDomainIsRefused : Prop :=
  ∀ s : State,
    exec .unassigned1101 s = .refused .unassignedUop ∧ exec .unassigned1110 s = .refused .unassignedUop ∧
    exec .unassigned1111 s = .refused .unassignedUop ∧
    (∀ p off n, n = 0 ∨ 32 < n → exec (.extract p off n) s = .refused .widthOutOfRange) ∧
    (∀ v w, w = 0 ∨ 2 ^ w ≤ v → exec (.sext v w) s = .refused .sextDomain) ∧
    (∀ p l, .f4 ∈ l → exec (.unpackFixed p l) s = .refused .floatItem) ∧
    ∀ p cur before after,
      (∀ d between d', d.name = d'.name →
        decode s.ctx (.uop 12 (.program p cur (schemaOf (before ++ d :: (between ++ d' :: after))))) = .error .illFormed) ∧
      (∀ name w e signed k sub n, n ∈ condNames k → (∀ d ∈ before, d.name ≠ n) →
        decode s.ctx (.uop 12 (.program p cur (schemaOf (before ++ .mk name w e signed (some k) sub :: after)))) =
          .error .illFormed) ∧
      ∀ a b n w v u,
        let first := [Desc.mk a w none false none .none, .mk b w none false (some (.equals a v)) .none]
        let bad := schemaOf (first ++ .mk n w none false (some (.equals b u)) .none :: after)
        decode s.ctx (.uop 12 (.program p cur bad)) = .error .illFormed ∧
        (∀ name k enum signed,
          decode s.ctx (.desc (.mk name k enum signed none (.some (.schema bad)))) = .error .illFormed) ∧
        (1 ≤ w → w ≤ 32 → a ≠ b → a ≠ n → b ≠ n →
          let ds := schemaOf (first ++ [.mk n w none false (some (.and (.equals a v) (.equals b u))) .none])
          decode s.ctx (.uop 12 (.program p cur ds)) = .ok (.schemaRun p cur ds))

/-! ## Decoding, stepping, invariants -/

/-- R70 to R81: words written out from the tables of spec/30_encoding.md decode to their instructions; the bare words are
told apart as log entry 12 says, and the characters of a layout string are those the spec takes from general knowledge
(PRESUMED, log entry 26). R35, R39, R140, R236: the codes on the spec's own ports (numbers by the decisions D3, D11 and D13):
of every result (the list deframe returns carries the code of Frame by log entry 27, no row of R39) and every label, which labels reach the caller and which results are errors, the two status outputs, the
direction, and the result strobe. -/
def Obligations.WordsAndPortCodesAreTheSpecs : Prop :=
  (decodeTableWord 16 0x341 = some (.escOther 0x41) ∧ decodeTableWord 16 0x1002 = some .wireStart ∧
    decodeTableWord 8 0x10 = some .encDle ∧ decodeTableWord 2 2 = some .evtTimeout ∧
    decodeTableWord 8 0x49 = some .layU32 ∧ decodeTableWord 4 3 = some (.sext 0 1) ∧
    decodeTableWord 48 0x404900000040 = some (.health [0x40, 0x49, 0, 0, 0, 0x40] .up) ∧
    parseLayout [0x21, 0x49, 0x49, 0x48, 0x62, 0x48, 0x42, 0x42] = some [.u4, .u4, .u2, .s1, .u2, .u1, .u1]) ∧
  (∀ r : Result, (resultCode r).toNat =
    match r with
    | .frame _ => 0 | .frames _ => 0 | .ok _ _ => 0 | .timedOut => 1 | .transportError => 2 | .headerError => 4
    | .malformedPayload => 5 | .unknownType _ => 6) ∧
  (∀ l : Label, (labelCode l).map BitVec.toNat =
    match l with
    | .none => none | .frame _ => some 0 | .timedOut => some 1 | .transportError => some 2 | .framingError => some 3
    | .overflow => some 7) ∧
  (∀ l : Label, labelReachesCaller l = true ↔ (∃ f, l = .frame f) ∨ l = .timedOut ∨ l = .transportError) ∧
  (∀ r : Result, resultIsError r = true ↔
    r = .timedOut ∨ r = .transportError ∨ r = .headerError ∨ r = .malformedPayload) ∧
  (∀ s : State, statusLen s = s.fx.len ∧
    (statusSt s).toNat =
      match s.fx.st with | .stopped => 0 | .firstDelimiter => 1 | .inMessage => 2 | .inMessageEscape => 3) ∧
  (Dir.up.code = 0 ∧ Dir.down.code = 1 ∧ Dir.ofCode 0 = .up ∧ Dir.ofCode 1 = .down) ∧
  ∀ s : State, (s.result = none → strobe s = none) ∧ ∀ r, s.result = some r → strobe s = some (resultCode r)

/-- R70 to R81: decode of encode is the instruction, for every well-formed instruction of every format that is the one
selected (R110 reads the buffer's length, R140 the tables). -/
def Obligations.DecodeOfEncodeIsTheInstruction : Prop :=
  ∀ (cx : Ctx) (i : Instr), i.wf cx = true → i.selectedIn cx = true → decode cx (encode i) = .ok i

/-- R70 to R84: what decodes is well formed and selected, and its encoding is the request it was decoded from, in_data of
an event that is not BYTE apart (R38: ignored). -/
def Obligations.DecodedRequestsAreTheirEncodings : Prop :=
  ∀ (cx : Ctx) (r : Req) (i : Instr), decode cx r = .ok i →
    i.wf cx = true ∧ i.selectedIn cx = true ∧
    ((∀ k d, r = .evt k d → k = 1 ∨ d = 0) → encode i = r)

/-- A step begins with no label and no result, so a result after it arrived on it (R236). A waiting request is taken,
consumed, decoded and run; with none waiting, one answer of the transport is: a byte by the EXT row its word selects in the
present state (R38, R55, R73). The order of the two queues is the model's choice (log entry 2), and so are the fields the
outputs stand in (log entry 9). -/
def Obligations.StepRunsTheDecodedInstruction : Prop :=
  (∀ (s : State) (i : Instr) (rest : List Input), i.wf s.ctx = true → i.selectedIn s.ctx = true →
    s.reqs = .op (encode i) :: rest → step s = exec i { s with label := .none, result := none, reqs := rest }) ∧
  ∀ (s : State) (rest : List Answer), s.reqs = [] →
    let q : State := { s with label := .none, result := none }
    (∀ b, s.line = .byte b :: rest →
      step s = exec (decodeExt s.full (extWord s.fx.st b)) { q with line := rest }) ∧
    (s.line = .timeout :: rest → step s = exec .evtTimeout { q with line := rest }) ∧
    (s.line = .error :: rest → step s = exec .evtError { q with line := rest }) ∧
    (s.line = .noData :: rest → step s = .next { q with line := rest }) ∧
    (s.line = [] → step s = .next q)

/-- R22, R23: the invariant holds after reset. -/
def Obligations.InvariantHoldsAtReset : Prop := State.reset.Inv = true

/-- R22, R23, R46: every step keeps the invariant: the buffer's canonical form, `len ≤ FRAME_MAX`, every stored byte below
FRAME_MAX, `len = 0` in STOPPED and FIRST_DELIMITER, and no call in progress on a failed connection (log entry 6). -/
def Obligations.EveryStepKeepsTheInvariant : Prop :=
  ∀ s t : State, s.Inv = true → step s = .next t → t.Inv = true
end

