-- ==== Sys2Proof/Laws/State.lean ====
section
/-! SUPPORT. One lemma per field per named update of the state, true by rfl. -/

namespace Sys2Proof.Machine

variable (q : Fx) (s : State) (b : Byte) (st : FxState) (r : Result)

/-! ## Fx -/

@[simp] theorem Fx.append_st : (q.append b).st = q.st := rfl
@[simp] theorem Fx.append_len : (q.append b).len = q.len + 1 := rfl
@[simp] theorem Fx.append_buf : (q.append b).buf = Memory.write q.buf q.len b := rfl
@[simp] theorem Fx.clear_st : q.clear.st = q.st := rfl
@[simp] theorem Fx.clear_len : q.clear.len = 0 := rfl
@[simp] theorem Fx.clear_buf : q.clear.buf = q.buf := rfl
@[simp] theorem Fx.goto_st : (q.goto st).st = st := rfl
@[simp] theorem Fx.goto_len : (q.goto st).len = q.len := rfl
@[simp] theorem Fx.goto_buf : (q.goto st).buf = q.buf := rfl
@[simp] theorem Fx.reset_st : Fx.reset.st = .stopped := rfl
@[simp] theorem Fx.reset_len : Fx.reset.len = 0 := rfl
@[simp] theorem Fx.reset_buf : Fx.reset.buf = [] := rfl

/-! ## fxReset (R40, R260) -/

@[simp] theorem fxReset_st : (fxReset s).fx.st = .stopped := rfl
@[simp] theorem fxReset_len : (fxReset s).fx.len = 0 := rfl
@[simp] theorem fxReset_buf : (fxReset s).fx.buf = s.fx.buf := rfl
@[simp] theorem fxReset_failed : (fxReset s).failed = false := rfl
@[simp] theorem fxReset_call : (fxReset s).call = none := rfl
@[simp] theorem fxReset_label : (fxReset s).label = .none := rfl
@[simp] theorem fxReset_result : (fxReset s).result = none := rfl
@[simp] theorem fxReset_ret : (fxReset s).ret = s.ret := rfl
@[simp] theorem fxReset_pay : (fxReset s).pay = s.pay := rfl
@[simp] theorem fxReset_cur : (fxReset s).cur = s.cur := rfl
@[simp] theorem fxReset_tab : (fxReset s).tab = s.tab := rfl
@[simp] theorem fxReset_pos : (fxReset s).pos = s.pos := rfl
@[simp] theorem fxReset_items : (fxReset s).items = s.items := rfl
@[simp] theorem fxReset_wire : (fxReset s).wire = s.wire := rfl
@[simp] theorem fxReset_reqs : (fxReset s).reqs = s.reqs := rfl
@[simp] theorem fxReset_line : (fxReset s).line = s.line := rfl
@[simp] theorem fxReset_cfg : (fxReset s).cfg = s.cfg := rfl

/-! ## endCall (R113) -/

@[simp] theorem endCall_fx : (endCall r s).fx = s.fx := rfl
@[simp] theorem endCall_failed : (endCall r s).failed = s.failed := rfl
@[simp] theorem endCall_call : (endCall r s).call = none := rfl
@[simp] theorem endCall_label : (endCall r s).label = s.label := rfl
@[simp] theorem endCall_result : (endCall r s).result = some r := rfl
@[simp] theorem endCall_ret : (endCall r s).ret = s.ret := rfl
@[simp] theorem endCall_pay : (endCall r s).pay = s.pay := rfl
@[simp] theorem endCall_cur : (endCall r s).cur = s.cur := rfl
@[simp] theorem endCall_tab : (endCall r s).tab = s.tab := rfl
@[simp] theorem endCall_pos : (endCall r s).pos = s.pos := rfl
@[simp] theorem endCall_items : (endCall r s).items = s.items := rfl
@[simp] theorem endCall_wire : (endCall r s).wire = s.wire := rfl
@[simp] theorem endCall_reqs : (endCall r s).reqs = s.reqs := rfl
@[simp] theorem endCall_line : (endCall r s).line = s.line := rfl
@[simp] theorem endCall_cfg : (endCall r s).cfg = s.cfg := rfl

/-! ## quiet (R236) -/

@[simp] theorem quiet_label : s.quiet.label = .none := rfl
@[simp] theorem quiet_result : s.quiet.result = none := rfl
@[simp] theorem quiet_fx : s.quiet.fx = s.fx := rfl
@[simp] theorem quiet_failed : s.quiet.failed = s.failed := rfl
@[simp] theorem quiet_call : s.quiet.call = s.call := rfl
@[simp] theorem quiet_ret : s.quiet.ret = s.ret := rfl
@[simp] theorem quiet_pay : s.quiet.pay = s.pay := rfl
@[simp] theorem quiet_cur : s.quiet.cur = s.cur := rfl
@[simp] theorem quiet_tab : s.quiet.tab = s.tab := rfl
@[simp] theorem quiet_pos : s.quiet.pos = s.pos := rfl
@[simp] theorem quiet_items : s.quiet.items = s.items := rfl
@[simp] theorem quiet_wire : s.quiet.wire = s.wire := rfl
@[simp] theorem quiet_reqs : s.quiet.reqs = s.reqs := rfl
@[simp] theorem quiet_line : s.quiet.line = s.line := rfl
@[simp] theorem quiet_cfg : s.quiet.cfg = s.cfg := rfl
@[simp] theorem strobe_quiet : strobe s.quiet = none := rfl

/-! ## raiseMalformed (R233) -/

@[simp] theorem raiseMalformed_fx : s.raiseMalformed.fx = s.fx := rfl
@[simp] theorem raiseMalformed_failed : s.raiseMalformed.failed = s.failed := rfl
@[simp] theorem raiseMalformed_call : s.raiseMalformed.call = s.call := rfl
@[simp] theorem raiseMalformed_label : s.raiseMalformed.label = s.label := rfl
@[simp] theorem raiseMalformed_result : s.raiseMalformed.result = some .malformedPayload := rfl
@[simp] theorem raiseMalformed_ret : s.raiseMalformed.ret = none := rfl
@[simp] theorem raiseMalformed_pay : s.raiseMalformed.pay = s.pay := rfl
@[simp] theorem raiseMalformed_cur : s.raiseMalformed.cur = s.cur := rfl
@[simp] theorem raiseMalformed_tab : s.raiseMalformed.tab = s.tab := rfl
@[simp] theorem raiseMalformed_pos : s.raiseMalformed.pos = s.pos := rfl
@[simp] theorem raiseMalformed_items : s.raiseMalformed.items = s.items := rfl
@[simp] theorem raiseMalformed_wire : s.raiseMalformed.wire = s.wire := rfl
@[simp] theorem raiseMalformed_reqs : s.raiseMalformed.reqs = s.reqs := rfl
@[simp] theorem raiseMalformed_line : s.raiseMalformed.line = s.line := rfl
@[simp] theorem raiseMalformed_cfg : s.raiseMalformed.cfg = s.cfg := rfl

end Sys2Proof.Machine
end

