-- ==== Sys2Proof/Laws/Memory.lean ====
section
/-! SUPPORT. The laws of the buffer's bytes: the canonical form is kept, a read after a write, and what append does to
the contents. -/

namespace Sys2Proof.Machine

@[simp] theorem Memory.read_nil (a : Nat) : Memory.read [] a = Memory.unlisted := rfl

@[simp] theorem Memory.wf_nil : Memory.wf [] = true := rfl

theorem Memory.wfFrom_mono {m : Memory} {lo lo' : Nat} (h : lo' ≤ lo) (hm : Memory.wfFrom lo m = true) :
    Memory.wfFrom lo' m = true := by
  cases m with
  | nil => rfl
  | cons c rest =>
    simp only [Memory.wfFrom, Bool.and_eq_true, decide_eq_true_eq] at hm ⊢
    exact ⟨⟨Nat.le_trans h hm.1.1, hm.1.2⟩, hm.2⟩

/-- Below the first listed index nothing is listed. -/
theorem Memory.read_below {m : Memory} {lo a : Nat} (hm : Memory.wfFrom lo m = true) (h : a < lo) :
    Memory.read m a = Memory.unlisted := by
  induction m generalizing lo with
  | nil => rfl
  | cons c rest ih =>
    obtain ⟨k, x⟩ := c
    simp only [Memory.wfFrom, Bool.and_eq_true, decide_eq_true_eq] at hm
    have hk : k ≠ a := by omega
    simp only [Memory.read, if_neg hk]
    exact ih hm.2 (by omega)

/-- A write keeps the canonical form. -/
theorem Memory.write_wfFrom {m : Memory} {lo a : Nat} {v : Byte} (hm : Memory.wfFrom lo m = true) (h : lo ≤ a) :
    Memory.wfFrom lo (Memory.write m a v) = true := by
  induction m generalizing lo with
  | nil =>
    simp only [Memory.write]
    split
    · rfl
    · rename_i hv
      simp [Memory.wfFrom, h, hv]
  | cons c rest ih =>
    obtain ⟨k, x⟩ := c
    simp only [Memory.wfFrom, Bool.and_eq_true, decide_eq_true_eq] at hm
    simp only [Memory.write]
    split
    · split
      · simp [Memory.wfFrom, hm]
      · rename_i hlt hv
        simp [Memory.wfFrom, hm, h, hv, Nat.succ_le_of_lt hlt]
    · split
      · rename_i hlt heq
        subst heq
        split
        · exact Memory.wfFrom_mono (by omega) hm.2
        · rename_i hv
          simp [Memory.wfFrom, hm, hv]
      · have hlo : k + 1 ≤ a := by omega
        simp [Memory.wfFrom, hm, ih hm.2 hlo]

theorem Memory.write_wf {m : Memory} (a : Nat) (v : Byte) (hm : m.wf = true) : (Memory.write m a v).wf = true :=
  Memory.write_wfFrom hm (Nat.zero_le a)

/-- A read of the index just written gives the byte written. -/
theorem Memory.read_write_same {m : Memory} {lo : Nat} (a : Nat) (v : Byte) (hm : Memory.wfFrom lo m = true) :
    Memory.read (Memory.write m a v) a = v := by
  induction m generalizing lo with
  | nil =>
    simp only [Memory.write]
    split
    · rename_i hv; simp [hv]
    · simp [Memory.read]
  | cons c rest ih =>
    obtain ⟨k, x⟩ := c
    have hm' := hm
    simp only [Memory.wfFrom, Bool.and_eq_true, decide_eq_true_eq] at hm'
    simp only [Memory.write]
    split
    · split
      · rename_i hlt hv
        have hk : k ≠ a := by omega
        simp only [Memory.read, if_neg hk, hv]
        exact Memory.read_below hm'.2 (by omega)
      · simp [Memory.read]
    · split
      · rename_i heq
        subst heq
        split
        · rename_i hv
          rw [hv]
          exact Memory.read_below hm'.2 (by omega)
        · simp [Memory.read]
      · have hk : k ≠ a := by omega
        simp only [Memory.read, if_neg hk]
        exact ih hm'.2

/-- A write leaves every other index alone. -/
theorem Memory.read_write_other (m : Memory) {a b : Nat} (v : Byte) (h : b ≠ a) :
    Memory.read (Memory.write m a v) b = Memory.read m b := by
  have h' : ¬ a = b := fun e => h e.symm
  induction m with
  | nil =>
    simp only [Memory.write]
    split
    · rfl
    · simp [Memory.read, h']
  | cons c rest ih =>
    obtain ⟨k, x⟩ := c
    simp only [Memory.write]
    split
    · split
      · rfl
      · simp [Memory.read, h']
    · split
      · rename_i heq
        subst heq
        split
        · simp [Memory.read, h']
        · simp [Memory.read, h']
      · simp only [Memory.read, ih]

/-- A write lists no index beyond those listed and the one written. -/
theorem Memory.write_keys {m : Memory} {a : Nat} {v : Byte} {P : Nat → Prop} (hm : ∀ c ∈ m, P c.1) (ha : P a) :
    ∀ c ∈ Memory.write m a v, P c.1 := by
  induction m with
  | nil =>
    intro c hc
    simp only [Memory.write] at hc
    split at hc
    · simp at hc
    · simp only [List.mem_singleton] at hc; subst hc; exact ha
  | cons d rest ih =>
    obtain ⟨k, x⟩ := d
    have hk : P k := hm (k, x) (by simp)
    have hr : ∀ c ∈ rest, P c.1 := fun c hc => hm c (by simp [hc])
    intro c hc
    simp only [Memory.write] at hc
    split at hc
    · split at hc
      · exact hm c hc
      · rcases List.mem_cons.1 hc with h | h
        · subst h; exact ha
        · exact hm c h
    · split at hc
      · split at hc
        · exact hr c hc
        · rcases List.mem_cons.1 hc with h | h
          · subst h; exact ha
          · exact hr c h
      · rcases List.mem_cons.1 hc with h | h
        · subst h; exact hk
        · exact ih hr c h

/-! ## Slices and contents -/

@[simp] theorem Memory.slice_zero (m : Memory) (a : Nat) : Memory.slice m a 0 = [] := rfl

@[simp] theorem Memory.slice_length (m : Memory) (a n : Nat) : (Memory.slice m a n).length = n := by
  induction n generalizing a with
  | zero => rfl
  | succ n ih => simp [Memory.slice, ih]

theorem Memory.slice_succ_last (m : Memory) (a n : Nat) :
    Memory.slice m a (n + 1) = Memory.slice m a n ++ [Memory.read m (a + n)] := by
  induction n generalizing a with
  | zero => rfl
  | succ n ih =>
    rw [Memory.slice, ih, Memory.slice]
    simp [Nat.add_comm, Nat.add_left_comm]

/-- Two memories that agree on the indices of a slice give the same slice. -/
theorem Memory.slice_congr {m m' : Memory} {a n : Nat}
    (h : ∀ i, a ≤ i → i < a + n → Memory.read m i = Memory.read m' i) : Memory.slice m a n = Memory.slice m' a n := by
  induction n generalizing a with
  | zero => rfl
  | succ n ih =>
    simp only [Memory.slice]
    rw [h a (Nat.le_refl a) (by omega), ih fun i h1 h2 => h i (by omega) (by omega)]

@[simp] theorem Fx.contents_clear (q : Fx) : q.clear.contents = [] := rfl

@[simp] theorem Fx.contents_goto (q : Fx) (st : FxState) : (q.goto st).contents = q.contents := rfl

@[simp] theorem Fx.contents_length (q : Fx) : q.contents.length = q.len := Memory.slice_length _ _ _

/-- R46: append adds its byte at the end of the contents. -/
theorem Fx.contents_append {q : Fx} (b : Byte) (h : q.buf.wf = true) : (q.append b).contents = q.contents ++ [b] := by
  simp only [Fx.contents, Fx.append, Memory.slice_succ_last, Nat.zero_add]
  rw [Memory.read_write_same q.len b h]
  congr 1
  exact Memory.slice_congr fun i _ hi => Memory.read_write_other _ _ (by omega)

end Sys2Proof.Machine
end

