-- ==== Sys2Proof/Laws/Extractor.lean ====
section
/-! SUPPORT. What the shared operations of the frame extractor and the composites can do, said once. -/

namespace Sys2Proof.Machine

variable {s t : State}

/-- A decode that returns writes the result and nothing else. -/
theorem mdReturn_next {r : Bu Result} (h : mdReturn r s = .next t) : ∃ x, t = { s with result := some x } := by
  cases r with
  | ok x => exact ⟨x, by simpa [mdReturn] using h.symm⟩
  | malformed => exact ⟨.malformedPayload, by simpa [mdReturn] using h.symm⟩
  | refuse q => simp [mdReturn] at h

theorem mdReturn_not_fault {r : Bu Result} {e : Fault} : mdReturn r s ≠ .fault e := by cases e

/-- The end of a step writes the label, and, where it ends a call in progress, the result and the call. -/
theorem deliver_next {l : Label} (h : deliver l s = .next t) :
    ∃ r c, t = { s with label := l, result := r, call := c } ∧
      (c = s.call ∧ r = s.result ∨ c = none ∧ s.call ≠ none) := by
  unfold deliver at h
  split at h
  · rename_i c f hc
    cases c with
    | nextFrame n =>
      exact ⟨some (.frame f), none, by simpa [deliverFrame, endCall] using h.symm, .inr ⟨rfl, by simp [hc]⟩⟩
    | nextMessage n dir =>
      obtain ⟨x, hx⟩ := mdReturn_next h
      exact ⟨some x, none, by simpa using hx, .inr ⟨rfl, by simp [hc]⟩⟩
  · rename_i hc; exact ⟨some .timedOut, none, by simpa [endCall] using h.symm, .inr ⟨rfl, by simp [hc]⟩⟩
  · rename_i hc; exact ⟨some .transportError, none, by simpa [endCall] using h.symm, .inr ⟨rfl, by simp [hc]⟩⟩
  · exact ⟨s.result, s.call, by simpa using h.symm, .inl ⟨rfl, rfl⟩⟩
  · exact ⟨s.result, s.call, by simpa using h.symm, .inl ⟨rfl, rfl⟩⟩
  · exact ⟨s.result, s.call, by simpa using h.symm, .inl ⟨rfl, rfl⟩⟩
  · exact ⟨s.result, s.call, by simpa using h.symm, .inl ⟨rfl, rfl⟩⟩

/-- A label that ends no call is written and nothing else is. -/
theorem deliver_quiet {l : Label} (h : labelReachesCaller l = false) : deliver l s = .next { s with label := l } := by
  cases l <;> simp [labelReachesCaller] at h <;> cases hc : s.call <;> simp [deliver, hc]

@[simp] theorem deliver_none : deliver .none s = .next { s with label := .none } := deliver_quiet rfl
@[simp] theorem deliver_framingError : deliver .framingError s = .next { s with label := .framingError } :=
  deliver_quiet rfl
@[simp] theorem deliver_overflow : deliver .overflow s = .next { s with label := .overflow } := deliver_quiet rfl

/-- Without a call in progress a step's end writes the label and nothing else. -/
theorem deliver_no_call {l : Label} (h : s.call = none) : deliver l s = .next { s with label := l } := by
  cases l <;> simp [deliver, h]

/-- A step rule that runs was selected on a live connection, and writes FX state, the label, and, where it ends a call
in progress, the result and the call. -/
theorem fxRun_next {sel : Bool} {rule : Fx → FxStep} (h : fxRun sel rule s = .next t) :
    s.failed = false ∧ sel = true ∧ ∃ r c,
      t = { s with fx := (rule s.fx).1, label := (rule s.fx).2, result := r, call := c } ∧
        (c = s.call ∧ r = s.result ∨ c = none ∧ s.call ≠ none) := by
  unfold fxRun at h
  split at h
  · simp at h
  · rename_i hf
    split at h
    · rename_i hsel
      obtain ⟨r, c, ht, hc⟩ := deliver_next h
      exact ⟨by simpa using hf, hsel, r, c, by simpa using ht, by simpa using hc⟩
    · simp at h

/-- A step rule that is selected on a live connection and ends no call. -/
theorem fxRun_quiet {rule : Fx → FxStep} (hf : s.failed = false) (h : labelReachesCaller (rule s.fx).2 = false) :
    fxRun true rule s = .next { s with fx := (rule s.fx).1, label := (rule s.fx).2 } := by
  simp [fxRun, hf, deliver_quiet h]

/-- A step rule that is selected on a live connection with no call in progress. -/
theorem fxRun_no_call {rule : Fx → FxStep} (hf : s.failed = false) (h : s.call = none) :
    fxRun true rule s = .next { s with fx := (rule s.fx).1, label := (rule s.fx).2 } := by
  simp [fxRun, hf, deliver_no_call, h]

/-! ## The step rules on FX state -/

/-- What any step rule may do to FX state: leave the bytes, keeping or clearing the length; or store one byte at `len`
where there is room and lengthen the contents by it, from a state inside a message. -/
def Fx.Effect (max : Option Nat) (q q' : Fx) : Prop :=
  (q'.buf = q.buf ∧ (q'.len = 0 ∨ q'.len = q.len ∧ (q.clearOutside = true → q'.clearOutside = true))) ∨
  ∃ b, q'.buf = Memory.write q.buf q.len b ∧ q'.len = q.len + 1 ∧ q.full max = false ∧ q'.st = .inMessage

theorem Fx.Effect.wf {max : Option Nat} {q q' : Fx} (h : Fx.Effect max q q') (hq : q.wf max = true) :
    q'.wf max = true := by
  simp only [Fx.wf, Bool.and_eq_true] at hq ⊢
  obtain ⟨⟨h1, h2⟩, h3⟩ := hq
  obtain ⟨hb, hl⟩ | ⟨b, hb, hl, hroom, hst⟩ := h
  · refine ⟨⟨by rw [hb]; exact h1, ?_⟩, ?_⟩
    · cases max with
      | none => rfl
      | some n =>
        simp only [Fx.bounded, Bool.and_eq_true, decide_eq_true_eq, hb] at h2 ⊢
        exact ⟨by rcases hl with h | ⟨h, _⟩ <;> omega, h2.2⟩
    · rcases hl with h | ⟨_, h⟩
      · unfold Fx.clearOutside; split <;> simp [h]
      · exact h h3
  · refine ⟨⟨by rw [hb]; exact Memory.write_wf _ _ h1, ?_⟩, by simp [Fx.clearOutside, hst]⟩
    cases max with
    | none => rfl
    | some n =>
      have hn : q.len < n := by simpa [Fx.full] using hroom
      simp only [Fx.bounded, Bool.and_eq_true, decide_eq_true_eq, hb, hl, List.all_eq_true] at h2 ⊢
      exact ⟨hn, Memory.write_keys (P := fun k => k < n) h2.2 hn⟩

variable {max : Option Nat} {q : Fx} {b : Byte}

theorem Fx.stoppedDle_effect (h : q.st = .stopped) : Fx.Effect max q q.stoppedDle.1 :=
  .inl ⟨rfl, .inr ⟨rfl, fun hc => by unfold Fx.clearOutside at hc ⊢; rw [h] at hc; exact hc⟩⟩
theorem Fx.stoppedOther_effect : Fx.Effect max q q.stoppedOther.1 := .inl ⟨rfl, .inr ⟨rfl, id⟩⟩
theorem Fx.firstStx_effect : Fx.Effect max q q.firstStx.1 := .inl ⟨rfl, .inl rfl⟩
theorem Fx.firstOther_effect (h : q.st = .firstDelimiter) : Fx.Effect max q q.firstOther.1 :=
  .inl ⟨rfl, .inr ⟨rfl, fun hc => by unfold Fx.clearOutside at hc ⊢; rw [h] at hc; exact hc⟩⟩
theorem Fx.inmsgDle_effect : Fx.Effect max q q.inmsgDle.1 :=
  .inl ⟨rfl, .inr ⟨rfl, by simp [Fx.clearOutside, Fx.inmsgDle]⟩⟩
theorem Fx.overflow_effect : Fx.Effect max q q.overflow.1 := .inl ⟨rfl, .inl rfl⟩
theorem Fx.escEtx_effect : Fx.Effect max q q.escEtx.1 := .inl ⟨rfl, .inl rfl⟩
theorem Fx.escOther_effect : Fx.Effect max q q.escOther.1 := .inl ⟨rfl, .inl rfl⟩
theorem Fx.inmsgData_effect (h : q.st = .inMessage) : Fx.Effect max q (q.inmsgData max b).1 := by
  unfold Fx.inmsgData
  split
  · exact Fx.overflow_effect
  · exact .inr ⟨b, rfl, rfl, by simp_all, h⟩
theorem Fx.escDle_effect : Fx.Effect max q (q.escDle max).1 := by
  unfold Fx.escDle
  split
  · exact Fx.overflow_effect
  · exact .inr ⟨DLE, rfl, rfl, by simp_all, rfl⟩

/-- R100: a byte step is one of the step rules. -/
theorem Fx.byte_effect (max : Option Nat) (b : Byte) (q : Fx) : Fx.Effect max q (q.byte max b).1 := by
  unfold Fx.byte
  split <;> rename_i hs
  · split
    · exact Fx.stoppedDle_effect hs
    · exact Fx.stoppedOther_effect
  · split
    · exact Fx.firstStx_effect
    · exact Fx.firstOther_effect hs
  · split
    · exact Fx.inmsgDle_effect
    · exact Fx.inmsgData_effect hs
  · split
    · exact Fx.escDle_effect
    · split
      · exact Fx.escEtx_effect
      · exact Fx.escOther_effect

/-- What one event may write: FX state by a step rule, the label, the failed record, and, where it ends a call in
progress, the result and the call. -/
def EventEffect (s t : State) : Prop :=
  ∃ q l f r c, t = { s with fx := q, label := l, failed := f, result := r, call := c } ∧
    Fx.Effect s.cfg.frameMax s.fx q ∧ (c = s.call ∧ r = s.result ∨ c = none ∧ s.call ≠ none) ∧
    (f = s.failed ∨ s.failed = false ∧ f = true ∧ c = none)

theorem Fx.Effect.refl (max : Option Nat) (q : Fx) : Fx.Effect max q q := .inl ⟨rfl, .inr ⟨rfl, id⟩⟩

theorem EventEffect.refl (s : State) : EventEffect s s :=
  ⟨s.fx, s.label, s.failed, s.result, s.call, rfl, .refl _ _, .inl ⟨rfl, rfl⟩, .inl rfl⟩

theorem fxRun_effect {sel : Bool} {rule : Fx → FxStep} (h : fxRun sel rule s = .next t)
    (he : sel = true → Fx.Effect s.cfg.frameMax s.fx (rule s.fx).1) : EventEffect s t := by
  obtain ⟨_, hsel, r, c, ht, hc⟩ := fxRun_next h
  exact ⟨_, _, s.failed, r, c, ht, he hsel, hc, .inl rfl⟩

theorem fxTimeout_effect (h : fxTimeout s = .next t) : EventEffect s t := by
  unfold fxTimeout at h
  split at h
  · simp at h
  · obtain ⟨r, c, ht, hc⟩ := deliver_next h
    exact ⟨s.fx, _, s.failed, r, c, ht, .refl _ _, hc, .inl rfl⟩

/-- An error on a live connection ends the call in progress. -/
theorem deliver_transportError (s : State) :
    ∃ r, deliver .transportError s = .next { s with label := .transportError, result := r, call := none } ∧
      (s.call = none → r = s.result) := by
  cases hc : s.call with
  | none => exact ⟨s.result, by rw [deliver_no_call hc]; cases s; simp_all, fun _ => rfl⟩
  | some c => exact ⟨some .transportError, by simp [deliver, hc, endCall], by simp⟩

theorem fxError_effect (h : fxError s = .next t) : EventEffect s t := by
  unfold fxError at h
  split at h
  · simp at h
  · rename_i hf
    obtain ⟨r, hd, hr⟩ := deliver_transportError { s with failed := true }
    rw [hd] at h
    refine ⟨s.fx, _, true, r, none, by simpa using h.symm, .refl _ _, ?_, .inr ⟨by simpa using hf, rfl, rfl⟩⟩
    cases hc : s.call with
    | none => exact .inl ⟨rfl, hr hc⟩
    | some c => exact .inr ⟨rfl, by simp⟩

theorem fxAnswer_effect {a : Answer} (h : fxAnswer a s = .next t) : EventEffect s t := by
  cases a with
  | noData => obtain rfl : s = t := by simpa [fxAnswer] using h
              exact .refl _
  | byte b => exact fxRun_effect h fun _ => Fx.byte_effect _ _ _
  | timeout => exact fxTimeout_effect h
  | error => exact fxError_effect h

/-- Every EXT and EVT row writes no more than an event may. -/
theorem event_row_effect {i : Instr} (hi : isEventRow i = true) (h : exec i s = .next t) : EventEffect s t := by
  cases i with
  | stoppedDle => exact fxRun_effect h fun hs => Fx.stoppedDle_effect (by simpa using hs)
  | stoppedOther b => exact fxRun_effect h fun _ => Fx.stoppedOther_effect
  | firstStx => exact fxRun_effect h fun _ => Fx.firstStx_effect
  | firstOther b => exact fxRun_effect h fun hs => Fx.firstOther_effect (by simpa using hs)
  | inmsgDle => exact fxRun_effect h fun _ => Fx.inmsgDle_effect
  | inmsgData b => exact fxRun_effect h fun hs => Fx.inmsgData_effect (by simpa using hs)
  | escDle => exact fxRun_effect h fun _ => Fx.escDle_effect
  | escEtx => exact fxRun_effect h fun _ => Fx.escEtx_effect
  | escOther b => exact fxRun_effect h fun _ => Fx.escOther_effect
  | overflow b => exact fxRun_effect h fun _ => Fx.overflow_effect
  | evtNone => exact fxAnswer_effect (a := .noData) h
  | evtByte b => exact fxAnswer_effect (a := .byte b) h
  | evtTimeout => exact fxAnswer_effect (a := .timeout) h
  | evtError => exact fxAnswer_effect (a := .error) h
  | _ => simp [isEventRow, stepsFx] at hi

@[simp] theorem Fx.full_none (q : Fx) : q.full none = false := rfl

theorem Fx.full_some (q : Fx) (n : Nat) : q.full (some n) = true ↔ n ≤ q.len := by simp [Fx.full]

/-- A rule that may append overflows at capacity. -/
theorem Fx.inmsgData_room {max : Option Nat} {q : Fx} (b : Byte) (h : q.full max = false) :
    q.inmsgData max b = (q.append b, .none) := by simp [Fx.inmsgData, h]

theorem Fx.inmsgData_full {max : Option Nat} {q : Fx} (b : Byte) (h : q.full max = true) :
    q.inmsgData max b = q.overflow := by simp [Fx.inmsgData, h]

theorem Fx.escDle_room {max : Option Nat} {q : Fx} (h : q.full max = false) :
    q.escDle max = ((q.append DLE).goto .inMessage, .none) := by simp [Fx.escDle, h]

theorem Fx.escDle_full {max : Option Nat} {q : Fx} (h : q.full max = true) : q.escDle max = q.overflow := by
  simp [Fx.escDle, h]

@[simp] theorem framesOf_nil : framesOf [] = [] := rfl
@[simp] theorem framesOf_frame (f : List Byte) (ls : List Label) : framesOf (.frame f :: ls) = f :: framesOf ls := rfl
@[simp] theorem framesOf_none (ls : List Label) : framesOf (.none :: ls) = framesOf ls := rfl
@[simp] theorem framesOf_framingError (ls : List Label) : framesOf (.framingError :: ls) = framesOf ls := rfl
@[simp] theorem framesOf_overflow (ls : List Label) : framesOf (.overflow :: ls) = framesOf ls := rfl

theorem framesOf_append (k l : List Label) : framesOf (k ++ l) = framesOf k ++ framesOf l := by
  induction k with
  | nil => rfl
  | cons a k ih => cases a <;> simp [framesOf, ih]

@[simp] theorem Fx.run_nil (max : Option Nat) (q : Fx) : q.run max [] = (q, []) := rfl

theorem Fx.run_cons (max : Option Nat) (q : Fx) (b : Byte) (bs : List Byte) :
    q.run max (b :: bs) =
      (((q.byte max b).1.run max bs).1, (q.byte max b).2 :: ((q.byte max b).1.run max bs).2) := rfl

end Sys2Proof.Machine
end

