-- ==== Sys2Proof/Laws/Unpack.lean ====
section
/-! SUPPORT. What the shared operations of the unpacker can do, said once. -/

namespace Sys2Proof.Machine

variable {s t : State}

/-- An unpacker operation either returns, or raises MalformedPayload, or is refused. -/
theorem uopReturn_next {α : Type} {r : Bu α} {k : α → State} (h : uopReturn r s k = .next t) :
    (∃ a, r = .ok a ∧ t = k a) ∨ (r = .malformed ∧ t = s.raiseMalformed) := by
  cases r with
  | ok a => exact .inl ⟨a, rfl, by simpa [uopReturn] using h.symm⟩
  | malformed => exact .inr ⟨rfl, by simpa [uopReturn] using h.symm⟩
  | refuse q => simp [uopReturn] at h

@[simp] theorem uopReturn_ok {α : Type} (a : α) (k : α → State) : uopReturn (.ok a) s k = .next (k a) := rfl
@[simp] theorem uopReturn_malformed {α : Type} (k : α → State) :
    uopReturn (.malformed : Bu α) s k = .next s.raiseMalformed := rfl
@[simp] theorem uopReturn_refuse {α : Type} (q : Refusal) (k : α → State) :
    uopReturn (.refuse q : Bu α) s k = .refused q := rfl

@[simp] theorem Bu.bind_ok {α β : Type} (a : α) (k : α → Bu β) : (Bu.ok a).bind k = k a := rfl
@[simp] theorem Bu.bind_malformed {α β : Type} (k : α → Bu β) : (Bu.malformed : Bu α).bind k = .malformed := rfl
@[simp] theorem Bu.bind_refuse {α β : Type} (q : Refusal) (k : α → Bu β) :
    (Bu.refuse q : Bu α).bind k = .refuse q := rfl

/-- A sequence of two operations that returns ran both. -/
theorem Bu.bind_eq_ok {α β : Type} {x : Bu α} {k : α → Bu β} {b : β} (h : x.bind k = .ok b) :
    ∃ a, x = .ok a ∧ k a = .ok b := by
  cases x with
  | ok a => exact ⟨a, rfl, h⟩
  | malformed => simp [Bu.bind] at h
  | refuse q => simp [Bu.bind] at h

theorem widthOk_iff (n : Nat) : widthOk n = true ↔ 1 ≤ n ∧ n ≤ 32 := by
  unfold widthOk EXTRACT_WMAX
  simp

/-- R158: a bit field that is read lies in the payload, and its value is the sum of its bits. -/
theorem extract_eq_ok {p : List Byte} {off n v : Nat} :
    extract p off n = .ok v ↔ widthOk n = true ∧ off + n ≤ 8 * p.length ∧ v = bitSum p off n := by
  unfold extract
  split
  · split
    · rename_i h1 h2; simp [h1, h2, eq_comm]
    · rename_i h1 h2; simp [h2]
  · rename_i h1; simp [h1]

theorem bitAt_le_one (p : List Byte) (k : Nat) : bitAt p k ≤ 1 := by unfold bitAt; split <;> omega

/-- R158: the value of an `n`-bit field is below `2^n`. -/
theorem bitSum_lt (p : List Byte) (off n : Nat) : bitSum p off n < 2 ^ n := by
  induction n generalizing off with
  | zero => simp [bitSum]
  | succ n ih =>
    have h1 := bitAt_le_one p off
    have h2 := ih (off + 1)
    have h3 : bitAt p off * 2 ^ n ≤ 1 * 2 ^ n := Nat.mul_le_mul_right _ h1
    simp only [bitSum, Nat.pow_succ]
    omega

/-- R48: a byte read that returns lies in the sequence. -/
theorem memRead_eq_ok {p : List Byte} {a n v : Nat} :
    memRead p a n = .ok v ↔ a + n ≤ p.length ∧ v = be ((p.drop a).take n) := by
  unfold memRead
  split
  · rename_i h; simp [h, eq_comm]
  · rename_i h; simp [h]

@[simp] theorem itemsFrom_nil (p : List Byte) (a : Nat) : itemsFrom p a [] = .ok [] := rfl

@[simp] theorem layoutSize_nil : layoutSize [] = 0 := rfl
@[simp] theorem layoutSize_cons (i : Item) (l : List Item) : layoutSize (i :: l) = itemSize i + layoutSize l := rfl

@[simp] theorem fieldPresent_none (t : Fields) : fieldPresent t none = some true := rfl
@[simp] theorem fieldPresent_some (t : Fields) (c : Cond) : fieldPresent t (some c) = evalCond t c := rfl

/-- R188: what a descriptor that runs does: it is skipped, or its field is read and stored under a new name. -/
theorem runDesc_ok {c : Config} {p : List Byte} {outer t : Fields} {j cur : Nat} {name : String} {width : Nat}
    {enum : Option Enum} {signed : Bool} {cond : Option Cond} {sub : Sub} {r : Fields × Nat}
    (h : runDesc c p outer t j cur (.mk name width enum signed cond sub) = .ok r) :
    (fieldPresent t cond = some false ∧ r = (t, cur)) ∨
    (fieldPresent t cond = some true ∧ fieldGet name t = none ∧ ∃ v cur',
      runSub c p (fieldsAround outer t) j cur ⟨width, signed, false, conversionOf enum⟩ sub = .ok (v, cur') ∧
      r = (fieldSet name v t, cur')) := by
  simp only [runDesc] at h
  split at h
  · cases h
  · rename_i hc; exact .inl ⟨hc, by simpa [eq_comm] using h⟩
  · rename_i hc
    split at h
    · cases h
    · rename_i hn
      obtain ⟨⟨v, cur'⟩, hv, hr⟩ := Bu.bind_eq_ok h
      exact .inr ⟨hc, by simpa using hn, v, cur', hv, by simpa [eq_comm] using hr⟩

@[simp] theorem fieldsAround_nil_left (outer : Fields) : fieldsAround outer .nil = outer := rfl

@[simp] theorem fieldsAround_nil : (t : Fields) → fieldsAround .nil t = t
  | .nil => rfl
  | .cons n v rest => by simp [fieldsAround, fieldsAround_nil rest]

/-- R192: an entry of the run itself hides one of the run around it. -/
theorem fieldGet_around (n : String) (outer : Fields) : (t : Fields) →
    fieldGet n (fieldsAround outer t) = (fieldGet n t).or (fieldGet n outer)
  | .nil => by simp [fieldsAround, fieldGet]
  | .cons m v rest => by
    simp only [fieldsAround, fieldGet]
    split
    · simp
    · exact fieldGet_around n outer rest

/-- R168 to R170: a name that holds a number of the range gives it. -/
theorem namedFrom_int {lo : Nat} {t : Fields} {name : String} {v : Int} (h : fieldGet name t = some (.int v))
    (hv : lo ≤ v) : namedFrom lo t name = (v - lo).toNat := by
  simp [namedFrom, numberUnder, h, hv]

theorem namedInt_int {t : Fields} {name : String} {v : Int} (h : fieldGet name t = some (.int v)) :
    namedInt t name = v := by
  simp [namedInt, codeUnder, h]

/-- R157: the decoder under a key is run. -/
theorem runAlts_eq (c : Config) (p : List Byte) (t : Fields) (j cur k : Nat) : (e : Alts) →
    runAlts c p t j cur k e = (altAt k e).map (runParser c p t j cur)
  | .nil => rfl
  | .cons key d rest => by
    simp only [runAlts, altAt]
    split
    · rfl
    · exact runAlts_eq c p t j cur k rest

@[simp] theorem fieldGet_nil (n : String) : fieldGet n .nil = none := rfl

theorem fieldGet_set_same (n : String) (v : Value) : (r : Fields) → fieldGet n (fieldSet n v r) = some v
  | .nil => by simp [fieldSet, fieldGet]
  | .cons m w rest => by
    simp only [fieldSet]
    split
    · rename_i h; simp [fieldGet, h]
    · rename_i h; simp [fieldGet, h, fieldGet_set_same n v rest]

theorem fieldGet_set_other {n m : String} (v : Value) (h : m ≠ n) :
    (r : Fields) → fieldGet m (fieldSet n v r) = fieldGet m r
  | .nil => by simp [fieldSet, fieldGet, Ne.symm h]
  | .cons k w rest => by
    simp only [fieldSet]
    split
    · rename_i hk; subst hk; simp [fieldGet, Ne.symm h]
    · simp only [fieldGet, fieldGet_set_other v h rest]

theorem fieldGet_without_other {n m : String} (h : m ≠ n) : (r : Fields) →
    fieldGet m (fieldsWithout n r) = fieldGet m r
  | .nil => rfl
  | .cons k w rest => by
    simp only [fieldsWithout]
    split
    · rename_i hk; subst hk; simp [fieldGet, Ne.symm h, fieldGet_without_other h rest]
    · simp only [fieldGet, fieldGet_without_other h rest]

/-- R185: what a merged record reads under every name. -/
theorem fieldGet_merge (n : String) : (r s : Fields) → fieldGet n (fieldMerge r s) = (fieldGet n s).or (fieldGet n r)
  | .nil, s => by simp [fieldMerge]
  | .cons m v rest, s => by
    simp only [fieldMerge, fieldGet]
    split
    · rename_i h; subst h; cases fieldGet m s <;> rfl
    · rename_i h; rw [fieldGet_merge n rest, fieldGet_without_other (Ne.symm h)]

end Sys2Proof.Machine
end

