-- ==== Sys2Proof/Laws/Composite.lean ====
section
/-! SUPPORT. What every instruction that is no event may write, what a call may write, and the runs of the extractor. -/

namespace Sys2Proof.Machine

variable {s t : State}

/-! ## Instructions of MD, BU and FE (R31, R125) -/

/-- What an instruction that does not step FX may write. -/
def PureEffect (s t : State) : Prop :=
  ∃ r v p c T a is w,
    t = { s with result := r, ret := v, pay := p, cur := c, tab := T, pos := a, items := is, wire := w }

theorem mdReturn_pure {r : Bu Result} (h : mdReturn r s = .next t) : PureEffect s t := by
  obtain ⟨x, hx⟩ := mdReturn_next h
  exact ⟨some x, s.ret, s.pay, s.cur, s.tab, s.pos, s.items, s.wire, hx⟩

theorem hdrRun_pure {row : HdrRow} {f : List Byte} {dir : Dir} {r : Bu Result} (h : hdrRun row f dir s r = .next t) :
    PureEffect s t := by
  unfold hdrRun at h
  split at h
  · exact mdReturn_pure h
  · simp at h

theorem raise_pure (s : State) : PureEffect s s.raiseMalformed :=
  ⟨_, _, s.pay, s.cur, s.tab, s.pos, s.items, s.wire, rfl⟩

theorem uopReturn_pure {α : Type} {r : Bu α} {k : α → State} (h : uopReturn r s k = .next t)
    (hk : ∀ a, PureEffect s (k a)) : PureEffect s t := by
  obtain ⟨a, _, rfl⟩ | ⟨_, rfl⟩ := uopReturn_next h
  · exact hk a
  · exact raise_pure s

theorem send_pure {bs : List Byte} (h : send bs s = .next t) : PureEffect s t :=
  ⟨s.result, s.ret, s.pay, s.cur, s.tab, s.pos, s.items, s.wire ++ bs, by simpa [send] using h.symm⟩

theorem layItem_pure {i : Item} (h : layItem i s = .next t) : PureEffect s t :=
  uopReturn_pure h fun _ => ⟨s.result, _, s.pay, s.cur, s.tab, _, _, s.wire, rfl⟩

theorem exec_pure {i : Instr} (hi : stepsFx i = false) (h : exec i s = .next t) : PureEffect s t := by
  cases i with
  | wireStart => exact send_pure h
  | wireEnd => exact send_pure h
  | encDle => exact send_pure h
  | encOther b => exact send_pure h
  | frame c => exact send_pure h
  | hdrShort f d => exact hdrRun_pure h
  | hdrError f d => exact hdrRun_pure h
  | health f d => exact hdrRun_pure h
  | spConfig f d => exact hdrRun_pure h
  | vw f d => exact hdrRun_pure h
  | unmapped255 f d => exact hdrRun_pure h
  | unknownType f d => exact hdrRun_pure h
  | otherMapped f d => exact hdrRun_pure h
  | layNetwork =>
    exact ⟨s.result, s.ret, s.pay, s.cur, s.tab, 0, [], s.wire, by simpa [exec, execLayNetwork] using h.symm⟩
  | layU32 => exact layItem_pure h
  | layU16 => exact layItem_pure h
  | layU8 => exact layItem_pure h
  | layS8 => exact layItem_pure h
  | desc d => exact uopReturn_pure h fun _ => ⟨s.result, s.ret, s.pay, _, _, s.pos, s.items, s.wire, rfl⟩
  | unpackFixed p l => exact uopReturn_pure h fun _ => ⟨s.result, _, _, s.cur, s.tab, _, _, s.wire, rfl⟩
  | lensel p e => exact uopReturn_pure h fun _ => ⟨s.result, _, _, s.cur, s.tab, s.pos, s.items, s.wire, rfl⟩
  | extract p off n => exact uopReturn_pure h fun _ => ⟨s.result, _, _, s.cur, s.tab, s.pos, s.items, s.wire, rfl⟩
  | sext v w => exact uopReturn_pure h fun _ => ⟨s.result, _, s.pay, s.cur, s.tab, s.pos, s.items, s.wire, rfl⟩
  | sentU v n => exact uopReturn_pure h fun _ => ⟨s.result, _, s.pay, s.cur, s.tab, s.pos, s.items, s.wire, rfl⟩
  | sentS v n => exact uopReturn_pure h fun _ => ⟨s.result, _, s.pay, s.cur, s.tab, s.pos, s.items, s.wire, rfl⟩
  | scale x k =>
    exact ⟨s.result, _, s.pay, s.cur, s.tab, s.pos, s.items, s.wire, by simpa [exec, execScale] using h.symm⟩
  | unitscale x c =>
    exact ⟨s.result, _, s.pay, s.cur, s.tab, s.pos, s.items, s.wire, by simpa [exec, execUnitscale] using h.symm⟩
  | groups p cur c g => exact uopReturn_pure h fun _ => ⟨s.result, _, _, _, s.tab, s.pos, s.items, s.wire, rfl⟩
  | absidx a b c =>
    exact ⟨s.result, _, s.pay, s.cur, s.tab, s.pos, s.items, s.wire, by simpa [exec, execAbsidx] using h.symm⟩
  | subdispatch p cur a => exact uopReturn_pure h fun _ => ⟨s.result, _, _, _, s.tab, s.pos, s.items, s.wire, rfl⟩
  | aggregate p cur d1 d2 => exact uopReturn_pure h fun _ => ⟨s.result, _, _, _, s.tab, s.pos, s.items, s.wire, rfl⟩
  | schemaRun p cur ds => exact uopReturn_pure h fun _ => ⟨s.result, _, _, _, _, s.pos, s.items, s.wire, rfl⟩
  | unassigned1101 => simp [exec, execUnassigned1101] at h
  | unassigned1110 => simp [exec, execUnassigned1110] at h
  | unassigned1111 => simp [exec, execUnassigned1111] at h
  | deframe bs =>
    exact ⟨_, s.ret, s.pay, s.cur, s.tab, s.pos, s.items, s.wire, by simpa [exec, execDeframe] using h.symm⟩
  | decode f d => exact mdReturn_pure h
  | _ => simp [stepsFx] at hi

/-! ## Calls (R113, R145) -/

/-- What a call may write, or leaves written where it blocks. -/
def CallEffect (s t : State) : Prop :=
  ∃ q l f r c ln, t = { s with fx := q, label := l, failed := f, result := r, call := c, line := ln } ∧
    (s.fx.wf s.cfg.frameMax = true → q.wf s.cfg.frameMax = true) ∧
    (f = s.failed ∨ s.failed = false ∧ c = none)

theorem EventEffect.call (h : EventEffect s t) : CallEffect s t := by
  obtain ⟨q, l, f, r, c, rfl, hq, _, hf⟩ := h
  exact ⟨q, l, f, r, c, s.line, rfl, hq.wf, by rcases hf with h | ⟨h, _, h'⟩ <;> simp [*]⟩

theorem readLoop_effect (as : List Answer) (s t : State) (h : readLoop as s = .next t) : CallEffect s t := by
  induction as generalizing s with
  | nil =>
    exact ⟨s.fx, s.label, s.failed, s.result, s.call, [], by simpa [readLoop] using h.symm, id, .inl rfl⟩
  | cons a rest ih =>
    simp only [readLoop] at h
    split at h
    · rename_i s' hs'
      obtain ⟨q, l, f, r, c, rfl, hq, _, hf⟩ := fxAnswer_effect hs'
      split at h
      · rename_i hc
        obtain rfl : _ = t := by simpa using h
        exact ⟨q, l, f, r, c, rest, rfl, hq.wf, by rcases hf with h | ⟨h, _, h'⟩ <;> simp_all⟩
      · rename_i hc
        obtain ⟨q', l', f', r', c', ln, rfl, hq', hf'⟩ := ih _ h
        refine ⟨q', l', f', r', c', ln, rfl, fun hw => hq' (hq.wf hw), ?_⟩
        rcases hf with h | ⟨h, _, h'⟩
        · simp only at h hf'
          rw [← h]
          exact hf'
        · simp [h'] at hc
    · simp at h
    · simp at h

theorem beginCall_effect {c : Call} (h : beginCall c s = .next t) : s.failed = false ∧ CallEffect s t := by
  unfold beginCall at h
  split at h
  · simp at h
  · split at h
    · simp at h
    · rename_i hf
      obtain ⟨q', l', f', r', c', ln, rfl, hq', hf'⟩ := readLoop_effect _ _ _ h
      exact ⟨by simpa using hf, q', l', f', r', c', ln, rfl, hq', hf'⟩

/-- What any instruction may write. -/
theorem exec_next {i : Instr} (h : exec i s = .next t) :
    PureEffect s t ∨ EventEffect s t ∨ s.failed = false ∧ CallEffect s t := by
  by_cases hs : stepsFx i = true
  · by_cases he : isEventRow i = true
    · exact .inr (.inl (event_row_effect he h))
    · cases i with
      | nextFrame n => exact .inr (.inr (beginCall_effect h))
      | nextMessage n d => exact .inr (.inr (beginCall_effect h))
      | _ => simp_all [isEventRow, stepsFx]
  · exact .inl (exec_pure (by simpa using hs) h)

/-- A request that runs is decoded. -/
theorem runReq_next {r : Req} (h : runReq r s = .next t) : ∃ i, decode s.ctx r = .ok i ∧ exec i s = .next t := by
  unfold runReq at h
  split at h
  · rename_i i hi; exact ⟨i, hi, h⟩
  · simp at h

/-- What serving the outside does: the reset pin, or an instruction on the state with its input taken. -/
theorem serve_next (h : serve s = .next t) :
    (∃ rest, s.reqs = .rst :: rest ∧ t = fxReset { s with reqs := rest }) ∨
    ∃ i rq ln, exec i { s with reqs := rq, line := ln } = .next t := by
  unfold serve at h
  split at h
  · rename_i rest hr; exact .inl ⟨rest, hr, by simpa using h.symm⟩
  · rename_i r rest hr
    obtain ⟨i, _, hi⟩ := runReq_next h
    exact .inr ⟨i, rest, s.line, hi⟩
  · split at h
    · rename_i a rest hl
      obtain ⟨i, _, hi⟩ := runReq_next h
      exact .inr ⟨i, s.reqs, rest, hi⟩
    · obtain ⟨i, _, hi⟩ := runReq_next h
      exact .inr ⟨i, s.reqs, s.line, hi⟩

/-- What one step does: the reset pin, or an instruction on the state with no output and its input taken. -/
theorem step_next (h : step s = .next t) :
    (∃ rest, s.reqs = .rst :: rest ∧ t = fxReset { s with reqs := rest }) ∨
    ∃ i rq ln, exec i { s.quiet with reqs := rq, line := ln } = .next t :=
  serve_next (s := s.quiet) h

/-! ## Runs of the extractor (R114) -/

/-- R115: a run over a concatenation. -/
theorem Fx.run_append (max : Option Nat) (q : Fx) (s t : List Byte) :
    q.run max (s ++ t) = (((q.run max s).1.run max t).1, (q.run max s).2 ++ ((q.run max s).1.run max t).2) := by
  induction s generalizing q with
  | nil => simp
  | cons b s ih => simp [Fx.run_cons, ih]

@[simp] theorem Fx.run_length (max : Option Nat) (q : Fx) (s : List Byte) : (q.run max s).2.length = s.length := by
  induction s generalizing q with
  | nil => rfl
  | cons b s ih => simp [Fx.run_cons, ih]

/-- The canonical form is kept by a run. -/
theorem Fx.run_buf_wf (max : Option Nat) (q : Fx) (s : List Byte) (h : q.buf.wf = true) :
    (q.run max s).1.buf.wf = true := by
  induction s generalizing q with
  | nil => exact h
  | cons b s ih =>
    refine ih _ ?_
    obtain ⟨hb, _⟩ | ⟨b', hb, _⟩ := Fx.byte_effect max b q
    · rw [hb]; exact h
    · rw [hb]; exact Memory.write_wf _ _ h

@[simp] theorem esc_nil : esc [] = [] := rfl
theorem esc_cons (b : Byte) (bs : List Byte) : esc (b :: bs) = escByte b ++ esc bs := rfl

/-- R106, R107: one content byte as it travels, inside a message with room. -/
theorem Fx.run_escByte {max : Option Nat} {q : Fx} (b : Byte) (hq : q.st = .inMessage) (hr : q.full max = false) :
    q.run max (escByte b) = (q.append b, List.replicate (escByte b).length .none) := by
  unfold escByte
  split
  · rename_i hb
    subst hb
    simp [Fx.run_cons, Fx.byte, hq, Fx.inmsgDle, Fx.goto, Fx.escDle, Fx.full, Fx.append, List.replicate]
    cases max with
    | none => simp
    | some n => simp [Fx.full] at hr; simp [Nat.not_le.2 hr]
  · rename_i hb
    simp [Fx.run_cons, Fx.byte, hq, hb, Fx.inmsgData_room b hr]

/-- R106, R107, R126: the escaped content, inside a message with room for it. -/
theorem Fx.run_esc {max : Option Nat} (content : List Byte) {q : Fx} (hq : q.st = .inMessage)
    (hw : q.buf.wf = true) (hr : ∀ n, max = some n → q.len + content.length ≤ n) :
    ∃ q', q.run max (esc content) = (q', List.replicate (esc content).length .none) ∧ q'.st = .inMessage ∧
      q'.buf.wf = true ∧ q'.len = q.len + content.length ∧ q'.contents = q.contents ++ content := by
  induction content generalizing q with
  | nil => exact ⟨q, rfl, hq, hw, rfl, by simp⟩
  | cons b bs ih =>
    have hroom : q.full max = false := by
      cases max with
      | none => rfl
      | some n =>
        have := hr n rfl
        simp only [List.length_cons] at this
        simp only [Fx.full, decide_eq_false_iff_not]
        omega
    obtain ⟨q', h1, h2, h3, h4, h5⟩ := ih (q := q.append b) hq (Memory.write_wf _ _ hw)
      (fun n hn => by have := hr n hn; simp only [List.length_cons, Fx.append_len] at *; omega)
    refine ⟨q', ?_, h2, h3, ?_, ?_⟩
    · rw [esc_cons, Fx.run_append, Fx.run_escByte b hq hroom]
      simp [h1]
    · simp only [Fx.append_len] at h4
      simp only [List.length_cons]
      omega
    · rw [h5, Fx.contents_append b hw]
      simp

/-- R105, R108: the end delimiter inside a message. -/
theorem Fx.run_end {max : Option Nat} {q : Fx} (hq : q.st = .inMessage) :
    q.run max endDelimiter = ((q.goto .inMessageEscape).escEtx.1, [.none, .frame q.contents]) := by
  simp [endDelimiter, Fx.run_cons, Fx.byte, hq, Fx.inmsgDle, Fx.escEtx, ETX, DLE]

/-- R101, R103: the start delimiter outside a message. -/
theorem Fx.run_start {max : Option Nat} {q : Fx} (hq : q.st = .stopped) :
    q.run max startDelimiter = (q.clear.goto .inMessage, [.none, .none]) := by
  simp [startDelimiter, Fx.run_cons, Fx.byte, hq, Fx.stoppedDle, Fx.firstStx, Fx.goto, Fx.clear]

/-- R106, R107, R108: the rest of a wire frame, inside a message with room. -/
theorem Fx.run_body {max : Option Nat} {q : Fx} (content : List Byte) (hq : q.st = .inMessage)
    (hw : q.buf.wf = true) (hr : ∀ n, max = some n → q.len + content.length ≤ n) :
    ∃ q', q.run max (esc content ++ endDelimiter) =
        (q', List.replicate ((esc content).length + 1) .none ++ [.frame (q.contents ++ content)]) ∧
      q'.st = .stopped ∧ q'.len = 0 ∧ q'.buf.wf = true := by
  obtain ⟨q', h1, h2, h3, h4, h5⟩ := Fx.run_esc content hq hw hr
  refine ⟨((q'.goto .inMessageEscape).escEtx).1, ?_, rfl, rfl, h3⟩
  rw [Fx.run_append, h1]
  simp only [Fx.run_end h2, h5]
  simp [List.replicate_succ']

end Sys2Proof.Machine
end

