-- ==== Sys2Proof/Laws/Reach.lean ====
section
/-! SUPPORT. What the run over every payload can do (R189), said once. -/

namespace Sys2Proof.Machine

open Sys2Proof

/-- One run after another comes to what the second comes to from a way of the first, and fails where the first fails. -/
theorem Ways.mem_bind {α β : Type} {ws : Ways α} {k : α → Ways β} {r : Option β} :
    r ∈ ws.bind k ↔ (∃ a, some a ∈ ws ∧ r ∈ k a) ∨ (none ∈ ws ∧ r = none) := by
  simp only [Ways.bind, List.mem_flatMap]
  constructor
  · rintro ⟨w, hw, hr⟩
    cases w with
    | none => exact .inr ⟨hw, by simpa using hr⟩
    | some a => exact .inl ⟨a, hw, hr⟩
  · rintro (⟨a, ha, hr⟩ | ⟨hn, rfl⟩)
    · exact ⟨some a, ha, hr⟩
    · exact ⟨none, hn, by simp⟩

/-- What holds of every way of two runs, none of which fails. -/
theorem Ways.bind_all {α β : Type} {ws : Ways α} {k : α → Ways β} {P : α → Prop} {Q : β → Prop}
    (h : ∀ w ∈ ws, ∃ a, w = some a ∧ P a) (hk : ∀ a, P a → ∀ w ∈ k a, ∃ b, w = some b ∧ Q b) :
    ∀ w ∈ ws.bind k, ∃ b, w = some b ∧ Q b := by
  intro w hw
  rcases Ways.mem_bind.1 hw with ⟨a, ha, hr⟩ | ⟨hn, rfl⟩
  · obtain ⟨_, ⟨⟩, h2⟩ := h _ ha
    exact hk a h2 w hr
  · obtain ⟨_, h1, _⟩ := h _ hn
    cases h1

variable {c : Config} {q : Probe} {outer t : Fields} {j cur : Nat}

/-- The least and the greatest integer of a plain unsigned field are among its values. -/
theorem Probe.fieldValues_ends {w x : Nat} (hx : x = 0 ∨ x = 2 ^ w - 1) :
    .int x ∈ q.fieldValues c t ⟨w, false, false, .plain⟩ := by
  have h2 : (0 : Nat) < 2 ^ w := Nat.two_pow_pos w
  have h3 : ((2 ^ w : Nat) : Int) = (2 : Int) ^ w := by norm_cast
  simp only [Probe.fieldValues, Probe.coded, placesUnder, List.flatMap_cons, List.flatMap_nil, List.append_nil, List.mem_map,
    Probe.integers, around, List.mem_eraseDups, List.mem_filter]
  refine ⟨(x : Int), ⟨?_, ?_⟩, ?_⟩
  · simp only [List.mem_flatMap]
    refine ⟨(x : Int), ?_, by simp⟩
    rcases hx with rfl | rfl <;> simp
  · simp; omega
  · have : ((x : Int) % 2 ^ w).toNat = x := by rw [Int.emod_eq_of_lt] <;> omega
    simp [fieldValue, converted, this]

/-- A plain unsigned field comes to integers, and never fails. -/
theorem Probe.field_plain {w : Nat} :
    ∀ r ∈ q.field c t cur ⟨w, false, false, .plain⟩, ∃ s, r = some s ∧ ∃ x : Int, s.1 = .int x := by
  intro r hr
  unfold Probe.field at hr
  split at hr
  · simp at hr
  · simp only [List.mem_map, Probe.fieldValues, Probe.coded, List.flatMap_cons, List.flatMap_nil, List.append_nil] at hr
    obtain ⟨v, ⟨x, _, rfl⟩, rfl⟩ := hr
    exact ⟨_, rfl, by simp [fieldValue, converted]⟩

/-- A name that is looked at keeps its entry. -/
theorem Probe.settle_get (q : Probe) {names : List String} {n : String} (hn : n ∈ names) : (t : Fields) →
    fieldGet n (q.settle names t) = (fieldGet n t).map q.kept
  | .nil => rfl
  | .cons m v rest => by
    have ih := Probe.settle_get q hn rest
    by_cases h : m = n
    · subst h; simp [Probe.settle, hn, fieldGet]
    · simp only [Probe.settle]
      split
      · simp [fieldGet, h, ih]
      · split <;> simp [fieldGet, h, ih]

/-- A schema fails where it has failed before. -/
theorem none_mem_schemaWays : (ds : Schema) → {ws : Ways (Fields × Nat)} → none ∈ ws →
    none ∈ schemaWays c q outer j ws ds
  | .nil, _, h => by simpa [schemaWays] using h
  | .cons d rest, ws, h => by
    rw [schemaWays]
    refine none_mem_schemaWays rest ?_
    rw [List.mem_eraseDups, Ways.mem_bind]
    exact .inr ⟨h, rfl⟩

/-- A schema comes to what its rest comes to from a way of its first descriptor. -/
theorem mem_schemaWays {d : Desc} {rest : Schema} {ws : Ways (Fields × Nat)} {x : Option (Fields × Nat)}
    {s r : Fields × Nat} (hs : some s ∈ ws) (hr : some r ∈ descWays c q outer s.1 j s.2 d)
    (h : ∀ ws', some (q.settle (schemaLooks rest).names r.1, r.2) ∈ ws' → x ∈ schemaWays c q outer j ws' rest) :
    x ∈ schemaWays c q outer j ws (.cons d rest) := by
  rw [schemaWays]
  refine h _ ?_
  rw [List.mem_eraseDups, Ways.mem_bind]
  refine .inl ⟨s, hs, ?_⟩
  rw [Ways.mem_bind]
  exact .inl ⟨r, hr, by simp⟩

/-- A descriptor that fails from one way makes its schema fail. -/
theorem none_mem_schemaWays_cons {d : Desc} {rest : Schema} {ws : Ways (Fields × Nat)} {s : Fields × Nat}
    (hs : some s ∈ ws) (hd : none ∈ descWays c q outer s.1 j s.2 d) :
    none ∈ schemaWays c q outer j ws (.cons d rest) := by
  rw [schemaWays]
  refine none_mem_schemaWays rest ?_
  rw [List.mem_eraseDups, Ways.mem_bind]
  refine .inl ⟨s, hs, ?_⟩
  rw [Ways.mem_bind]
  exact .inr ⟨hd, rfl⟩

/-- What holds of every table after a descriptor that never fails. -/
theorem schemaWays_step_all {d : Desc} {rest : Schema} {ws : Ways (Fields × Nat)} (P Q : Fields → Prop)
    (h : ∀ w ∈ ws, ∃ s, w = some s ∧ P s.1)
    (hd : ∀ t cur, P t → ∀ w ∈ descWays c q outer t j cur d,
      ∃ s, w = some s ∧ Q (q.settle (schemaLooks rest).names s.1)) :
    ∀ w ∈ (ws.bind fun s => (descWays c q outer s.1 j s.2 d).bind fun r =>
      [some (q.settle (schemaLooks rest).names r.1, r.2)]).eraseDups, ∃ s, w = some s ∧ Q s.1 := by
  intro w hw
  rw [List.mem_eraseDups] at hw
  revert w
  refine Ways.bind_all h fun s hs => Ways.bind_all (hd s.1 s.2 hs) fun r hr w hw => ?_
  exact ⟨_, by simpa using hw, hr⟩

/-- Some capacity can always be chosen. -/
theorem Config.exists_completion (limit : Nat) : (fs : List String) → (c : Config) → ∃ c', c' ∈ c.completions limit fs
  | [], c => ⟨c, by simp [Config.completions]⟩
  | f :: rest, c => by
    rw [Config.completions]
    split
    · exact Config.exists_completion limit rest c
    · obtain ⟨c', h⟩ := Config.exists_completion limit rest { c with itemsPerFrame := c.itemsPerFrame ++ [(f, 0)] }
      exact ⟨c', List.mem_flatMap.2 ⟨0, by simp, h⟩⟩

/-- R189: a schema that fails on some payload, whatever the capacities, is not defined. -/
theorem schema_not_defined {ds : Schema} {start : Nat}
    (h : ∀ c', none ∈ schemaWays c' (Probe.of c (schemaLooks ds) none) t 0 [some (.nil, start)] ds) :
    (Parser.schema ds).defined c t start = false := by
  rw [Bool.eq_false_iff]
  intro hd
  simp only [Parser.defined, List.all_eq_true] at hd
  refine absurd (hd none ?_) (by simp)
  simp only [Parser.outcomes, List.flatMap_cons, List.mem_append, parserLooks, parserWays]
  obtain ⟨c', hc⟩ := Config.exists_completion (Probe.of c (schemaLooks ds) none).limit (schemaLooks ds).families c
  exact .inl (List.mem_flatMap.2 ⟨c', hc, Ways.mem_bind.2 (.inr ⟨Ways.mem_bind.2 (.inr ⟨h c', rfl⟩), rfl⟩)⟩)

/-- R189: a schema that tells no payload lengths apart and takes no family's capacity is defined where it never fails. -/
theorem schema_defined {ds : Schema} {start : Nat} (hl : (schemaLooks ds).lengths = []) (hf : (schemaLooks ds).families = [])
    (h : ∀ w ∈ schemaWays c (Probe.of c (schemaLooks ds) none) t 0 [some (.nil, start)] ds, ∃ s, w = some s ∧ True) :
    (Parser.schema ds).defined c t start = true := by
  simp only [Parser.defined, Parser.outcomes, parserLooks, parserWays, hl, hf, Config.completions, List.map_nil,
    List.flatMap_cons, List.flatMap_nil, List.append_nil, List.all_eq_true]
  intro w hw
  obtain ⟨s, rfl, _⟩ := Ways.bind_all (Q := fun _ => True) (Ways.bind_all (Q := fun _ => True) h
    fun s _ r hr => ⟨_, by simpa using hr, trivial⟩) (fun s _ r hr => ⟨_, by simpa using hr, trivial⟩) w hw
  rfl

end Sys2Proof.Machine
end

