-- ==== Sys2Proof/Tests/Slice0.lean ====
section
/-! SUPPORT. Tests of the model: well-formedness, decoding, one step per instruction, and a witness for the hypotheses of
every statement. Expected values come from spec/95_test_vectors.md (V and S numbers) or from the rule named. -/

namespace Sys2Proof.Tests

open Sys2Proof Sys2Proof.Machine

/-! ## Helpers -/

/-- FX in a state, with these bytes in its buffer. -/
def fxOf (st : FxState) (bs : List Byte) : Fx := (bs.foldl Fx.append Fx.reset).goto st

/-- The reset state with FX so. -/
def inFx (st : FxState) (bs : List Byte) : State := { State.reset with fx := fxOf st bs }

/-- The reset state with a capacity and FX so. -/
def capped (n : Nat) (st : FxState) (bs : List Byte) : State :=
  { inFx st bs with cfg := { Config.default with frameMax := some n } }

/-- The next state, if there is one. -/
def after : Out → Option State
  | .next s => some s
  | _ => none

/-- The refusal, if there is one. -/
def refusal : Out → Option Refusal
  | .refused r => some r
  | _ => none

/-- What the FX columns of the spec's tables show: the state, the buffer's contents, the label. -/
def fxView (o : Out) : Option (FxState × List Byte × Label) :=
  (after o).map fun s => (s.fx.st, s.fx.contents, s.label)

/-- The result after. -/
def resultOf (o : Out) : Option Result := (after o).bind State.result

/-- What an unpacker operation returned, and the cursor. -/
def retOf (o : Out) : Option (Option Ret × Nat) := (after o).map fun s => (s.ret, s.cur)

/-- What an unpacker operation returned. -/
def returned (o : Out) : Option Ret := (after o).bind State.ret

/-- The table and the cursor after. -/
def tabOf (o : Out) : Option (Fields × Nat) := (after o).map fun s => (s.tab, s.cur)

/-- The operation raised MalformedPayload. -/
def raised (o : Out) : Bool := resultOf o = some .malformedPayload

/-- An unsigned and a signed field. -/
def u (n : Nat) : Parser := .field ⟨n, false, false, .plain⟩
def i (n : Nat) : Parser := .field ⟨n, true, false, .plain⟩

/-- The context at reset. -/
def cx : Ctx := ⟨false, Config.default, .nil, 0⟩

/-! ## WellFormed: an ill-formed term for each check, refused -/

theorem test_wf_event_classes :
    [Instr.stoppedOther 0x10, .inmsgData 0x10, .firstOther 0x02, .escOther 0x10, .escOther 0x03,
      .encOther 0x10].all (fun j => !j.wf cx) = true := by decide

theorem test_wf_header_rows :
    [Instr.hdrShort [0, 0, 0, 0, 0, 0] .up, .hdrError [0] .up, .hdrError [0x40, 0, 0, 0, 0, 0] .up,
      .health [0, 0, 0, 0, 0, 64] .up, .health [0x40, 0, 0, 0, 0] .up, .spConfig [0x40, 0, 0, 0, 0, 255] .up, .vw [0x40] .up,
      .unmapped255 [0x40, 0, 0, 0, 0, 254] .up, .unknownType [0x40, 0, 0, 0, 0, 255] .up,
      .otherMapped [0, 0, 0, 0, 0, 1] .down].all (fun j => !j.wf cx) = true ∧
    [Instr.health [0x40, 0, 0, 0, 0, 7] .down, .spConfig [0x40, 0, 0, 0, 0, 8] .up, .vw [0x40, 0, 0, 0, 0, 9] .down].all
      (Instr.wf cx) = true := by decide

theorem test_wf_widths :
    [Instr.extract [] 0 0, .extract [] 0 33, .sext 0 0, .sext 256 8, .sentU 0 0, .sentS 0 0].all
      (fun j => !j.wf cx) = true := by decide

theorem test_wf_decoders :
    [Instr.lensel [] (.cons 6 (u 1) (.cons 6 (u 2) .nil)), .lensel [] (.cons 6 (u 0) .nil), .groups [] 0 1 (u 33),
      .groups [] 0 1 (.groups (.inline 0) (u 1)), .groups [] 0 1 (.field ⟨4, false, false, .named [(1, "x"), (1, "y")]⟩),
      .groups [] 0 1 (.select (.present "a") (u 8) (u 0)),
      .subdispatch [] 0 (.cons 1 (u 8) .nil), .subdispatch [] 0 (.cons 256 (.schema .nil) .nil),
      .subdispatch [] 0 (.cons 1 (.schema .nil) (.cons 1 (.schema .nil) .nil)), .aggregate [] 0 (u 0) (u 8),
      .aggregate [] 0 (u 8) (u 33)].all (fun j => !j.wf cx) = true := by decide

/-- A schema of plain unsigned fields, some with a condition. -/
def plainFields : List (String × Nat × Option Cond) → Schema
  | [] => .nil
  | (n, w, c) :: rest => .cons (.mk n w none false c .none) (plainFields rest)

theorem test_wf_schemas :
    [Instr.desc (.mk "a" 0 none false none .none), .desc (.mk "a" 33 none false none .none),
      .desc (.mk "a" 4 (some [(1, "x"), (1, "y")]) false none .none), .desc (.mk "a" 4 none false none (.some (u 0))),
      .schemaRun [] 0 (plainFields [("a", 4, none), ("a", 4, none)]),
      .schemaRun [] 0 (plainFields [("a", 4, some (.equals "b" (.int 1)))]),
      .schemaRun [] 0 (plainFields [("a", 4, some (.present "b"))])].all (fun j => !j.wf cx) = true := by decide

/-- R189: the second schema reads `a` only where `mode` is 1, and the third's `a` is always present. -/
theorem test_wf_conditions_defined :
    [plainFields [("mode", 2, none), ("a", 2, some (.equals "mode" (.int 1))), ("b", 4, some (.equals "a" (.int 3)))],
      plainFields [("mode", 2, none), ("a", 2, some (.equals "mode" (.int 1))),
        ("b", 4, some (.and (.equals "mode" (.int 1)) (.equals "a" (.int 3))))],
      plainFields [("mode", 2, none), ("a", 2, some (.lessThan "mode" 4)), ("b", 4, some (.equals "a" (.int 3)))],
      plainFields [("mode", 2, none), ("a", 2, some (.lessThan "mode" 3)), ("b", 4, some (.equals "a" (.int 3)))]].map
      (fun ds => (Instr.schemaRun [] 0 ds).wf cx) = [false, true, true, false] := by decide

/-- R189: conditions over a sentinel, a quotient, a name and an Unrecognized tag of sub-parsed and enumerated fields. -/
theorem test_wf_conditions_by_kind :
    [Cond.equals "t" .absent, .equals "t" (.rat (mkRat (-3) 2)), .lessThan "t" (mkRat 127 10), .lessThan "t" (mkRat 128 10)].map
      (fun c => (Instr.schemaRun [] 0 (.cons (.mk "t" 0 none false none (.some (.field ⟨8, true, true, .scaled (.places 1)⟩)))
        (.cons (.mk "a" 4 none false (some c) .none) (plainFields [("b", 4, some (.equals "a" (.int 0)))])))).wf
          cx) =
      [false, false, false, false] ∧
    (Instr.schemaRun [] 0 (.cons (.mk "k" 1 (some [(0, "off"), (1, "on")]) false none .none)
      (.cons (.mk "a" 4 none false (some (.not (.isUnrecognized "k"))) .none)
        (plainFields [("b", 4, some (.equals "a" (.int 0)))])))).wf cx = true := by decide +kernel

/-- R189: `a` is read by `b` and is always present: mode 0 takes it by the first part, mode 1 reads `x` from two bits. With
the bound 3 it is not: mode 1 and `x` = 3. -/
theorem test_wf_conditions_by_routine :
    [mkRat 4 1, mkRat 3 1].map (fun q => (Instr.schemaRun [] 0 (.cons (.mk "mode" 1 none false none .none)
      (.cons (.mk "x" 0 none false none (.some (.select (.equals "mode" (.int 1)) (u 2) (u 4))))
        (plainFields [("a", 4, some (.or (.equals "mode" (.int 0)) (.lessThan "x" q))),
          ("b", 4, some (.equals "a" (.int 3)))])))).wf cx) = [true, false] := by decide +kernel

/-- A schema whose field `a`, read by `b`, is present unless the sub-parser returns the value. -/
def unlessEqual (d : Parser) (v : Value) : Schema :=
  .cons (.mk "s" 0 none false none (.some d)) (.cons (.mk "a" 4 none false (some (.not (.equals "s" v))) .none)
    (plainFields [("b", 4, some (.equals "a" (.int 0)))]))

/-- R189: a byte is never 256, three groups are never four, two bits are never 4. -/
theorem test_wf_conditions_by_sub_parser :
    [unlessEqual (.unpack [.u1, .u1]) (.list (valuesOf [.int 1, .int 256])),
      unlessEqual (.unpack [.u1, .u1]) (.list (valuesOf [.int 1, .int 255])),
      unlessEqual (.groups (.inline 2) (u 4)) (.list (valuesOf [.int 1, .int 2, .int 3, .int 4])),
      unlessEqual (.groups (.inline 2) (u 4)) (.list (valuesOf [.int 1, .int 2, .int 3])),
      unlessEqual (.schema (plainFields [("k", 2, none)])) (.record (.cons "k" (.int 4) .nil)),
      unlessEqual (.schema (plainFields [("k", 2, none)])) (.record (.cons "k" (.int 3) .nil))].map
      (fun ds => (Instr.schemaRun [] 0 ds).wf cx) = [true, false, true, false, true, false] := by decide +kernel

/-- `a` is present in mode 1 alone, and `b` reads it. -/
def readsAbsent : List (String × Nat × Option Cond) :=
  [("mode", 2, none), ("a", 2, some (.equals "mode" (.int 1))), ("b", 4, some (.equals "a" (.int 3)))]

/-- R189: such a schema is refused as the sub-parser of a lone descriptor, but for one whose condition is false in the table
it goes on from. -/
theorem test_wf_lone_descriptor :
    let d := Desc.mk "s" 0 none false (some (.equals "k" (.int 1))) (.some (.schema (plainFields readsAbsent)))
    [1, 2].map (fun k => (Instr.desc d).wf { cx with tab := .cons "k" (.int k) .nil }) = [false, true] ∧
    (Instr.desc (.mk "s" 0 none false none (.some (.schema (plainFields readsAbsent))))).wf cx = false := by decide +kernel

/-- R189, R170: the capacity of a family not listed is free, and whatever it is, `b` reads `a` where it is absent; with a
frame number 0 the index is 0 for every capacity, so `c` is always present. -/
theorem test_wf_conditions_after_free :
    (Instr.schemaRun [] 0 (.cons (.mk "f" 4 none false none .none)
      (.cons (.mk "k" 0 none false none (.some (.absidx "f" .fromZero (.family "F"))))
        (plainFields (("c", 1, some (.lessThan "k" (mkRat 3 1))) :: readsAbsent))))).wf cx = false ∧
    [0, 1].map (fun f => (Instr.subdispatch [] 0 (.cons 1 (.schema
      (.cons (.mk "k" 0 none false none (.some (.absidx "f" .fromZero (.family "F"))))
        (plainFields [("c", 1, some (.lessThan "k" (mkRat 3 1))), ("d", 1, some (.equals "c" (.int 1)))]))) .nil)).wf
          { cx with tab := .cons "f" (.int f) .nil }) = [true, false] := by decide +kernel

theorem test_decode_refuses_by_name :
    [decode cx (.wire 0x1001), decode cx (.lay 0x68), decode cx (.uop 3 .none), decode cx (.uop 2 (.bits [] 0 33))]
      = [.error .wireWord, .error .layChar, .error .operandShape, .error .illFormed] := by decide

/-! ## Decoding: every constructor, by a word written out from spec/30_encoding.md -/

/-- R73: st in W[9:8], b in W[7:0]. -/
theorem test_decode_ext :
    [decode cx (.ext 0b00_0001_0000), decode cx (.ext 0b00_0000_0010), decode cx (.ext 0b01_0000_0010),
      decode cx (.ext 0b01_0001_0000), decode cx (.ext 0b10_0001_0000), decode cx (.ext 0b10_0000_0011),
      decode cx (.ext 0b11_0001_0000), decode cx (.ext 0b11_0000_0011), decode cx (.ext 0b11_0000_0010)]
      = [.ok .stoppedDle, .ok (.stoppedOther 2), .ok .firstStx, .ok (.firstOther 0x10), .ok .inmsgDle,
        .ok (.inmsgData 3), .ok .escDle, .ok .escEtx, .ok (.escOther 2)] := by decide

/-- R110: at capacity, in the place of INMSG.DATA and of ESC.DLE. -/
theorem test_decode_overflow :
    [decode { cx with full := true } (.ext 0x203), decode { cx with full := true } (.ext 0x310),
      decode { cx with full := true } (.ext 0x210), decode { cx with full := true } (.ext 0x303)]
      = [.ok (.overflow 3), .ok (.overflow 0x10), .ok .inmsgDle, .ok .escEtx] := by decide

/-- R38, R71, R126. -/
theorem test_decode_evt_wire_enc :
    [decode cx (.evt 0b00 0xFF), decode cx (.evt 0b01 0x41), decode cx (.evt 0b10 0), decode cx (.evt 0b11 0),
      decode cx (.wire 0b0001_0000_0000_0010), decode cx (.wire 0b0001_0000_0000_0011), decode cx (.enc 0b0001_0000),
      decode cx (.enc 0b0000_0011), decode cx (.encFrame [0x10])]
      = [.ok .evtNone, .ok (.evtByte 0x41), .ok .evtTimeout, .ok .evtError, .ok .wireStart, .ok .wireEnd, .ok .encDle,
        .ok (.encOther 3), .ok (.frame [0x10])] := by decide

/-- R74: V52, V53, S1, V58, S4, V57, by their bytes; R140: UP is port value 0, DOWN 1. -/
theorem test_decode_hdr :
    [decode cx (.hdr [0x40, 0x49, 0, 0, 0] 0), decode cx (.hdr [0x00, 0x49, 0, 0, 0, 0x40] 0),
      decode cx (.hdr [0x40, 0x49, 0, 0, 0, 0x40] 0), decode cx (.hdr [0x4A, 0x49, 0x12, 0x34, 7, 0x82, 0, 5] 0),
      decode cx (.hdr [0x40, 0x49, 0, 0, 0, 0xFF] 1), decode cx (.hdr [0x40, 0x49, 0, 0x2A, 1, 0x82, 0, 5] 1)]
      = [.ok (.hdrShort [0x40, 0x49, 0, 0, 0] .up), .ok (.hdrError [0x00, 0x49, 0, 0, 0, 0x40] .up),
        .ok (.health [0x40, 0x49, 0, 0, 0, 0x40] .up), .ok (.spConfig [0x4A, 0x49, 0x12, 0x34, 7, 0x82, 0, 5] .up),
        .ok (.unmapped255 [0x40, 0x49, 0, 0, 0, 0xFF] .down),
        .ok (.unknownType [0x40, 0x49, 0, 0x2A, 1, 0x82, 0, 5] .down)] := by decide

/-- R78, R146: the cells a configuration adds. -/
def openCfg : Config :=
  { Config.default with
    vwMsgType := 7
    upTable := [(8, .lacking), (9, .program 0 (.schema .nil)), (10, .program 4 (.schema (plainFields [("x", 8, none)]))),
      (11, .program 0 (u 8))]
    downTable := [(8, .health)] }

theorem test_decode_hdr_open_tables :
    [decode { cx with cfg := openCfg } (.hdr [0x40, 0, 0, 0, 0, 7] 0), decode { cx with cfg := openCfg } (.hdr [0x40, 0, 0, 0, 0, 8] 0),
      decode { cx with cfg := openCfg } (.hdr [0x40, 0, 0, 0, 0, 9] 0), decode { cx with cfg := openCfg } (.hdr [0x40, 0, 0, 0, 0, 7] 1),
      decode { cx with cfg := openCfg } (.hdr [0x40, 0, 0, 0, 0, 8] 1)]
      = [.ok (.vw [0x40, 0, 0, 0, 0, 7] .up), .ok (.otherMapped [0x40, 0, 0, 0, 0, 8] .up),
        .ok (.otherMapped [0x40, 0, 0, 0, 0, 9] .up), .ok (.unknownType [0x40, 0, 0, 0, 0, 7] .down), .ok (.health [0x40, 0, 0, 0, 0, 8] .down)] := by decide

/-- R79: the characters `!`, `I`, `H`, `B`, `b`, and R207's layout string. -/
theorem test_decode_lay :
    [decode cx (.lay 0b0010_0001), decode cx (.lay 0b0100_1001), decode cx (.lay 0b0100_1000),
      decode cx (.lay 0b0100_0010), decode cx (.lay 0b0110_0010)]
      = [.ok .layNetwork, .ok .layU32, .ok .layU16, .ok .layU8, .ok .layS8] := by decide

theorem test_parse_health_layout :
    parseLayout [0x21, 0x49, 0x49, 0x48, 0x62, 0x48, 0x42, 0x42] = some healthLayout ∧ layoutSize healthLayout = 15 := by
  decide

/-- R80, R81: the codes. -/
theorem test_decode_desc_uop :
    [decode cx (.desc (.mk "a" 4 none false none .none)), decode cx (.uop 0b0000 (.layout [1] [.u1])),
      decode cx (.uop 0b0001 (.alts [] .nil)), decode cx (.uop 0b0010 (.bits [0xA5] 1 3)),
      decode cx (.uop 0b0011 (.raw 5 3)), decode cx (.uop 0b0100 (.raw 1 1)), decode cx (.uop 0b0101 (.raw 2 2)),
      decode cx (.uop 0b0110 (.scaled (-205) 1)), decode cx (.uop 0b0111 (.coded 1250 3)),
      decode cx (.uop 0b1000 (.repeated [] 0 2 (u 12))), decode cx (.uop 0b1001 (.index 2 8 3)),
      decode cx (.uop 0b1010 (.nested [] 0 .nil)), decode cx (.uop 0b1011 (.pair [] 0 (u 8) (i 8))),
      decode cx (.uop 0b1100 (.program [] 0 .nil)), decode cx (.uop 0b1101 .none), decode cx (.uop 0b1110 .none),
      decode cx (.uop 0b1111 .none)]
      = [.ok (.desc (.mk "a" 4 none false none .none)), .ok (.unpackFixed [1] [.u1]), .ok (.lensel [] .nil),
        .ok (.extract [0xA5] 1 3), .ok (.sext 5 3), .ok (.sentU 1 1), .ok (.sentS 2 2), .ok (.scale (-205) 1),
        .ok (.unitscale 1250 3), .ok (.groups [] 0 2 (u 12)), .ok (.absidx 2 8 3), .ok (.subdispatch [] 0 .nil),
        .ok (.aggregate [] 0 (u 8) (i 8)), .ok (.schemaRun [] 0 .nil), .ok .unassigned1101, .ok .unassigned1110,
        .ok .unassigned1111] := by decide

/-- R89. -/
theorem test_decode_pseudo :
    [decode cx (.pseudo (.deframe [0x10])), decode cx (.pseudo (.nextFrame 5)), decode cx (.pseudo (.decode [1] 1)),
      decode cx (.pseudo (.nextMessage 5 0))]
      = [.ok (.deframe [0x10]), .ok (.nextFrame 5), .ok (.decode [1] .down), .ok (.nextMessage 5 .up)] := by decide

/-- The host's words, and the step that runs each right after reset. -/
theorem test_table_words :
    [decodeTableWord 16 0x010, decodeTableWord 16 0x302, decodeTableWord 8 1, decodeTableWord 16 0x1003,
      decodeTableWord 8 0x62, decodeTableWord 8 0b1011, decodeTableWord 48 0x400000000082,
      decodeTableWord 48 0x4000000000FF, decodeTableWord 48 0x400000000001]
      = [some .stoppedDle, some (.escOther 2), some (.evtByte 0), some .wireEnd, some .layS8,
        some (.aggregate [] 0 (.unpack []) (.unpack [])), some (.spConfig [0x40, 0, 0, 0, 0, 0x82] .up),
        some (.unmapped255 [0x40, 0, 0, 0, 0, 0xFF] .up),
        some (.vw [0x40, 0, 0, 0, 0, 1] .up)] := by decide

theorem test_step_runs_the_fetched_word :
    fxView (step (State.reset.withFetchWord 16 0x102)) = some (.inMessage, [], .none) ∧
    resultOf (step (State.reset.withFetchWord 48 0x0049_0000_0040)) = some .headerError ∧
    refusal (step (State.reset.withFetchWord 8 0b1101)) = some .unassignedUop := by decide

/-- R236: the code of HeaderError is on the port after its step, and gone after the next; reset alone idles (R38). -/
theorem test_strobe_lasts_one_step :
    (after (step (State.reset.withFetchWord 48 0x0049_0000_0040))).map (fun s => (strobe s, (after (step s)).map strobe)) =
      some (some 4, some none) := by decide
theorem test_reset_idles : after (step State.reset) = some State.reset := by decide

/-! ## Single steps of FX (spec/95 2.1, 2.3) -/

theorem test_v1 : fxView (exec .stoppedDle (inFx .stopped [])) = some (.firstDelimiter, [], .none) := by decide
theorem test_v2 : fxView (exec (.stoppedOther 2) (inFx .stopped [])) = some (.stopped, [], .none) := by decide
theorem test_v3 : fxView (exec .firstStx (inFx .firstDelimiter [])) = some (.inMessage, [], .none) := by decide
theorem test_v4 : fxView (exec (.firstOther 0x10) (inFx .firstDelimiter [])) = some (.stopped, [], .none) := by decide
theorem test_v5 : fxView (exec .inmsgDle (inFx .inMessage [0x41])) = some (.inMessageEscape, [0x41], .none) := by decide
theorem test_v6 : fxView (exec (.inmsgData 3) (inFx .inMessage [0x41])) = some (.inMessage, [0x41, 3], .none) := by decide
theorem test_v7 :
    fxView (exec .escDle (inFx .inMessageEscape [0x41, 0x42])) = some (.inMessage, [0x41, 0x42, 0x10], .none) := by decide
theorem test_v8 :
    fxView (exec .escEtx (inFx .inMessageEscape [0x41, 0x42, 0x10, 0x43])) =
      some (.stopped, [], .frame [0x41, 0x42, 0x10, 0x43]) := by decide
theorem test_v9 : fxView (exec (.escOther 2) (inFx .inMessageEscape [0x41])) = some (.stopped, [], .framingError) := by
  decide
theorem test_v10 : fxView (exec .escEtx (inFx .inMessageEscape [])) = some (.stopped, [], .frame []) := by decide
theorem test_v11 : fxView (exec .evtTimeout (inFx .inMessage [0x41])) = some (.inMessage, [0x41], .timedOut) := by decide
theorem test_v12 : fxView (exec .evtError (inFx .inMessage [0x41])) = some (.inMessage, [0x41], .transportError) := by
  decide
theorem test_v13 : fxView (exec (.evtByte 3) (inFx .firstDelimiter [])) = some (.stopped, [], .none) := by decide
theorem test_v25 : fxView (exec (.overflow 0x43) (capped 2 .inMessage [0x41, 0x42])) = some (.stopped, [], .overflow) := by
  decide
theorem test_v26 : fxView (exec (.overflow 0x10) (capped 2 .inMessageEscape [0x41, 0x42])) = some (.stopped, [], .overflow) := by
  decide
theorem test_evt_none : after (exec .evtNone (inFx .inMessage [0x41])) = some (inFx .inMessage [0x41]) := by decide

/-- R112, U4: nothing after an error, until reset. -/
theorem test_after_error :
    refusal (exec (.evtByte 3) { State.reset with failed := true }) = some .eventAfterTransportError := by decide
theorem test_reset_pin :
    fxView (step { inFx .inMessage [0x41] with failed := true, reqs := [.rst] }) = some (.stopped, [], .none) := by decide

/-! ## Runs and calls (S3, V24, V27, V35, P3) -/

theorem test_s3 : resultOf (exec (.deframe [0x10, 2, 0x41, 0x42, 0x10, 0x10, 0x43, 0x10, 3]) State.reset) =
    some (.frames [[0x41, 0x42, 0x10, 0x43]]) := by decide
theorem test_v27_v35 :
    deframe (some 2) [0x10, 2, 0x41, 0x42, 0x43, 0x10, 2, 0x44, 0x10, 3] = [[0x44]] ∧
    deframe none [0x10, 2, 0x55, 0x10, 0x10, 2, 0x41, 0x10, 3] = [[0x55, 0x10, 2, 0x41]] := by decide

/-- What a call leaves: the result, the FX state, and the answers not read. -/
def callView (o : Out) : Option (Option Result × FxState × List Answer) :=
  (after o).map fun s => (s.result, s.fx.st, s.line)

/-- P3, call 1, from event 5 on: the framing error does not end the call, the timeout does, the message stays open. -/
theorem test_p3_call1 :
    callView (exec (.nextFrame 9) { inFx .inMessageEscape [0x41] with
        line := [.byte 4, .byte 0x10, .byte 2, .byte 0x40, .timeout, .byte 0x2A] }) =
      some (some .timedOut, .inMessage, [.byte 0x2A]) := by decide
/-- P3, call 2, from event 18 on, through nextMessage. -/
theorem test_p3_call2 :
    callView (exec (.nextMessage 9 .up) { inFx .inMessageEscape [0x40, 0x49, 0, 0x2A, 1, 0x82, 0, 5] with
        line := [.byte 3, .timeout] }) =
      some (some (.ok ⟨42, 73, 1, 130⟩ (.cons "SamplingPeriod" (.int 5) .nil)), .stopped, [.timeout]) := by decide
theorem test_call_blocks :
    (after (exec (.nextFrame 9) { State.reset with line := [.byte 0x10, .noData] })).map (fun s => (s.call, s.fx.st)) =
      some (some (.nextFrame 9), .firstDelimiter) := by decide

/-! ## The encoder (spec/95 2.5) -/

theorem test_v44 : (after (exec (.frame [0x41, 0x10, 0x42]) State.reset)).map State.wire =
    some [0x10, 2, 0x41, 0x10, 0x10, 0x42, 0x10, 3] := by decide
theorem test_enc_rows :
    (after (exec .encDle State.reset)).map State.wire = some [0x10, 0x10] ∧
    (after (exec (.encOther 3) { State.reset with wire := [9] })).map State.wire = some [9, 3] ∧
    (after (exec .wireStart State.reset)).map State.wire = some [0x10, 2] ∧
    (after (exec .wireEnd State.reset)).map State.wire = some [0x10, 3] := by decide

/-! ## Decodes (spec/95 2.6, 2.9) -/

theorem test_v51 : resultOf (exec (.hdrShort [] .up) State.reset) = some .malformedPayload := by decide
theorem test_v54 : resultOf (exec (.hdrError [0xBF, 0, 0xFF, 0xFF, 0xFF, 0xFF] .up) State.reset) = some .headerError := by
  decide
theorem test_v55 : resultOf (exec (.unmapped255 [0xFF, 0, 0xFF, 0xFF, 0xFF, 0xFF] .up) State.reset) =
    some (.unknownType ⟨1048575, 0, 255, 255⟩) := by decide
theorem test_v57 : resultOf (exec (.unknownType [0x40, 0x49, 0, 0x2A, 1, 0x82, 0, 5] .down) State.reset) =
    some (.unknownType ⟨42, 73, 1, 130⟩) := by decide
theorem test_v58 : resultOf (exec (.spConfig [0x4A, 0x49, 0x12, 0x34, 7, 0x82, 0, 5] .up) State.reset) =
    some (.ok ⟨660020, 73, 7, 130⟩ (.cons "SamplingPeriod" (.int 5) .nil)) := by decide
theorem test_v86_v87 :
    spConfigPayload [0x01, 0x2C] = .ok (.cons "SamplingPeriod" (.int 300) .nil) ∧ spConfigPayload [0] = .malformed := by
  decide

/-- V80's payload. -/
def v80 : List Byte := [0x65, 0x4F, 0x10, 0, 0, 1, 0x51, 0x80, 0x0E, 0x10, 0xEC, 0x30, 0x39, 2, 7]

theorem test_v80 : resultOf (exec (.health ([0x40, 0x49, 0, 0, 0, 0x40] ++ v80) .up) State.reset) =
    some (.ok ⟨0, 73, 0, 64⟩ (.cons "Time" (.int 1699680256) (.cons "Uptime" (.int 86400) (.cons "Battery" (.int 3600)
      (.cons "Temperature" (.int (-20)) (.cons "SN" (.int 12345)
      (.cons "FW" (.list (.cons (.int 2) (.cons (.int 7) .nil))) .nil))))))) := by decide
theorem test_v83 : raised (exec (.health ([0x40, 0x49, 0, 0, 0, 0x40] ++ v80.take 14) .up) State.reset) = true := by decide

/-- V90's payload. -/
def v90 : List Byte := [0x65, 0x4F, 0x10, 0, 3, 0xF2, 1, 2, 3, 4, 5, 6, 7, 8]

theorem test_v90 : resultOf (exec (.vw ([0x40, 0, 0, 0, 0, 7] ++ v90) .up) { State.reset with cfg := openCfg }) =
    some (.ok ⟨0, 0, 0, 7⟩ (.cons "Time" (.int 1699680256) (.cons "Pressure" (.int 1010) (.cons "ChannelCount" (.int 1)
      (.cons "Channels" (.list (.cons (.list (byteValues [1, 2, 3, 4, 5, 6, 7, 8])) .nil)) .nil))))) := by decide
/-- R29: the decoder of type 10 names bit 4 as its start. -/
theorem test_program_start :
    resultOf (exec (.otherMapped [0x40, 0, 0, 0, 0, 10, 0x12, 0x34] .up) { State.reset with cfg := openCfg }) =
      some (.ok ⟨0, 0, 0, 10⟩ (.cons "x" (.int 0x23) .nil)) := by decide
theorem test_v94 : raised (exec (.vw ([0x40, 0, 0, 0, 0, 7] ++ v90.take 13) .up) { State.reset with cfg := openCfg }) = true := by
  decide
theorem test_other_mapped :
    refusal (exec (.otherMapped [0x40, 0, 0, 0, 0, 8] .up) { State.reset with cfg := openCfg }) = some .decoderLacking ∧
    resultOf (exec (.otherMapped [0x40, 0, 0, 0, 0, 9] .up) { State.reset with cfg := openCfg }) =
      some (.ok ⟨0, 0, 0, 9⟩ .nil) := by decide
theorem test_p1_decode : resultOf (exec (.decode [0x41, 0x42, 0x10, 0x43] .up) State.reset) = some .malformedPayload := by
  decide
theorem test_v56 : resultOf (exec (.decode [0x40, 0x49, 0, 0, 0, 0xFF, 1, 2, 3] .up) State.reset) =
    some (.unknownType ⟨0, 73, 0, 255⟩) := by decide

/-! ## Layout characters (V120, V121 one item at a time) -/

/-- A payload with the byte index at `a`. -/
def reading (p : List Byte) (a : Nat) : State := { State.reset with pay := p, pos := a }

theorem test_lay_network : (after (exec .layNetwork (reading [1, 2] 2))).map (fun s => (s.pos, s.items)) = some (0, []) := by
  decide
theorem test_lay_u32 : (after (exec .layU32 (reading [0, 0, 0, 0x2A, 0xFF, 0xFE] 0))).map (fun s => (s.pos, s.items)) =
    some (4, [42]) := by decide
theorem test_lay_u16 : (after (exec .layU16 (reading [0, 0, 0, 0x2A, 0xFF, 0xFE] 4))).map (fun s => (s.pos, s.items)) =
    some (6, [65534]) := by decide
theorem test_lay_u8 : (after (exec .layU8 (reading [0x80, 0x7F, 0xFF] 2))).map (fun s => (s.pos, s.items)) =
    some (3, [255]) := by decide
theorem test_lay_s8 : (after (exec .layS8 (reading [0x80, 0x7F, 0xFF] 0))).map (fun s => (s.pos, s.items)) =
    some (1, [-128]) := by decide
theorem test_lay_past_end : raised (exec .layU16 (reading [0] 0)) = true := by decide

/-! ## The unpacker (spec/95 2.7 to 2.12) -/

theorem test_v120 : returned (exec (.unpackFixed [0, 0, 0, 0x2A, 0xFF, 0xFE, 0x99] [.u4, .u2]) State.reset) =
    some (.items [42, 65534]) := by decide
theorem test_v122 : raised (exec (.unpackFixed [0, 0, 0, 0x2A, 0xFF] [.u4, .u2]) State.reset) = true := by decide
theorem test_v124 :
    returned (exec (.lensel [1, 2] (.cons 6 (u 1) (.cons 2 (u 2) .nil))) State.reset) = some (.selected (u 2)) ∧
    raised (exec (.lensel [1, 2, 3] (.cons 6 (u 1) (.cons 2 (u 2) .nil))) State.reset) = true := by decide
theorem test_v104 : returned (exec (.extract [0xA5, 0x3C, 0xF0] 3 13) State.reset) = some (.value (.int 1340)) := by decide
theorem test_v111 : raised (exec (.extract [0xA5, 0x3C, 0xF0] 20 5) State.reset) = true := by decide
theorem test_v115 :
    extract [0xFF, 0, 0xFF, 0, 0xFF] 7 32 = .ok 0x807F807F ∧ extractBytes [0xFF, 0, 0xFF, 0, 0xFF] 7 32 = 0x807F807F := by
  decide
theorem test_v64 : returned (exec (.sext 0x801 12) State.reset) = some (.value (.int (-2047))) := by decide
theorem test_v66 : returned (exec (.sext 3 3) State.reset) = some (.value (.int 3)) := by decide
theorem test_v68 :
    returned (exec (.sentU 0xFFFF 16) State.reset) = some (.flag true) ∧
    returned (exec (.sentU 0xFFFE 16) State.reset) = some (.flag false) := by decide
theorem test_v69 :
    returned (exec (.sentS 0x8000 16) State.reset) = some (.flag true) ∧
    returned (exec (.sentS 0xFFFF 16) State.reset) = some (.flag false) := by decide
/-- A signed, sentinel-bearing field of 12 bits with one decimal place. -/
def tenths : FieldSpec := ⟨12, true, true, .scaled (.places 1)⟩

theorem test_v70_v71 :
    fieldValue Config.default .nil tenths 0x800 = .absent ∧
    fieldValue Config.default .nil tenths 0x801 = .rat (mkRat (-2047) 10) := by decide
theorem test_v72 :
    returned (exec (.scale (-205) 1) State.reset) = some (.value (.rat (mkRat (-41) 2))) ∧
    returned (exec (.scale 7 0) State.reset) = some (.value (.int 7)) := by decide
/-- V73, V74: the hypothetical UNIT_TABLE with 3: ("mm", 2). -/
theorem test_v73_v74 :
    returned (exec (.unitscale 1250 3) { State.reset with cfg := { Config.default with unitTable := [(3, "mm", 2)] } }) =
      some (.value (.list (.cons (.rat (mkRat 25 2)) (.cons (.str "mm") .nil)))) ∧
    returned (exec (.unitscale 1250 9) { State.reset with cfg := { Config.default with unitTable := [(3, "mm", 2)] } }) =
      some (.value (.list (.cons (.int 1250) (.cons (.unrecognized 9) .nil)))) := by decide
theorem test_v75 : retOf (exec (.groups [0xAB, 0xCD, 0xEF] 0 2 (u 12)) State.reset) =
    some (some (.values (.cons (.int 2748) (.cons (.int 3567) .nil))), 24) := by decide
theorem test_v76 : raised (exec (.groups [0xAB, 0xCD, 0xEF] 0 3 (u 12)) State.reset) = true := by decide
theorem test_v78 : returned (exec (.absidx 2 8 3) State.reset) = some (.value (.int 19)) := by decide

/-- R156, U9: a float item is refused before anything is read. -/
theorem test_float_item_refused : unpackAtCursor [0] 0 [.u1, .f4] = .refuse .floatItem := by decide
/-- R169, R170: an index within a group, its frame number counted from one, its capacity decoded before. -/
def indexed (base : Numbering) (cap : Capacity) : Parser :=
  .groups (.fixed 2) (.schema (.cons (.mk "k" 0 none false none (.some (.absidx "f" base cap))) .nil))

theorem test_absidx_in_group :
    (runParser { Config.default with itemsPerFrame := [("F", 8)] } [] (.cons "f" (.int 2) .nil) 0 0
        (indexed .fromZero (.family "F"))) =
      .ok (.list (valuesOf [.record (.cons "k" (.int 16) .nil), .record (.cons "k" (.int 17) .nil)]), 0) ∧
    (runParser Config.default [] (.cons "f" (.int 2) (.cons "n" (.int 5) .nil)) 0 0 (indexed .fromOne (.named "n"))) =
      .ok (.list (valuesOf [.record (.cons "k" (.int 5) .nil), .record (.cons "k" (.int 6) .nil)]), 0) := by decide
/-- R166, R168: a name that holds no number of the range gives a free value. -/
theorem test_free_values (v : Int) (h : v < 0) :
    namedNat (.cons "n" (.int v) .nil) "n" = Config.freeNat (.cons "n" (.int v) .nil) "n" ∧
    namedInt (.cons "n" .absent .nil) "n" = Config.freeInt (.cons "n" .absent .nil) "n" := by
  simp [namedNat, namedFrom, numberUnder, namedInt, codeUnder, fieldGet, Int.not_le.2 h]
/-- R192, R193: a routine chosen by a value decoded before, and a nested run that reads the table around it. -/
theorem test_select :
    runSchema Config.default [0x12, 0x34] .nil .nil 0 0
      (.cons (.mk "mode" 4 none false none .none) (.cons (.mk "x" 0 none false none
        (.some (.select (.equals "mode" (.int 1)) (.schema (.cons (.mk "y" 0 none false none
          (.some (.groups (.named "mode") (u 4)))) .nil)) (u 8)))) .nil)) =
      .ok (.cons "mode" (.int 1) (.cons "x" (.record (.cons "y" (.list (.cons (.int 2) .nil)) .nil)) .nil), 8) := by decide

/-- V130's sub-table: 1 is one 16-bit unsigned field x. -/
def subTable : Alts := .cons 1 (.schema (.cons (.mk "x" 16 none false none .none) .nil)) .nil

theorem test_v130 : retOf (exec (.subdispatch [1, 0, 0x2A] 0 subTable) State.reset) =
    some (some (.value (.record (.cons "subType" (.int 1) (.cons "x" (.int 42) .nil)))), 24) := by decide
theorem test_v131_v132 :
    retOf (exec (.subdispatch [7, 0, 0x2A] 0 subTable) State.reset) =
      some (some (.value (.record (.cons "subType" (.unrecognized 7) .nil))), 8) ∧
    raised (exec (.subdispatch [1, 0] 0 subTable) State.reset) = true := by decide
theorem test_v133 :
    retOf (exec (.aggregate [2, 5] 0 (.schema (.cons (.mk "v1" 8 none false none .none) .nil))
      (.schema (.cons (.mk "v2" 8 none false none .none) .nil))) State.reset) =
    some (some (.value (.record (.cons "first" (.record (.cons "v1" (.int 2) .nil))
      (.cons "second" (.record (.cons "v2" (.int 5) .nil)) .nil)))), 16) := by decide

/-- V134's schema. -/
def schemaD : Schema :=
  .cons (.mk "mode" 2 none false none .none) (.cons (.mk "a" 6 none false (some (.equals "mode" (.int 1))) .none)
    (.cons (.mk "b" 4 none true none .none) .nil))

theorem test_v134 : tabOf (exec (.schemaRun [0x4F, 0x90] 0 schemaD) State.reset) =
    some (.cons "mode" (.int 1) (.cons "a" (.int 15) (.cons "b" (.int (-7)) .nil)), 12) := by decide
theorem test_v135_v136 :
    tabOf (exec (.schemaRun [0x8F, 0x90] 0 schemaD) State.reset) =
      some (.cons "mode" (.int 2) (.cons "b" (.int 3) .nil), 6) ∧
    raised (exec (.schemaRun [0x4F] 0 schemaD) State.reset) = true := by decide
/-- V138, the first descriptor, and a condition on a name the table lacks (U14). -/
theorem test_v138 :
    tabOf (exec (.desc (.mk "kind" 4 (some [(0, "off"), (1, "on")]) false none .none)) { State.reset with pay := [0x1F] }) =
      some (.cons "kind" (.str "on") .nil, 4) ∧
    tabOf (exec (.desc (.mk "kind" 4 (some [(0, "off"), (1, "on")]) false none .none)) { State.reset with pay := [0x78] }) =
      some (.cons "kind" (.unrecognized 7) .nil, 4) := by decide
theorem test_desc_refused :
    refusal (exec (.desc (.mk "a" 4 none false (some (.equals "mode" (.int 1))) .none)) State.reset) =
      some .conditionReadsAbsentName := by decide
theorem test_unassigned :
    [exec .unassigned1101 State.reset, exec .unassigned1110 State.reset, exec .unassigned1111 State.reset].map refusal =
      [some .unassignedUop, some .unassignedUop, some .unassignedUop] := by decide

/-- R39, R35: the numeric codes on the ports. -/
theorem test_codes :
    resultCode .headerError = 4 ∧ resultCode (.unknownType ⟨0, 0, 0, 255⟩) = 6 ∧ labelCode .overflow = some 7 ∧
    labelReachesCaller .framingError = false ∧ statusSt (inFx .inMessage [1]) = 2 ∧ statusLen (inFx .inMessage [1]) = 1 := by
  decide

/-! ## Witnesses: concrete states and operands that meet the hypotheses of each statement -/

/-- A state with a call in progress. -/
def calling (c : Call) (s : State) : State := { s with call := some c }

theorem witness_StoppedStepsHuntForDle :
    (inFx .stopped []).failed = false ∧ (inFx .stopped []).fx.st = .stopped ∧ (0 : Byte) ≠ DLE ∧ (0xFF : Byte) ≠ DLE := by
  decide
theorem witness_FirstDelimiterStepsOpenOrResync :
    (inFx .firstDelimiter []).failed = false ∧ (inFx .firstDelimiter []).fx.st = .firstDelimiter ∧ DLE ≠ STX := by decide
theorem witness_InMessageStepsEscapeOrAppend :
    (capped 2 .inMessage [0x41]).failed = false ∧ (capped 2 .inMessage [0x41]).fx.st = .inMessage ∧ STX ≠ DLE ∧
    (capped 2 .inMessage [0x41]).cfg.frameMax = some 2 ∧ (capped 2 .inMessage [0x41]).fx.len < 2 ∧
    (inFx .inMessage [0x41]).cfg.frameMax = none := by decide

/-- FX about to end a message, under the open configuration. -/
def atEnd (bs : List Byte) : State := { inFx .inMessageEscape bs with cfg := openCfg }

theorem witness_EscapeStepsAppendOrAbort :
    (capped 2 .inMessageEscape [1]).failed = false ∧ (capped 2 .inMessageEscape [1]).fx.st = .inMessageEscape ∧
    (capped 2 .inMessageEscape [1]).cfg.frameMax = some 2 ∧ (capped 2 .inMessageEscape [1]).fx.len < 2 ∧
    (atEnd [1]).cfg.frameMax = none ∧ STX ≠ DLE ∧ STX ≠ ETX := by decide
/-- One clause each: no call, nextFrame, nextMessage with a decode that returns and with one that is refused. -/
theorem witness_EtxEmitsTheContents :
    (atEnd [1]).failed = false ∧ (atEnd [1]).fx.st = .inMessageEscape ∧ (atEnd [1]).call = none ∧
    (calling (.nextFrame 0) (atEnd [1])).call = some (.nextFrame 0) ∧
    after (exec (.decode (atEnd [1]).fx.contents .up) (calling (.nextMessage 0 .up) (atEnd [1]))) =
      some { calling (.nextMessage 0 .up) (atEnd [1]) with result := some .malformedPayload } ∧
    refusal (exec (.decode [0x40, 0, 0, 0, 0, 8] .up) (atEnd [0x40, 0, 0, 0, 0, 8])) = some .decoderLacking := by decide
theorem witness_OverflowReplacesAppendAtCapacity :
    (capped 0 .inMessage []).cfg.frameMax = some (capped 0 .inMessage []).fx.len ∧
    (capped 2 .inMessage [1, 2]).cfg.frameMax = some (capped 2 .inMessage [1, 2]).fx.len ∧
    (capped 2 .inMessage [1, 2]).failed = false ∧ (capped 2 .inMessage [1, 2]).fx.st = .inMessage ∧
    (capped 2 .inMessageEscape [1, 2]).cfg.frameMax = some (capped 2 .inMessageEscape [1, 2]).fx.len ∧
    (capped 2 .inMessageEscape [1, 2]).fx.st = .inMessageEscape := by decide
theorem witness_EveryStateAndByteSelectsItsRow :
    (inFx .inMessage [1]).failed = false ∧ (inFx .inMessage [1]).call = none := by decide
theorem witness_TimeoutAndErrorWriteNoRegister :
    (inFx .inMessage [1]).failed = false ∧ (inFx .inMessage [1]).call = none ∧
    (calling (.nextFrame 3) (inFx .inMessage [1])).call = some (.nextFrame 3) ∧
    { inFx .inMessage [1] with failed := true }.failed = true ∧ isEventRow (.escOther 1) = true ∧
    { inFx .inMessage [1] with failed := true }.call = none := by decide
/-- A row that lengthens the contents and one that does not, and a buffer in canonical form. -/
theorem witness_EventRowsStoreOnlyAtLen :
    isEventRow (.inmsgData 7) = true ∧ (after (exec (.inmsgData 7) (inFx .inMessage [1]))).isSome ∧
    isEventRow .inmsgDle = true ∧ (after (exec .inmsgDle (inFx .inMessage [1]))).isSome ∧
    (fxOf .inMessage [1, 0, 2]).buf.wf = true := by decide
theorem witness_UnitsLeaveEachOthersStateAlone :
    isEventRow .escEtx = true ∧ (after (exec .escEtx (inFx .inMessageEscape [1]))).isSome ∧
    stepsFx (.sext 5 3) = false ∧ (after (exec (.sext 5 3) (inFx .inMessage [1]))).isSome := by decide
theorem witness_ConfigurationNeverWritten :
    (after (step (capped 2 .inMessage [1]))).isSome ∧
    (after (step { capped 2 .inMessage [1] with reqs := [.rst] })).isSome ∧
    (after (step { capped 2 .inMessage [1] with line := [.byte 3] })).isSome := by decide
theorem witness_DelimiterStatesLastOneByte :
    (inFx .firstDelimiter []).failed = false ∧ (inFx .firstDelimiter []).call = none ∧
    (inFx .firstDelimiter []).fx.st = .firstDelimiter ∧ (inFx .inMessageEscape [1]).failed = false ∧
    (inFx .inMessageEscape [1]).call = none ∧ (inFx .inMessageEscape [1]).fx.st = .inMessageEscape := by decide
theorem witness_ResetIsANewInstance :
    { inFx .inMessage [1] with reqs := [.rst, .op (.evt 0 0)] }.reqs = .rst :: [.op (.evt 0 0)] := by decide
theorem witness_StepsFollowTheBytesWhateverTheTimeouts :
    let s : State := { inFx .inMessage [1] with line := [.byte 2, .timeout, .noData, .byte 0x10, .error] }
    s.reqs = [] ∧ s.call = none ∧ s.failed = false ∧
    s.line = [.byte 2, .timeout, .noData, .byte 0x10] ++ [.error] ∧
    Answer.error ∉ [Answer.byte 2, .timeout, .noData, .byte 0x10] := by decide
/-- An unbounded and an exactly filled buffer, the second with stale bytes. -/
theorem witness_RoundTripFromStopped :
    (∀ n, (none : Option Nat) = some n → [DLE, DLE].length ≤ n) ∧ (∀ n, some 2 = some n → [DLE, DLE].length ≤ n) ∧
    ((fxOf .inMessage [9]).clear.goto .stopped).st = .stopped ∧ ((fxOf .inMessage [9]).clear.goto .stopped).len = 0 ∧
    ((fxOf .inMessage [9]).clear.goto .stopped).buf.wf = true :=
  ⟨fun _ h => by simp at h, fun n h => by cases h; decide, by decide, by decide, by decide⟩
theorem witness_DeframeCollectsFrames :
    ∀ n, (capped 1 .stopped []).cfg.frameMax = some n → [DLE].length ≤ n := fun n h => by
  cases h
  decide
/-- The four clauses: noise without a DLE, and noise that ends in each state (V30, V33, V34, V35). -/
theorem witness_ResynchronisationAsFarAsItIsTrue :
    DLE ∉ [(0x55 : Byte), 0xAA] ∧ (Fx.reset.run none [0x55, 0xAA]).1.st = .stopped ∧
    (Fx.reset.run none [0x10]).1.st = .firstDelimiter ∧ (Fx.reset.run none [0x10, 2, 0x55]).1.st = .inMessage ∧
    (Fx.reset.run (some 4) [0x10, 2, 0x55, 0x10]).1.st = .inMessageEscape ∧
    (Fx.reset.run (some 4) [0x10, 2, 0x55, 0x10]).1.len + 2 + [(0x41 : Byte)].length ≤ 4 := by decide
theorem witness_OnlyOddDleRunsOpenAMessage : Fx.reset.st = .stopped := by decide
theorem witness_OversizedMessageEmitsNothing :
    0 < [DLE].length ∧ 2 < [(1 : Byte), 2, 3].length ∧ Fx.reset.st = .stopped ∧ Fx.reset.len = 0 := by decide
/-- Two states with different stale bytes. -/
theorem witness_StaleBufferBytesAreNeverObserved :
    ({ State.reset with fx := (fxOf .inMessage [7, 8]).clear } : State).sameVisible
      { State.reset with fx := (fxOf .inMessage [9]).clear } ∧
    (fxOf .inMessage [7, 8]).clear.buf.wf = true ∧ (fxOf .inMessage [9]).clear.buf.wf = true ∧
    (fxOf .inMessage [7, 8]).clear ≠ (fxOf .inMessage [9]).clear :=
  ⟨⟨⟨rfl, rfl, fun a h => absurd h (Nat.not_lt_zero a)⟩, rfl⟩, by decide, by decide, by decide⟩
/-- The four ways the reads go on, after answers that end nothing. -/
theorem witness_NextFrameReturnsFirstOutcome :
    (inFx .inMessageEscape [1]).call = none ∧ (inFx .inMessageEscape [1]).failed = false ∧
    (∀ a ∈ [Answer.noData], a ≠ .timeout ∧ a ≠ .error) ∧
    framesOf ((fxOf .inMessageEscape [1]).run none (bytesOf [.noData])).2 = [] ∧
    (((fxOf .inMessageEscape [1]).run none (bytesOf [.noData])).1.byte none 3).2 = .frame [1] ∧
    { inFx .inMessageEscape [1] with line := [.noData, .byte 3, .timeout] }.line = [.noData] ++ .byte 3 :: [.timeout] ∧
    { inFx .inMessageEscape [1] with line := [.noData, .timeout] }.line = [.noData] ++ .timeout :: [] ∧
    { inFx .inMessageEscape [1] with line := [.noData, .error] }.line = [.noData] ++ .error :: [] ∧
    { inFx .inMessageEscape [1] with line := [.noData] }.line = [.noData] := by decide
theorem witness_CallsReceiveAWireMessage :
    let s : State := { capped 2 .stopped [] with line := (frameOf [0x41, 0x10]).map .byte ++ [.timeout] }
    s.call = none ∧ s.failed = false ∧ s.fx.st = .stopped ∧ s.fx.len = 0 ∧ s.fx.buf.wf = true ∧
    s.cfg.frameMax = some [(0x41 : Byte), 0x10].length ∧
    s.line = (frameOf [0x41, 0x10]).map .byte ++ [.timeout] ∧
    after (exec (.decode [0x41, 0x10] .down) s) = some { s with result := some .malformedPayload } ∧
    selectHdr s.cfg [0x41, 0x10] .down ≠ .otherMapped := by decide
/-- A call that blocks, one that returns a frame, one that times out. -/
theorem witness_NextMessageIsNextFrameThenDecode :
    (after (exec (.nextFrame 1) (inFx .stopped []))).map State.call = some (some (.nextFrame 1)) ∧
    (after (exec (.nextFrame 1) { inFx .inMessageEscape [] with line := [.byte 3] })).map (fun t => (t.call, t.result)) =
      some (none, some (.frame [])) ∧
    (after (exec (.nextFrame 1) { inFx .stopped [] with line := [.timeout] })).map (fun t => (t.call, t.result)) =
      some (none, some .timedOut) := by decide
theorem witness_EncoderSendsEscapedFrame : (0x0F : Byte) ≠ 0x10 ∧ (0x11 : Byte) ≠ 0x10 := by decide
theorem witness_UnreadHeaderBitsDoNotMatter :
    (0x4A : Byte) &&& 0x4F = 0xFA &&& 0x4F ∧ (0x05 : Byte) &&& 0x4F = 0xB5 &&& 0x4F := by decide
/-- Each clause: lengths 5 and 6, the marker clear and set, an unmapped type, a row other than OTHER_MAPPED. -/
theorem witness_DecodeRunsTheRowSelected :
    [(0x40 : Byte), 0, 0, 0, 0].length < 6 ∧ 6 ≤ [(0xBF : Byte), 0, 0, 0, 0, 64].length ∧
    [(0xBF : Byte), 0, 0, 0, 0, 64].getD 0 0 &&& 0x40 = 0 ∧ [(0x40 : Byte), 0, 0, 0, 0, 255].getD 0 0 &&& 0x40 ≠ 0 ∧
    Config.default.lookup .up ([(0x40 : Byte), 0, 0, 0, 0, 255].getD 5 0) = .unmapped ∧
    selectHdr Config.default [0x40, 0, 0, 0, 0, 64] .up ≠ .otherMapped := by decide
theorem witness_HeaderFailuresByLengthThenMarker :
    [(0 : Byte), 0, 0, 0, 0].length < 6 ∧ Config.default.shortMarkerFirst = false ∧
    [(0x40 : Byte)].getD 0 0 &&& 0x40 ≠ 0 ∧
    { Config.default with shortMarkerFirst := true }.shortMarkerFirst = true ∧ [(0 : Byte)] ≠ [] ∧
    [(0 : Byte)].getD 0 0 &&& 0x40 = 0 ∧ 6 ≤ [(0 : Byte), 0, 0, 0, 0, 0].length := by decide
/-- Fifteen and fourteen payload bytes, the type of R146 and a cell of an open table. -/
theorem witness_HealthRecordFromItsBytes :
    let f := [(0x40 : Byte), 0x49, 0, 0, 0, 0x40] ++ v80
    6 ≤ f.length ∧ f.getD 0 0 &&& 0x40 ≠ 0 ∧ Config.default.lookup .up (f.getD 5 0) = .health ∧
    openCfg.lookup .down 8 = .health ∧ 15 ≤ (f.drop 6).length ∧
    ((f.take 20).drop 6).length < 15 ∧ 6 ≤ (f.take 20).length := by decide
theorem witness_SamplingPeriodFromTwoBytes :
    let f := [(0x40 : Byte), 0x49, 0, 0x2A, 1, 0x82, 0, 5]
    6 ≤ f.length ∧ f.getD 0 0 &&& 0x40 ≠ 0 ∧ Config.default.lookup .up (f.getD 5 0) = .spConfig ∧
    2 ≤ (f.drop 6).length ∧
    ((f.take 7).drop 6).length < 2 := by decide
/-- No channel, five channels, and a length between. -/
theorem witness_VibratingWireLengthsAndChannels :
    let f := [(0x40 : Byte), 0, 0, 0, 0, 7]
    6 ≤ f.length ∧ f.getD 0 0 &&& 0x40 ≠ 0 ∧ openCfg.lookup .up (f.getD 5 0) = .vw ∧
    ((f ++ v80.take 6).drop 6).length = 6 + 8 * 0 ∧ ((f ++ List.replicate 46 1).drop 6).length = 6 + 8 * 5 ∧
    ∀ n, n ≤ 5 → ((f ++ v80).drop 6).length ≠ 6 + 8 * n := by decide
theorem witness_UnmappedTypeIsUnknownType :
    6 ≤ [(0x40 : Byte), 0, 0, 0, 0, 255].length ∧ [(0x40 : Byte), 0, 0, 0, 0, 255].getD 0 0 &&& 0x40 ≠ 0 ∧
    [(0x40 : Byte), 0, 0, 0, 0, 255].getD 5 0 = 255 ∧ [(0x40 : Byte), 0, 0, 0, 0, 254].getD 5 0 ≠ 255 ∧
    openCfg.lookup .down ([(0x40 : Byte), 0, 0, 0, 0, 254].getD 5 0) = .unmapped ∧
    openCfg.vwMsgType ≠ 64 ∧ openCfg.vwMsgType ≠ 130 ∧ openCfg.vwMsgType ≠ 255 := by decide
theorem witness_OtherMappedTypesRunOrAreRefused :
    6 ≤ [(0x40 : Byte), 0, 0, 0, 0, 8].length ∧ [(0x40 : Byte), 0, 0, 0, 0, 8].getD 0 0 &&& 0x40 ≠ 0 ∧
    openCfg.lookup .up 8 = .lacking ∧ openCfg.lookup .up 9 = .program 0 (.schema .nil) ∧
    (Parser.schema .nil).wfPayload openCfg 0 = true ∧ runParser openCfg [] .nil 0 0 (.schema .nil) = .ok (.record .nil, 0) ∧
    openCfg.lookup .up 10 = .program 4 (.schema (plainFields [("x", 8, none)])) ∧
    (Parser.schema (plainFields [("x", 8, none)])).wfPayload openCfg 4 = true ∧
    runParser openCfg [0xA1] .nil 0 4 (.schema (plainFields [("x", 8, none)])) = .malformed ∧
    openCfg.lookup .up 11 = .program 0 (u 8) ∧ (u 8).wfPayload openCfg 0 = false := by decide
/-- Widths 1 and 32, a field that ends with the payload and one that ends a bit later. -/
theorem witness_ExtractIsTheSumOfItsBits :
    1 ≤ 32 ∧ 32 ≤ 32 ∧ 8 + 32 ≤ 8 * [(0xFF : Byte), 0, 0xFF, 0, 0xFF].length ∧
    8 * [(0xFF : Byte), 0, 0xFF, 0, 0xFF].length < 9 + 32 ∧ 8 * ([] : List Byte).length < 0 + 1 := by decide
theorem witness_ByteGranularExtractAgrees :
    1 ≤ 32 ∧ 32 ≤ 32 ∧ 7 + 32 ≤ 8 * [(0xFF : Byte), 0, 0xFF, 0, 0xFF].length ∧ 1 ≤ 4 ∧ 4 ≤ 4 := by decide
theorem witness_ExtractOfPackedFieldIsValue :
    1 ≤ 12 ∧ 12 ≤ 32 ∧ 4 + 12 ≤ 8 * [(0xFF : Byte), 0].length ∧ 0xFFF < 2 ^ 12 ∧ 3 < 4 := by decide
/-- The two sides of the sign bit, at widths 8 and 1. -/
theorem witness_SignExtensionIsTwosComplement :
    1 ≤ 8 ∧ 0x7F < 2 ^ (8 - 1) ∧ 2 ^ (8 - 1) ≤ 0x80 ∧ 0x80 < 2 ^ 8 ∧ 0 < 2 ^ (1 - 1) ∧ 2 ^ (1 - 1) ≤ 1 ∧ 1 < 2 ^ 1 := by
  decide
theorem witness_SentinelPatternsReadAbsent :
    1 ≤ 12 ∧ 0x800 < 2 ^ 12 ∧ 12 ≤ 32 ∧ 0 + 12 ≤ 8 * [(0x80 : Byte), 0].length ∧
    2 * bitSum [0x80, 0] 0 12 = 2 ^ 12 ∧ 2 * bitSum [0x80, 0x10] 0 12 ≠ 2 ^ 12 ∧ 2 ^ 12 ≤ 2 * bitSum [0x80, 0x10] 0 12 ∧
    bitSum [0xFF, 0xF0] 0 12 + 1 = 2 ^ 12 := by decide
/-- A code with a row, and one without. -/
theorem witness_ScalingIsExact :
    [((3 : Int), "mm", 2)] = [] ++ (3, "mm", 2) :: [] ∧ (∀ r ∈ ([] : List (Int × String × Nat)), r.1 ≠ 3) ∧
    ∀ r ∈ [((3 : Int), "mm", 2)], r.1 ≠ 9 := by decide
theorem witness_UnpackFixedReadsEveryItem :
    Item.f4 ∉ [Item.u4, .u2, .s2] ∧ layoutSize [.u4, .u2, .s2] ≤ [(0 : Byte), 0, 0, 1, 2, 3, 0x80, 0].length ∧
    [Item.u4, .u2, .s2][2]? = some .s2 ∧ [(0 : Byte), 0].length < layoutSize [.u4, .u2, .s2] ∧
    1 + layoutSize [.u2] ≤ [(0 : Byte), 1, 2].length ∧ [Item.u2] ≠ [] ∧ [(0 : Byte), 1, 2].length < 2 + layoutSize [.u2] := by
  decide
/-- The nearest operands outside each domain; a repeated name, a name no earlier descriptor has, and three names at width
1. -/
theorem witness_OutsideTheDomainIsRefused :
    32 < 33 ∧ 2 ^ 8 ≤ 256 ∧ 2 ^ 0 ≤ 1 ∧ Item.f4 ∈ [Item.u4, .f4] ∧
    (Desc.mk "a" 4 none false none .none).name = (Desc.mk "a" 5 none true none .none).name ∧
    "c" ∈ condNames (.or (.present "a") (.equals "c" .absent)) ∧
    (∀ d ∈ [Desc.mk "a" 4 none false none .none], d.name ≠ "c") ∧ 1 ≤ 1 ∧ 1 ≤ 32 ∧ "a" ≠ "b" ∧ "a" ≠ "n" ∧ "b" ≠ "n" := by
  decide
/-- An item that ends with the payload and one that ends a byte later. -/
theorem witness_LayoutCharactersReadTheirItems :
    (Instr.layU16, 2) ∈ [(Instr.layU32, 4), (.layU16, 2), (.layU8, 1)] ∧
    (reading [1, 2, 3] 1).pos + 2 ≤ (reading [1, 2, 3] 1).pay.length ∧
    (reading [1, 2, 3] 2).pay.length < (reading [1, 2, 3] 2).pos + 2 ∧
    (reading [1, 2, 3] 2).pos < (reading [1, 2, 3] 2).pay.length ∧
    (reading [1, 2, 3] 3).pay.length ≤ (reading [1, 2, 3] 3).pos := by decide
theorem witness_UnpackFixedIsItsCharactersInOrder :
    [Item.u2, .s1].mapM itemRow = some [.layU16, .layS8] ∧ layoutSize [.u2, .s1] ≤ [(1 : Byte), 2, 3].length ∧
    (after (exec (.unpackFixed [1, 2, 3] [.u2, .s1]) State.reset)).isSome := by decide
theorem witness_LengthSelectsContinuation :
    altAt [(1 : Byte), 2].length (.cons 6 (u 1) (.cons 2 (u 2) .nil)) = some (u 2) ∧
    Alts.hasKey [(1 : Byte), 2, 3].length (.cons 6 (u 1) (.cons 2 (u 2) .nil)) = false ∧
    Alts.hasKey [(1 : Byte), 2].length (.cons 6 (u 1) (.cons 2 (u 2) .nil)) = true := by decide
/-- A group that is read, one that fails, an exact fit and one item too many; a count decoded before, and a count field that
ends with the payload or past it. -/
theorem witness_GroupsReadAdjacentItems :
    retOf (exec (.groups [0xAB, 0xCD, 0xEF] 0 1 (u 12)) State.reset) =
      some (some (.values (valuesOf [.int 0xABC])), 12) ∧
    runParser Config.default [0xAB, 0xCD, 0xEF] .nil 1 12 (u 12) = .ok (.int 0xDEF, 24) ∧
    runParser Config.default [0xAB, 0xCD] .nil 1 12 (u 12) = .malformed ∧
    raised (exec (.groups [0xAB] 0 1 (u 12)) State.reset) = true ∧ 1 ≤ 12 ∧ 12 ≤ 32 ∧
    0 + 2 * 12 ≤ 8 * [(0xAB : Byte), 0xCD, 0xEF].length ∧ 1 ≤ 3 ∧
    8 * [(0xAB : Byte), 0xCD, 0xEF].length < 0 + 3 * 12 ∧ fieldGet "n" (.cons "n" (.int 2) .nil) = some (.int (2 : Nat)) ∧
    1 ≤ 4 ∧ 4 ≤ 32 ∧ 4 + 4 ≤ 8 * [(0x12 : Byte)].length ∧ 8 * [(0x12 : Byte)].length < 5 + 4 := by decide
/-- A capacity of the family and one decoded before, a frame number counted from zero and one from one. -/
theorem witness_AbsoluteIndexIsContiguous :
    [("F", 8)] = [] ++ (("F", 8) : String × Nat) :: [] ∧ (∀ r ∈ ([] : List (String × Nat)), r.1 ≠ "F") ∧
    fieldGet "n" (.cons "n" (.int 8) .nil) = some (.int (8 : Nat)) ∧
    fieldGet "f" (.cons "f" (.int 2) .nil) = some (.int (2 : Nat)) ∧
    fieldGet "f" (.cons "f" (.int 2) .nil) = some (.int ((1 : Nat) + 1)) := by decide
theorem witness_SubtypeByteSelectsDecoder :
    8 * [(7 : Byte)].length < 1 + 8 ∧ 0 + 8 ≤ 8 * [(7 : Byte)].length ∧
    subTable.hasKey (bitSum [7] 0 8) = false ∧ (altAt (bitSum [1, 0, 0x2A] 0 8) subTable).isSome ∧
    (altAt (bitSum [1, 0, 0x2A] 0 8) subTable).map (runParser Config.default [1, 0, 0x2A] .nil 0 (0 + 8)) =
      some (.ok (.record (.cons "x" (.int 42) .nil), 24)) ∧
    (altAt (bitSum [1, 0] 0 8) subTable).map (runParser Config.default [1, 0] .nil 0 (0 + 8)) =
      some .malformed := by decide
theorem witness_AggregateRunsBackToBack :
    runParser Config.default [2, 5] .nil 0 0 (u 8) = .ok (.int 2, 8) ∧
    runParser Config.default [2, 5] .nil 0 8 (i 8) = .ok (.int 5, 16) ∧
    runParser Config.default [] .nil 0 0 (u 8) = .malformed ∧
    runParser Config.default [2] .nil 0 8 (u 8) = .malformed := by decide
/-- A condition that is false, one on an absent name, one that is true, a field that ends with the payload, one past it, a
sub-parser that returns, one that raises, a repeated name. -/
theorem witness_DescriptorReadsItsField :
    evalCond (.cons "mode" (.int 2) .nil) (.equals "mode" (.int 1)) = some false ∧ evalCond .nil (.equals "mode" (.int 1)) = none ∧
    evalCond (.cons "mode" (.int 1) .nil) (.equals "mode" (.int 1)) = some true ∧
    runParser Config.default [0x1F] (.cons "mode" (.int 1) .nil) 0 4 (.groups (.named "mode") (u 4)) =
      .ok (.list (.cons (.int 15) .nil), 8) ∧
    runParser Config.default [0x1F] (.cons "mode" (.int 1) .nil) 0 5 (.groups (.named "mode") (u 4)) = .malformed ∧
    fieldGet "a" (.cons "mode" (.int 2) .nil) = none ∧ 1 ≤ 4 ∧ 4 ≤ 32 ∧ 4 + 4 ≤ 8 * [(0x1F : Byte)].length ∧
    8 * [(0x1F : Byte)].length < 5 + 4 ∧ fieldGet "mode" (.cons "mode" (.int 2) .nil) ≠ none ∧ "mode" ≠ "a" := by decide
/-- Rows that complete, rows of which one raises, rows of which one is refused, and a run that returns. -/
theorem witness_SchemaRunIsItsDescriptorsInOrder :
    (after (runDescRows schemaD { State.reset with pay := [0x8F], result := none })).map State.result = some none ∧
    (after (runDescRows schemaD { State.reset with pay := [0x4F], result := none })).map State.result =
      some (some .malformedPayload) ∧
    refusal (exec (.schemaRun [1] 0 (.cons (.mk "a" 0 none false none .none) .nil)) State.reset) =
      some .widthOutOfRange ∧
    runSchema Config.default [0x8F] .nil .nil 0 0 schemaD = .ok (.cons "mode" (.int 2) (.cons "b" (.int 3) .nil), 6) := by decide
/-- A decoder that moves the cursor to the payload's end, and one that does not move it. -/
theorem witness_CursorNeverMovesBackOrPastTheEnd :
    runParser Config.default [2, 5] .nil 0 8 (u 8) = .ok (.int 5, 16) ∧
    runParser Config.default [] .nil 0 9 (.groups (.fixed 0) (u 8)) = .ok (.list .nil, 9) := by decide
/-- A result that arrived and one that did not (the words and the codes need no hypothesis). -/
theorem witness_WordsAndPortCodesAreTheSpecs :
    State.reset.result = none ∧ { State.reset with result := some .headerError }.result = some .headerError := by decide
/-- One instruction of each kind of selection. -/
theorem witness_DecodeOfEncodeIsTheInstruction :
    (Instr.overflow 0x10).wf cx = true ∧ (Instr.overflow 0x10).selectedIn { cx with full := true } = true ∧
    (Instr.inmsgData 3).wf cx = true ∧ (Instr.inmsgData 3).selectedIn cx = true ∧
    (Instr.vw [0x40, 0, 0, 0, 0, 7] .up).wf { cx with cfg := openCfg } = true ∧
    (Instr.vw [0x40, 0, 0, 0, 0, 7] .up).selectedIn { cx with cfg := openCfg } = true ∧
    (Instr.schemaRun [0x4F] 0 schemaD).wf cx = true ∧ (Instr.schemaRun [0x4F] 0 schemaD).selectedIn cx = true := by decide
theorem witness_DecodedRequestsAreTheirEncodings :
    decode cx (.evt 1 0x41) = .ok (.evtByte 0x41) ∧ decode cx (.evt 2 0) = .ok .evtTimeout ∧
    decode cx (.ext 0x310) = .ok .escDle := by decide
/-- A waiting request, and each answer of the transport. -/
theorem witness_StepRunsTheDecodedInstruction :
    (Instr.escEtx).wf (inFx .inMessageEscape [1]).ctx = true ∧ (Instr.escEtx).selectedIn (inFx .inMessageEscape [1]).ctx = true ∧
    { inFx .inMessageEscape [1] with reqs := [.op (encode .escEtx), .rst] }.reqs = .op (encode .escEtx) :: [.rst] ∧
    { inFx .stopped [] with line := [.byte 3] }.reqs = [] ∧
    [Answer.byte 3, .timeout, .error, .noData].all
      (fun a => { inFx .stopped [] with line := [a, .timeout] }.line = a :: [.timeout]) = true := by decide
/-- A state inside a message at its capacity, a step that clears it, and one that lengthens the contents. -/
theorem witness_EveryStepKeepsTheInvariant :
    (capped 2 .inMessage [1, 0]).Inv = true ∧ (capped 3 .inMessage [1, 0]).Inv = true ∧
    fxView (step { capped 2 .inMessage [1, 0] with line := [.byte 3] }) = some (.stopped, [], .overflow) ∧
    fxView (step { capped 3 .inMessage [1, 0] with line := [.byte 3] }) = some (.inMessage, [1, 0, 3], .none) := by decide

end Sys2Proof.Tests
end

namespace Sys2Proof.Machine

/-! ## What every step keeps (R22, R23, R46) -/

theorem State.Inv_iff (s : State) :
    s.Inv = true ↔ s.fx.wf s.cfg.frameMax = true ∧ (s.failed = true → s.call = none) := by
  cases hf : s.failed <;> simp [State.Inv, hf]

/-- R40, R47: clearing into STOPPED keeps the invariant of FX, the stored bytes staying where they are. -/
theorem Fx.wf_stopped_empty {max : Option Nat} {q : Fx} (h : q.wf max = true) :
    Fx.wf max { q with st := .stopped, len := 0 } = true :=
  Fx.Effect.wf (q := q) (.inl ⟨rfl, .inl rfl⟩) h

theorem fxReset_keeps_inv {s : State} (h : s.Inv = true) : (fxReset s).Inv = true := by
  obtain ⟨hfx, _⟩ := (State.Inv_iff s).1 h
  exact (State.Inv_iff _).2 ⟨Fx.wf_stopped_empty hfx, fun _ => rfl⟩

theorem PureEffect.keeps_inv {s t : State} (h : PureEffect s t) (hs : s.Inv = true) : t.Inv = true := by
  obtain ⟨r, v, p, c, T, a, is, w, rfl⟩ := h
  exact hs

theorem EventEffect.keeps_inv {s t : State} (h : EventEffect s t) (hs : s.Inv = true) : t.Inv = true := by
  obtain ⟨hfx, hcall⟩ := (State.Inv_iff s).1 hs
  obtain ⟨q, l, f, r, c, rfl, hq, hc, hf⟩ := h
  refine (State.Inv_iff _).2 ⟨hq.wf hfx, fun hfailed => ?_⟩
  obtain rfl | ⟨_, _, hnone⟩ := hf
  · obtain ⟨rfl, _⟩ | ⟨hnone, _⟩ := hc
    · exact hcall hfailed
    · exact hnone
  · exact hnone

/-- A call begins on a live connection only, and one that meets an error is over. -/
theorem CallEffect.keeps_inv {s t : State} (h : CallEffect s t) (hlive : s.failed = false) (hs : s.Inv = true) :
    t.Inv = true := by
  obtain ⟨hfx, _⟩ := (State.Inv_iff s).1 hs
  obtain ⟨q, l, f, r, c, ln, rfl, hq, hf⟩ := h
  refine (State.Inv_iff _).2 ⟨hq hfx, fun hfailed => ?_⟩
  obtain rfl | ⟨_, hnone⟩ := hf
  · exact absurd hfailed (by simp [hlive])
  · exact hnone

/-- Every instruction keeps the invariant. -/
theorem exec_keeps_inv {i : Instr} {s t : State} (hs : s.Inv = true) (h : exec i s = .next t) : t.Inv = true := by
  obtain hp | he | ⟨hlive, hc⟩ := exec_next h
  · exact hp.keeps_inv hs
  · exact he.keeps_inv hs
  · exact hc.keeps_inv hlive hs

/-- Settles O59: the reset state evaluated. -/
theorem invariantHoldsAtReset : Obligations.InvariantHoldsAtReset := by
  unfold Obligations.InvariantHoldsAtReset
  decide

/-- Settles O60: a step is the reset pin or one instruction, and both keep the invariant. -/
theorem everyStepKeepsTheInvariant : Obligations.EveryStepKeepsTheInvariant := by
  unfold Obligations.EveryStepKeepsTheInvariant
  intro s t hs h
  obtain ⟨rest, _, rfl⟩ | ⟨i, rq, ln, hi⟩ := step_next h
  · exact fxReset_keeps_inv hs
  · exact exec_keeps_inv (s := { s.quiet with reqs := rq, line := ln }) hs hi

/-! ## Frames: what an event stores, what a unit leaves alone (R22, R46, R47, R144) -/

/-- R46: a step rule changes no byte but the one at `len`. -/
theorem Fx.Effect.read_other {max : Option Nat} {q q' : Fx} (h : Fx.Effect max q q') {a : Nat} (ha : a ≠ q.len) :
    Memory.read q'.buf a = Memory.read q.buf a := by
  obtain ⟨hb, _⟩ | ⟨b, hb, _⟩ := h
  · rw [hb]
  · rw [hb]; exact Memory.read_write_other _ _ ha

/-- A step rule that does not lengthen the contents stores nothing. -/
theorem Fx.Effect.buf_eq {max : Option Nat} {q q' : Fx} (h : Fx.Effect max q q') (hlen : q'.len ≠ q.len + 1) :
    q'.buf = q.buf := by
  obtain ⟨hb, _⟩ | ⟨b, _, hl, _⟩ := h
  · exact hb
  · exact absurd hl hlen

theorem EventEffect.fx {s t : State} (h : EventEffect s t) : Fx.Effect s.cfg.frameMax s.fx t.fx := by
  obtain ⟨q, l, f, r, c, rfl, hq, _⟩ := h
  exact hq

/-- Settles O9: every event row is a step rule on FX, whose one store is at `len`; append and clear by the buffer's laws. -/
theorem eventRowsStoreOnlyAtLen : Obligations.EventRowsStoreOnlyAtLen := by
  unfold Obligations.EventRowsStoreOnlyAtLen
  refine ⟨fun i s t hi h => ?_, fun q b hq => ?_⟩
  · have he := (event_row_effect hi h).fx
    exact ⟨fun a ha => he.read_other ha, fun hlen a => by rw [he.buf_eq hlen]⟩
  · exact ⟨Fx.contents_append b hq, Memory.write_wf _ _ hq, Memory.read_write_same _ _ hq, rfl⟩

/-- Settles O10: an event row writes no more than an event may, any other instruction no FX register and no input. -/
theorem unitsLeaveEachOthersStateAlone : Obligations.UnitsLeaveEachOthersStateAlone := by
  unfold Obligations.UnitsLeaveEachOthersStateAlone
  refine ⟨fun i s t hi h => ?_, fun i s t hi h => ?_⟩
  · obtain ⟨q, l, f, r, c, rfl, _, hc, _⟩ := event_row_effect hi h
    refine ⟨rfl, rfl, rfl, rfl, rfl, rfl, rfl, rfl, rfl, rfl, ?_, fun hnone => ?_⟩
    · exact hc.imp And.left And.left
    · obtain ⟨_, hr⟩ | ⟨_, hcall⟩ := hc
      · exact hr
      · exact absurd hnone hcall
  · obtain ⟨r, v, p, c, T, a, is, w, rfl⟩ := exec_pure hi h
    exact ⟨rfl, rfl, rfl, rfl, rfl, rfl, rfl⟩

/-! ## Reset (R40, R260) -/

/-- A waiting reset pin is the step. -/
theorem step_rst {s : State} {rest : List Input} (h : s.reqs = .rst :: rest) :
    step s = .next (fxReset { s.quiet with reqs := rest }) := by
  simp [step, serve, h]

/-- Settles O13: the reset state evaluated, and the pin by the one step that serves it. -/
theorem resetIsANewInstance : Obligations.ResetIsANewInstance := by
  unfold Obligations.ResetIsANewInstance
  exact ⟨⟨rfl, rfl, rfl, rfl⟩, fun s rest h => step_rst h⟩

end Sys2Proof.Machine

namespace Sys2Proof.Machine

/-! ## Buffer bytes at `len` and above are never observed (R22, U11)

Two FX states that agree below `len`, both in canonical form, are taken by every rule to two such states; every meaning is
followed with the second state written as the first with another FX state. -/

/-- Two FX states in canonical form that differ at most in the bytes at index `len` and above. -/
structure Fx.Alike (q r : Fx) : Prop where
  visible : q.sameVisible r
  wf_left : q.buf.wf = true
  wf_right : r.buf.wf = true

namespace Fx.Alike

variable {q r : Fx} {max : Option Nat}

theorem st_eq (h : q.Alike r) : q.st = r.st := h.visible.1
theorem len_eq (h : q.Alike r) : q.len = r.len := h.visible.2.1
theorem read_eq (h : q.Alike r) {a : Nat} (ha : a < q.len) : Memory.read q.buf a = Memory.read r.buf a :=
  h.visible.2.2 a ha

theorem contents_eq (h : q.Alike r) : q.contents = r.contents := by
  unfold Fx.contents
  rw [← h.len_eq]
  exact Memory.slice_congr fun a _ ha => h.read_eq (by omega)

theorem full_eq (h : q.Alike r) : q.full max = r.full max := by
  unfold Fx.full
  rw [h.len_eq]

theorem goto (h : q.Alike r) (st : FxState) : (q.goto st).Alike (r.goto st) :=
  ⟨⟨rfl, h.visible.2⟩, h.wf_left, h.wf_right⟩

theorem clear (h : q.Alike r) : q.clear.Alike r.clear :=
  ⟨⟨h.st_eq, rfl, fun _ ha => absurd ha (Nat.not_lt_zero _)⟩, h.wf_left, h.wf_right⟩

/-- R46: both append their byte at the same index, and it reads the same in both. -/
theorem append (h : q.Alike r) (b : Byte) : (q.append b).Alike (r.append b) := by
  refine ⟨⟨h.st_eq, congrArg (· + 1) h.len_eq, fun a ha => ?_⟩, Memory.write_wf _ _ h.wf_left,
    Memory.write_wf _ _ h.wf_right⟩
  simp only [Fx.append_len, Fx.append_buf, ← h.len_eq] at ha ⊢
  obtain rfl | hlt := Nat.eq_or_lt_of_le (Nat.le_of_lt_succ ha)
  · rw [Memory.read_write_same _ _ h.wf_left, Memory.read_write_same _ _ h.wf_right]
  · rw [Memory.read_write_other _ _ (Nat.ne_of_lt hlt), Memory.read_write_other _ _ (Nat.ne_of_lt hlt), h.read_eq hlt]

end Fx.Alike

/-- A step rule takes FX states that are alike to FX states that are alike, with one label. -/
def RespectsAlike (rule : Fx → FxStep) : Prop :=
  ∀ q r : Fx, q.Alike r → (rule q).1.Alike (rule r).1 ∧ (rule q).2 = (rule r).2

section Rules

variable (max : Option Nat) (b : Byte)

theorem Fx.stoppedDle_alike : RespectsAlike Fx.stoppedDle := fun _ _ h => ⟨h.goto _, rfl⟩
theorem Fx.stoppedOther_alike : RespectsAlike Fx.stoppedOther := fun _ _ h => ⟨h, rfl⟩
theorem Fx.firstStx_alike : RespectsAlike Fx.firstStx := fun _ _ h => ⟨h.clear.goto _, rfl⟩
theorem Fx.firstOther_alike : RespectsAlike Fx.firstOther := fun _ _ h => ⟨h.goto _, rfl⟩
theorem Fx.inmsgDle_alike : RespectsAlike Fx.inmsgDle := fun _ _ h => ⟨h.goto _, rfl⟩
theorem Fx.overflow_alike : RespectsAlike Fx.overflow := fun _ _ h => ⟨h.clear.goto _, rfl⟩
theorem Fx.escOther_alike : RespectsAlike Fx.escOther := fun _ _ h => ⟨h.clear.goto _, rfl⟩

/-- R108: the emitted bytes are those below `len`. -/
theorem Fx.escEtx_alike : RespectsAlike Fx.escEtx :=
  fun _ _ h => ⟨h.clear.goto _, congrArg Label.frame h.contents_eq⟩

theorem Fx.inmsgData_alike : RespectsAlike (Fx.inmsgData max b) := by
  intro q r h
  unfold Fx.inmsgData
  rw [← h.full_eq]
  split
  · exact Fx.overflow_alike q r h
  · exact ⟨h.append b, rfl⟩

theorem Fx.escDle_alike : RespectsAlike (Fx.escDle max) := by
  intro q r h
  unfold Fx.escDle
  rw [← h.full_eq]
  split
  · exact Fx.overflow_alike q r h
  · exact ⟨(h.append DLE).goto _, rfl⟩

/-- R100: the row of a byte is chosen by `st`, which both have. -/
theorem Fx.byte_alike : RespectsAlike (Fx.byte max b) := by
  intro q r h
  unfold Fx.byte
  rw [← h.st_eq]
  split
  · split
    · exact Fx.stoppedDle_alike q r h
    · exact Fx.stoppedOther_alike q r h
  · split
    · exact Fx.firstStx_alike q r h
    · exact Fx.firstOther_alike q r h
  · split
    · exact Fx.inmsgDle_alike q r h
    · exact Fx.inmsgData_alike max b q r h
  · split
    · exact Fx.escDle_alike max q r h
    · split
      · exact Fx.escEtx_alike q r h
      · exact Fx.escOther_alike q r h

end Rules

/-- Two outcomes alike: two next states that differ in FX states that are alike, or one refusal. -/
inductive Out.Alike : Out → Out → Prop where
  | next {s : State} {r : Fx} (h : s.fx.Alike r) : Out.Alike (.next s) (.next { s with fx := r })
  | refused (e : Refusal) : Out.Alike (.refused e) (.refused e)

theorem Out.Alike.sameVisible {x y : Out} (h : Out.Alike x y) : Out.sameVisible x y := by
  cases h with
  | next h => exact ⟨h.visible, rfl⟩
  | refused e => rfl

section Meanings

variable {s : State} {r : Fx}

theorem mdReturn_alike (h : s.fx.Alike r) (x : Bu Result) : Out.Alike (mdReturn x s) (mdReturn x { s with fx := r }) := by
  cases x with
  | ok a => exact .next (s := { s with result := some a }) h
  | malformed => exact .next (s := { s with result := some .malformedPayload }) h
  | refuse e => exact .refused e

/-- R113, R145: the end of a step reads the label and the call, not FX. -/
theorem deliver_alike (h : s.fx.Alike r) (l : Label) : Out.Alike (deliver l s) (deliver l { s with fx := r }) := by
  unfold deliver
  dsimp only
  split
  · rename_i c f _
    cases c with
    | nextFrame n => exact .next (s := endCall (.frame f) { s with label := .frame f }) h
    | nextMessage n dir => exact mdReturn_alike (s := { s with label := .frame f, call := none }) h _
  · exact .next (s := endCall .timedOut { s with label := .timedOut }) h
  · exact .next (s := endCall .transportError { s with label := .transportError }) h
  all_goals exact .next (s := { s with label := _ }) h

theorem fxRun_alike (h : s.fx.Alike r) (sel : Bool) {rule : Fx → FxStep} (hrule : RespectsAlike rule) :
    Out.Alike (fxRun sel rule s) (fxRun sel rule { s with fx := r }) := by
  obtain ⟨hfx, hlabel⟩ := hrule s.fx r h
  unfold fxRun
  rw [← hlabel]
  split
  · exact .refused _
  · split
    · exact deliver_alike (s := { s with fx := (rule s.fx).1 }) hfx _
    · exact .refused _

theorem fxAnswer_alike (h : s.fx.Alike r) (a : Answer) : Out.Alike (fxAnswer a s) (fxAnswer a { s with fx := r }) := by
  cases a with
  | noData => exact .next h
  | byte b => exact fxRun_alike h true (Fx.byte_alike s.cfg.frameMax b)
  | timeout =>
    simp only [fxAnswer, fxTimeout]
    split
    · exact .refused _
    · exact deliver_alike h _
  | error =>
    simp only [fxAnswer, fxError]
    split
    · exact .refused _
    · exact deliver_alike (s := { s with failed := true }) h _

theorem readLoop_alike (as : List Answer) (s : State) (r : Fx) (h : s.fx.Alike r) :
    Out.Alike (readLoop as s) (readLoop as { s with fx := r }) := by
  induction as generalizing s r with
  | nil => exact .next (s := { s with line := [] }) h
  | cons a rest ih =>
    have ha := fxAnswer_alike (s := { s with line := rest }) h a
    simp only [readLoop]
    generalize fxAnswer a { s with line := rest } = x at ha ⊢
    generalize fxAnswer a { s with fx := r, line := rest } = y at ha ⊢
    cases ha with
    | next h' =>
      simp only
      split
      · exact .next h'
      · exact ih _ _ h'
    | refused e => exact .refused e

theorem beginCall_alike (h : s.fx.Alike r) (c : Call) : Out.Alike (beginCall c s) (beginCall c { s with fx := r }) := by
  unfold beginCall
  split
  · exact .refused _
  · split
    · exact .refused _
    · exact readLoop_alike _ { s with call := some c } r h

theorem hdrRun_alike (h : s.fx.Alike r) (row : HdrRow) (f : List Byte) (dir : Dir) (x : Bu Result) :
    Out.Alike (hdrRun row f dir s x) (hdrRun row f dir { s with fx := r } x) := by
  unfold hdrRun
  split
  · exact mdReturn_alike h x
  · exact .refused _

/-- What an unpacker operation writes is written over either FX state. -/
theorem uopReturn_alike {α : Type} (h : s.fx.Alike r) (x : Bu α) {k k' : α → State}
    (hk : ∀ a, (k a).fx = s.fx ∧ k' a = { k a with fx := r }) :
    Out.Alike (uopReturn x s k) (uopReturn x { s with fx := r } k') := by
  cases x with
  | ok a =>
    obtain ⟨hfx, hk'⟩ := hk a
    simp only [uopReturn_ok, hk']
    exact .next (hfx ▸ h)
  | malformed => exact .next (s := s.raiseMalformed) h
  | refuse e => exact .refused e

theorem send_alike (h : s.fx.Alike r) (bs : List Byte) : Out.Alike (send bs s) (send bs { s with fx := r }) :=
  .next (s := { s with wire := s.wire ++ bs }) h

theorem layItem_alike (h : s.fx.Alike r) (i : Item) : Out.Alike (layItem i s) (layItem i { s with fx := r }) :=
  uopReturn_alike h _ fun _ => ⟨rfl, rfl⟩

/-- Every EXT row is selected by `st`, which both have, and runs a rule that respects what is alike. -/
theorem fxRun_in_alike (h : s.fx.Alike r) (st : FxState) {rule : Fx → FxStep} (hrule : RespectsAlike rule) :
    Out.Alike (fxRun (s.fx.st = st) rule s) (fxRun (r.st = st) rule { s with fx := r }) := by
  rw [← h.st_eq]
  exact fxRun_alike h _ hrule

/-- Every instruction takes states alike to outcomes alike. -/
theorem exec_alike (h : s.fx.Alike r) (i : Instr) : Out.Alike (exec i s) (exec i { s with fx := r }) := by
  cases i with
  | stoppedDle => exact fxRun_in_alike h _ Fx.stoppedDle_alike
  | stoppedOther b => exact fxRun_in_alike h _ Fx.stoppedOther_alike
  | firstStx => exact fxRun_in_alike h _ Fx.firstStx_alike
  | firstOther b => exact fxRun_in_alike h _ Fx.firstOther_alike
  | inmsgDle => exact fxRun_in_alike h _ Fx.inmsgDle_alike
  | inmsgData b => exact fxRun_in_alike h _ (Fx.inmsgData_alike _ b)
  | escDle => exact fxRun_in_alike h _ (Fx.escDle_alike _)
  | escEtx => exact fxRun_in_alike h _ Fx.escEtx_alike
  | escOther b => exact fxRun_in_alike h _ Fx.escOther_alike
  | overflow b =>
    simp only [exec, execOverflow, State.full, ← h.st_eq, ← h.full_eq]
    exact fxRun_alike h _ Fx.overflow_alike
  | evtNone => exact .next h
  | evtByte b => exact fxAnswer_alike h (.byte b)
  | evtTimeout => exact fxAnswer_alike h .timeout
  | evtError => exact fxAnswer_alike h .error
  | wireStart => exact send_alike h _
  | wireEnd => exact send_alike h _
  | encDle => exact send_alike h _
  | encOther b => exact send_alike h _
  | frame content => exact send_alike h _
  | hdrShort f dir => exact hdrRun_alike h _ f dir _
  | hdrError f dir => exact hdrRun_alike h _ f dir _
  | health f dir => exact hdrRun_alike h _ f dir _
  | spConfig f dir => exact hdrRun_alike h _ f dir _
  | vw f dir => exact hdrRun_alike h _ f dir _
  | unmapped255 f dir => exact hdrRun_alike h _ f dir _
  | unknownType f dir => exact hdrRun_alike h _ f dir _
  | otherMapped f dir => exact hdrRun_alike h _ f dir _
  | layNetwork => exact .next (s := { s with pos := 0, items := [] }) h
  | layU32 => exact layItem_alike h _
  | layU16 => exact layItem_alike h _
  | layU8 => exact layItem_alike h _
  | layS8 => exact layItem_alike h _
  | desc d => exact uopReturn_alike h _ fun _ => ⟨rfl, rfl⟩
  | unpackFixed p l => exact uopReturn_alike h _ fun _ => ⟨rfl, rfl⟩
  | lensel p e => exact uopReturn_alike h _ fun _ => ⟨rfl, rfl⟩
  | extract p off n => exact uopReturn_alike h _ fun _ => ⟨rfl, rfl⟩
  | sext v w => exact uopReturn_alike h _ fun _ => ⟨rfl, rfl⟩
  | sentU v n => exact uopReturn_alike h _ fun _ => ⟨rfl, rfl⟩
  | sentS v n => exact uopReturn_alike h _ fun _ => ⟨rfl, rfl⟩
  | scale x k => exact .next (s := { s with ret := _ }) h
  | unitscale x code => exact .next (s := { s with ret := _ }) h
  | groups p cur c g => exact uopReturn_alike h _ fun _ => ⟨rfl, rfl⟩
  | absidx a b c => exact .next (s := { s with ret := _ }) h
  | subdispatch p cur alts => exact uopReturn_alike h _ fun _ => ⟨rfl, rfl⟩
  | aggregate p cur d1 d2 => exact uopReturn_alike h _ fun _ => ⟨rfl, rfl⟩
  | schemaRun p cur ds => exact uopReturn_alike h _ fun _ => ⟨rfl, rfl⟩
  | unassigned1101 => exact .refused _
  | unassigned1110 => exact .refused _
  | unassigned1111 => exact .refused _
  | deframe bs => exact .next (s := { s with result := _ }) h
  | nextFrame n => exact beginCall_alike h _
  | decode f dir => exact mdReturn_alike h _
  | nextMessage n dir => exact beginCall_alike h _

/-- Decoding reads whether the buffer is full, and no byte of it. -/
theorem runReq_alike (h : s.fx.Alike r) (q : Req) : Out.Alike (runReq q s) (runReq q { s with fx := r }) := by
  have hctx : State.ctx { s with fx := r } = s.ctx := by simp only [State.ctx, State.full, h.full_eq]
  unfold runReq
  rw [hctx]
  split
  · exact exec_alike h _
  · exact .refused _

theorem fxReset_alike (h : s.fx.Alike r) : Out.Alike (.next (fxReset s)) (.next (fxReset { s with fx := r })) :=
  .next (s := fxReset s) (h.clear.goto .stopped)

/-- What is served next is chosen by the inputs, a byte's row by `st`. -/
theorem serve_alike (h : s.fx.Alike r) : Out.Alike (serve s) (serve { s with fx := r }) := by
  unfold serve
  simp only [← h.st_eq]
  split
  · rename_i rest _
    exact fxReset_alike (s := { s with reqs := rest }) h
  · rename_i q rest _
    exact runReq_alike (s := { s with reqs := rest }) h q
  · split
    · rename_i a rest _
      exact runReq_alike (s := { s with line := rest }) h _
    · exact runReq_alike h _

end Meanings

/-- Settles O21: every step rule reads the buffer below `len` alone, and no other part of a step reads it at all. -/
theorem staleBufferBytesAreNeverObserved : Obligations.StaleBufferBytesAreNeverObserved := by
  unfold Obligations.StaleBufferBytesAreNeverObserved
  rintro s t ⟨hvisible, hrest⟩ hs ht
  have h : Out.Alike (serve s.quiet) (serve { s.quiet with fx := t.fx }) := serve_alike (s := s.quiet) ⟨hvisible, hs, ht⟩
  have hquiet : { s.quiet with fx := t.fx } = t.quiet := congrArg State.quiet hrest
  rw [hquiet] at h
  exact h.sameVisible

end Sys2Proof.Machine

namespace Sys2Proof.Machine

/-! ## The cursor of a decoder (R29, R53, R172) -/

/-- A cursor that a decoder leaves at `b` from `a`: not before `a`, and within the payload unless it never moved. -/
def CursorMoves (p : List Byte) (a b : Nat) : Prop := a ≤ b ∧ (b ≤ 8 * p.length ∨ b = a)

namespace CursorMoves

variable {p : List Byte} {a b c : Nat}

theorem refl (p : List Byte) (a : Nat) : CursorMoves p a a := ⟨Nat.le_refl a, .inr rfl⟩

theorem trans (hab : CursorMoves p a b) (hbc : CursorMoves p b c) : CursorMoves p a c := by
  unfold CursorMoves at *
  omega

/-- R53: a bit field that is read lies in the payload. -/
theorem of_extract {n v : Nat} (h : extract p a n = .ok v) : CursorMoves p a (a + n) :=
  ⟨Nat.le_add_right a n, .inl (extract_eq_ok.1 h).2.1⟩

theorem of_readField {c : Config} {t : Fields} {f : FieldSpec} {v : Value} (h : readField c p t a f = .ok (v, b)) :
    CursorMoves p a b := by
  obtain ⟨raw, hraw, hr⟩ := Bu.bind_eq_ok h
  cases hr
  exact of_extract hraw

theorem of_itemsAtCursor {l : List Item} {vs : List Int} (h : itemsAtCursor p a l = .ok (vs, b)) : CursorMoves p a b := by
  induction l generalizing a vs with
  | nil => cases h; exact refl p _
  | cons i rest ih =>
    obtain ⟨raw, hraw, h⟩ := Bu.bind_eq_ok h
    obtain ⟨v, _, h⟩ := Bu.bind_eq_ok h
    obtain ⟨⟨ws, b'⟩, hrest, h⟩ := Bu.bind_eq_ok h
    cases h
    exact (of_extract hraw).trans (ih hrest)

theorem of_unpackAtCursor {l : List Item} {vs : List Int} (h : unpackAtCursor p a l = .ok (vs, b)) :
    CursorMoves p a b := by
  unfold unpackAtCursor at h
  split at h
  · cases h
  · exact of_itemsAtCursor h

theorem of_countAt {t : Fields} {n : Count} {k : Nat} (h : countAt p t a n = .ok (k, b)) : CursorMoves p a b := by
  cases n with
  | fixed m => cases h; exact refl p _
  | named name => cases h; exact refl p _
  | inline w =>
    obtain ⟨m, hm, h⟩ := Bu.bind_eq_ok h
    cases h
    exact of_extract hm

/-- R168: groups move the cursor as their group decoder does, one after another. -/
theorem of_groupLoop {g : Nat → Nat → Bu (Value × Nat)}
    (hg : ∀ cur j v cur', g cur j = .ok (v, cur') → CursorMoves p cur cur') {n j : Nat} {vs : Values}
    (h : groupLoop g n j a = .ok (vs, b)) : CursorMoves p a b := by
  induction n generalizing j a vs with
  | zero => cases h; exact refl p _
  | succ n ih =>
    obtain ⟨⟨v, b'⟩, hfirst, h⟩ := Bu.bind_eq_ok h
    obtain ⟨⟨ws, b''⟩, hrest, h⟩ := Bu.bind_eq_ok h
    cases h
    exact (hg _ _ _ _ hfirst).trans (ih hrest)

end CursorMoves

variable {c : Config} {p : List Byte}

mutual

/-- No decoder moves the cursor back, nor past the end. -/
theorem runParser_cursor {t : Fields} {j a b : Nat} {v : Value} :
    (d : Parser) → runParser c p t j a d = .ok (v, b) → CursorMoves p a b
  | .field f, h => CursorMoves.of_readField h
  | .unpack l, h => by
    obtain ⟨⟨vs, b'⟩, hu, h⟩ := Bu.bind_eq_ok h
    cases h
    exact CursorMoves.of_unpackAtCursor hu
  | .lensel alts, h => by
    simp only [runParser] at h
    split at h
    · rename_i r hr
      exact runAlts_cursor alts hr h
    · cases h
  | .groups n g, h => by
    obtain ⟨⟨k, b'⟩, hk, h⟩ := Bu.bind_eq_ok h
    obtain ⟨⟨vs, b''⟩, hloop, h⟩ := Bu.bind_eq_ok h
    cases h
    exact (CursorMoves.of_countAt hk).trans (CursorMoves.of_groupLoop (fun _ _ _ _ hg => runParser_cursor g hg) hloop)
  | .absidx name base cap, h => by
    cases h
    exact CursorMoves.refl p _
  | .subdispatch alts, h => by
    simp only [runParser] at h
    obtain ⟨k, hk, h⟩ := Bu.bind_eq_ok h
    have hbyte := CursorMoves.of_extract hk
    split at h
    · rename_i r hr
      obtain ⟨⟨w, b'⟩, hrun, h⟩ := Bu.bind_eq_ok h
      obtain ⟨m, _, h⟩ := Bu.bind_eq_ok h
      cases h
      exact hbyte.trans (runAlts_cursor alts hr hrun)
    · cases h
      exact hbyte
  | .aggregate d1 d2, h => by
    obtain ⟨⟨v1, b1⟩, h1, h⟩ := Bu.bind_eq_ok h
    obtain ⟨⟨v2, b2⟩, h2, h⟩ := Bu.bind_eq_ok h
    cases h
    exact (runParser_cursor d1 h1).trans (runParser_cursor d2 h2)
  | .schema ds, h => by
    obtain ⟨⟨r, b'⟩, hs, h⟩ := Bu.bind_eq_ok h
    cases h
    exact runSchema_cursor ds hs
  | .select k d1 d2, h => by
    simp only [runParser] at h
    split at h
    · exact runParser_cursor d1 h
    · exact runParser_cursor d2 h

/-- Nor does the decoder under a key. -/
theorem runAlts_cursor {t : Fields} {j a b k : Nat} {v : Value} {r : Bu (Value × Nat)} :
    (alts : Alts) → runAlts c p t j a k alts = some r → r = .ok (v, b) → CursorMoves p a b
  | .nil, h, _ => by cases h
  | .cons key d rest, h, hr => by
    simp only [runAlts] at h
    split at h
    · cases h
      exact runParser_cursor d hr
    · exact runAlts_cursor rest h hr

/-- R188: a schema moves the cursor as its descriptors do, one after another. -/
theorem runSchema_cursor {outer t t' : Fields} {j a b : Nat} :
    (ds : Schema) → runSchema c p outer t j a ds = .ok (t', b) → CursorMoves p a b
  | .nil, h => by
    cases h
    exact CursorMoves.refl p _
  | .cons d rest, h => by
    obtain ⟨⟨t1, b1⟩, hd, hrest⟩ := Bu.bind_eq_ok h
    exact (runDesc_cursor d hd).trans (runSchema_cursor rest hrest)

/-- R188: a descriptor skipped leaves the cursor; one that is read moves it as its field or sub-parser does. -/
theorem runDesc_cursor {outer t t' : Fields} {j a b : Nat} :
    (d : Desc) → runDesc c p outer t j a d = .ok (t', b) → CursorMoves p a b
  | .mk name width enum signed cond sub, h => by
    obtain ⟨_, hr⟩ | ⟨_, _, v, b', hsub, hr⟩ := runDesc_ok h
    · cases hr
      exact CursorMoves.refl p _
    · cases hr
      exact runSub_cursor sub hsub

theorem runSub_cursor {t : Fields} {j a b : Nat} {f : FieldSpec} {v : Value} :
    (sub : Sub) → runSub c p t j a f sub = .ok (v, b) → CursorMoves p a b
  | .none, h => CursorMoves.of_readField h
  | .some d, h => runParser_cursor d h

end

/-- Settles O53, by structural induction over the decoder. -/
theorem cursorNeverMovesBackOrPastTheEnd : Obligations.CursorNeverMovesBackOrPastTheEnd := by
  unfold Obligations.CursorNeverMovesBackOrPastTheEnd
  exact fun _ _ _ _ _ _ d _ h => runParser_cursor d h

end Sys2Proof.Machine

namespace Sys2Proof

open Machine

/-! ## Format EXT: the word of a state and a byte, and the row it selects (R21, R73) -/

@[simp] theorem FxState.ofCode_code (st : FxState) : FxState.ofCode st.code = st := by
  cases st <;> decide

@[simp] theorem FxState.code_ofCode (c : BitVec 2) : (FxState.ofCode c).code = c := by
  revert c; decide

@[simp] theorem extState_extWord (st : FxState) (b : Byte) : extState (extWord st b) = st :=
  (congrArg FxState.ofCode BitVec.extractLsb'_append_eq_left).trans st.ofCode_code

@[simp] theorem extByte_extWord (st : FxState) (b : Byte) : extByte (extWord st b) = b :=
  BitVec.extractLsb'_append_eq_right

/-- R73: a word is that of its state and its byte. -/
theorem extWord_extState_extByte (w : BitVec 10) : extWord (extState w) (extByte w) = w := by
  unfold extWord extState extByte
  rw [FxState.code_ofCode]
  exact BitVec.extractLsb'_append_extractLsb' (w := 2) (len := 8)

/-- R73: the row of a state and a byte, as spec/30_encoding.md lists them. -/
def byteRow (st : FxState) (b : Byte) : ExtRow :=
  match st with
  | .stopped => if b = DLE then .stoppedDle else .stoppedOther
  | .firstDelimiter => if b = STX then .firstStx else .firstOther
  | .inMessage => if b = DLE then .inmsgDle else .inmsgData
  | .inMessageEscape => if b = DLE then .escDle else if b = ETX then .escEtx else .escOther

/-- R73: the matches and masks of the table select that row, for each of the 256 bytes in each state. -/
theorem extSelect_extWord (st : FxState) (b : Byte) : extSelect (extWord st b) extTable = some (byteRow st b) := by
  cases st <;> revert b <;> decide

theorem decodeExt_extWord (full : Bool) (st : FxState) (b : Byte) :
    decodeExt full (extWord st b) = (byteRow st b).instr full b := by
  simp [decodeExt, extSelect_extWord]

/-- R73: the nine rows, one case each, with what selects it. -/
inductive SelectsRow : FxState → Byte → ExtRow → Prop where
  | stoppedDle : SelectsRow .stopped DLE .stoppedDle
  | stoppedOther {b : Byte} (hb : b ≠ DLE) : SelectsRow .stopped b .stoppedOther
  | firstStx : SelectsRow .firstDelimiter STX .firstStx
  | firstOther {b : Byte} (hb : b ≠ STX) : SelectsRow .firstDelimiter b .firstOther
  | inmsgDle : SelectsRow .inMessage DLE .inmsgDle
  | inmsgData {b : Byte} (hb : b ≠ DLE) : SelectsRow .inMessage b .inmsgData
  | escDle : SelectsRow .inMessageEscape DLE .escDle
  | escEtx : SelectsRow .inMessageEscape ETX .escEtx
  | escOther {b : Byte} (hd : b ≠ DLE) (he : b ≠ ETX) : SelectsRow .inMessageEscape b .escOther

theorem selectsRow_byteRow (st : FxState) (b : Byte) : SelectsRow st b (byteRow st b) := by
  cases st with
  | stopped =>
    by_cases hb : b = DLE
    · subst hb; exact .stoppedDle
    · simpa [byteRow, hb] using SelectsRow.stoppedOther hb
  | firstDelimiter =>
    by_cases hb : b = STX
    · subst hb; exact .firstStx
    · simpa [byteRow, hb] using SelectsRow.firstOther hb
  | inMessage =>
    by_cases hb : b = DLE
    · subst hb; exact .inmsgDle
    · simpa [byteRow, hb] using SelectsRow.inmsgData hb
  | inMessageEscape =>
    by_cases hd : b = DLE
    · subst hd; exact .escDle
    · by_cases he : b = ETX
      · subst he; exact .escEtx
      · simpa [byteRow, hd, he] using SelectsRow.escOther hd he

/-- R73: an EXT word is that of a state and a byte, and decodes to the instruction of the row these select. -/
theorem exists_selectsRow (full : Bool) (w : BitVec 10) :
    ∃ st b row, SelectsRow st b row ∧ w = extWord st b ∧ decodeExt full w = row.instr full b := by
  refine ⟨extState w, extByte w, _, selectsRow_byteRow _ _, (extWord_extState_extByte w).symm, ?_⟩
  rw [← decodeExt_extWord, extWord_extState_extByte]

/-- R73, R110: a row selected gives an instruction that is well formed and selected, and stands for its word. -/
theorem SelectsRow.decoded {st : FxState} {b : Byte} {row : ExtRow} (h : SelectsRow st b row) (cx : Ctx) :
    (row.instr cx.full b).wf cx = true ∧ (row.instr cx.full b).selectedIn cx = true ∧
      encode (row.instr cx.full b) = .ext (extWord st b) := by
  cases h with
  | stoppedOther hb => simp [ExtRow.instr, Instr.wf, Instr.selectedIn, encode, hb]
  | firstOther hb => simp [ExtRow.instr, Instr.wf, Instr.selectedIn, encode, hb]
  | escOther hd he => simp [ExtRow.instr, Instr.wf, Instr.selectedIn, encode, hd, he]
  | inmsgData hb => cases hf : cx.full <;> simp [ExtRow.instr, Instr.wf, Instr.selectedIn, encode, hb, hf]
  | escDle => cases hf : cx.full <;> simp [ExtRow.instr, Instr.wf, Instr.selectedIn, encode, hf]
  | stoppedDle | firstStx | inmsgDle | escEtx => exact ⟨rfl, rfl, rfl⟩

/-! ## The other formats -/

@[simp] theorem Dir.ofCode_code (dir : Dir) : Dir.ofCode dir.code = dir := by
  cases dir <;> decide

@[simp] theorem Dir.code_ofCode (c : BitVec 1) : (Dir.ofCode c).code = c := by
  revert c; decide

/-- R38: of an event that is not BYTE the data is not kept. -/
theorem encode_decodeEvt {kind : BitVec 2} {data : Byte} (h : kind = 1 ∨ data = 0) :
    encode (decodeEvt kind data) = .evt kind data := by
  obtain rfl | rfl := h
  · rfl
  · revert kind; decide

theorem decodeEvt_selectedIn (cx : Ctx) (kind : BitVec 2) (data : Byte) :
    (decodeEvt kind data).selectedIn cx = true := by
  unfold decodeEvt
  split
  · rfl
  · split
    · rfl
    · split <;> rfl

/-- R74, R140: the row a frame selects is the one selected, and stands for its frame. -/
theorem HdrRow.instr_decoded {cx : Ctx} {row : HdrRow} {f : List Byte} {c : BitVec 1}
    (h : selectHdr cx.cfg f (.ofCode c) = row) :
    (row.instr f (.ofCode c)).selectedIn cx = true ∧ encode (row.instr f (.ofCode c)) = .hdr f c := by
  cases row <;> simp [HdrRow.instr, Instr.selectedIn, encode, h]

theorem layoutItem_eq_some {c : Byte} {i : Item} (h : layoutItem c = some i) :
    c = 0x49 ∧ i = .u4 ∨ c = 0x48 ∧ i = .u2 ∨ c = 0x42 ∧ i = .u1 ∨ c = 0x62 ∧ i = .s1 := by
  unfold layoutItem at h
  grind

theorem decodeLay_decoded {cx : Ctx} {c : Byte} {i : Instr} (h : decodeLay c = .ok i) :
    i.selectedIn cx = true ∧ encode i = .lay c := by
  unfold decodeLay at h
  split at h
  · rename_i hc
    cases h
    exact ⟨rfl, congrArg Req.lay hc.symm⟩
  · split at h
    all_goals cases h
    all_goals
      rename_i hitem
      obtain ⟨rfl, hi⟩ | ⟨rfl, hi⟩ | ⟨rfl, hi⟩ | ⟨rfl, hi⟩ := layoutItem_eq_some hitem <;> cases hi
      exact ⟨rfl, rfl⟩

theorem decodeWire_decoded {cx : Ctx} {w : BitVec 16} {i : Instr} (h : decodeWire w = .ok i) :
    i.selectedIn cx = true ∧ encode i = .wire w := by
  unfold decodeWire at h
  split at h
  · rename_i hw
    cases h
    exact ⟨rfl, congrArg Req.wire hw.symm⟩
  · split at h
    · rename_i hw
      cases h
      exact ⟨rfl, congrArg Req.wire hw.symm⟩
    · cases h

theorem decodeEnc_decoded (cx : Ctx) (b : Byte) :
    (decodeEnc b).selectedIn cx = true ∧ encode (decodeEnc b) = .enc b := by
  unfold decodeEnc
  split
  · rename_i hb
    exact ⟨rfl, congrArg Req.enc hb.symm⟩
  · exact ⟨rfl, rfl⟩

/-- R81: a code with operands of its own shape stands for its operation; no other pair decodes. -/
theorem decodeUop_decoded {cx : Ctx} {code : BitVec 4} {args : UopArgs} {i : Instr} (h : decodeUop code args = .ok i) :
    i.selectedIn cx = true ∧ encode i = .uop code args := by
  unfold decodeUop at h
  split at h
  all_goals cases h
  all_goals
    rename_i hcode
    exact ⟨rfl, congrArg (Req.uop · _) (BitVec.eq_of_toNat_eq hcode.symm)⟩

theorem PseudoOp.instr_decoded (cx : Ctx) (op : PseudoOp) :
    op.instr.selectedIn cx = true ∧ encode op.instr = .pseudo op := by
  cases op <;> simp [PseudoOp.instr, Instr.selectedIn, encode]

/-! ## The decoder and the encoder -/

theorem decode_eq_ok {cx : Ctx} {r : Req} {i : Instr} :
    decode cx r = .ok i ↔ decodeFormat cx r = .ok i ∧ i.wf cx = true := by
  unfold decode
  cases decodeFormat cx r with
  | error e => simp
  | ok j => grind

/-- R70: by its format, a request decodes to an instruction that is selected and stands for the request, in_data of an
event apart (R38). -/
theorem decodeFormat_decoded {cx : Ctx} {r : Req} {i : Instr} (h : decodeFormat cx r = .ok i) :
    i.selectedIn cx = true ∧ ((∀ k d, r = .evt k d → k = 1 ∨ d = 0) → encode i = r) := by
  cases r with
  | ext w =>
    cases h
    obtain ⟨st, b, row, hrow, hw, hi⟩ := exists_selectsRow cx.full w
    obtain ⟨_, hsel, henc⟩ := hrow.decoded cx
    rw [hi, hw]
    exact ⟨hsel, fun _ => henc⟩
  | evt kind data =>
    cases h
    exact ⟨decodeEvt_selectedIn cx kind data, fun hdata => encode_decodeEvt (hdata kind data rfl)⟩
  | wire w => exact (decodeWire_decoded h).imp_right fun henc _ => henc
  | enc b =>
    cases h
    exact (decodeEnc_decoded cx b).imp_right fun henc _ => henc
  | encFrame content =>
    cases h
    exact ⟨rfl, fun _ => rfl⟩
  | hdr f c =>
    cases h
    exact (HdrRow.instr_decoded rfl).imp_right fun henc _ => henc
  | lay c => exact (decodeLay_decoded h).imp_right fun henc _ => henc
  | desc d =>
    cases h
    exact ⟨rfl, fun _ => rfl⟩
  | uop code args => exact (decodeUop_decoded h).imp_right fun henc _ => henc
  | pseudo op =>
    cases h
    exact (PseudoOp.instr_decoded cx op).imp_right fun henc _ => henc

/-- Settles O57: a decoded instruction passed the check of its operands, and each format decodes to what stands for the
request. -/
theorem decodedRequestsAreTheirEncodings : Obligations.DecodedRequestsAreTheirEncodings := by
  unfold Obligations.DecodedRequestsAreTheirEncodings
  intro cx r i h
  obtain ⟨hformat, hwf⟩ := decode_eq_ok.1 h
  exact ⟨hwf, decodeFormat_decoded hformat⟩

end Sys2Proof

namespace Sys2Proof

open Machine

/-! ## Decode of encode (R70 to R81) -/

/-- R73: an EXT row decodes from the word of a state and a byte that select it. -/
theorem SelectsRow.decodeFormat_ext {st : FxState} {b : Byte} {row : ExtRow} (h : SelectsRow st b row) (cx : Ctx) :
    decodeFormat cx (.ext (extWord st b)) = .ok (row.instr cx.full b) := by
  obtain rfl : byteRow st b = row := by cases h <;> simp_all [byteRow, DLE, STX, ETX]
  exact congrArg Except.ok (decodeExt_extWord cx.full st b)

/-- R74, R140: an HDR request decodes to the row its frame selects. -/
theorem decodeFormat_hdr {cx : Ctx} {f : List Byte} {dir : Dir} {row : HdrRow} (h : selectHdr cx.cfg f dir = row) :
    decodeFormat cx (.hdr f dir.code) = .ok (row.instr f dir) := by
  simp [decodeFormat, h]

/-- The format of an instruction's request gives the instruction back. -/
theorem decodeFormat_encode {cx : Ctx} {i : Instr} (hwf : i.wf cx = true) (hsel : i.selectedIn cx = true) :
    decodeFormat cx (encode i) = .ok i := by
  cases i with
  | stoppedDle => exact SelectsRow.stoppedDle.decodeFormat_ext cx
  | stoppedOther b => exact (SelectsRow.stoppedOther (by simpa [Instr.wf] using hwf)).decodeFormat_ext cx
  | firstStx => exact SelectsRow.firstStx.decodeFormat_ext cx
  | firstOther b => exact (SelectsRow.firstOther (by simpa [Instr.wf] using hwf)).decodeFormat_ext cx
  | inmsgDle => exact SelectsRow.inmsgDle.decodeFormat_ext cx
  | inmsgData b =>
    have hfull : cx.full = false := by simpa [Instr.selectedIn] using hsel
    simpa [ExtRow.instr, hfull, encode] using (SelectsRow.inmsgData (by simpa [Instr.wf] using hwf)).decodeFormat_ext cx
  | escDle =>
    have hfull : cx.full = false := by simpa [Instr.selectedIn] using hsel
    simpa [ExtRow.instr, hfull, encode] using SelectsRow.escDle.decodeFormat_ext cx
  | escEtx => exact SelectsRow.escEtx.decodeFormat_ext cx
  | escOther b =>
    obtain ⟨hd, he⟩ : b ≠ DLE ∧ b ≠ ETX := by simpa [Instr.wf] using hwf
    exact (SelectsRow.escOther hd he).decodeFormat_ext cx
  | overflow b =>
    have hfull : cx.full = true := by simpa [Instr.selectedIn] using hsel
    by_cases hb : b = DLE
    · subst hb
      simpa [ExtRow.instr, hfull, encode] using SelectsRow.escDle.decodeFormat_ext cx
    · simpa [ExtRow.instr, hfull, encode, hb] using (SelectsRow.inmsgData hb).decodeFormat_ext cx
  | encOther b => simpa [encode, decodeFormat, decodeEnc, Instr.wf] using hwf
  | hdrShort f dir => exact decodeFormat_hdr (by simpa [Instr.selectedIn] using hsel)
  | hdrError f dir => exact decodeFormat_hdr (by simpa [Instr.selectedIn] using hsel)
  | health f dir => exact decodeFormat_hdr (by simpa [Instr.selectedIn] using hsel)
  | spConfig f dir => exact decodeFormat_hdr (by simpa [Instr.selectedIn] using hsel)
  | vw f dir => exact decodeFormat_hdr (by simpa [Instr.selectedIn] using hsel)
  | unmapped255 f dir => exact decodeFormat_hdr (by simpa [Instr.selectedIn] using hsel)
  | unknownType f dir => exact decodeFormat_hdr (by simpa [Instr.selectedIn] using hsel)
  | otherMapped f dir => exact decodeFormat_hdr (by simpa [Instr.selectedIn] using hsel)
  | decode f dir => simp [encode, decodeFormat, PseudoOp.instr]
  | nextMessage n dir => simp [encode, decodeFormat, PseudoOp.instr]
  | _ => rfl

theorem decode_encode {cx : Ctx} {i : Instr} (hwf : i.wf cx = true) (hsel : i.selectedIn cx = true) :
    decode cx (encode i) = .ok i :=
  decode_eq_ok.2 ⟨decodeFormat_encode hwf hsel, hwf⟩

end Sys2Proof

namespace Sys2Proof.Machine

/-! ## One step of the machine (R38, R55, R73) -/

theorem runReq_of_decode {s : State} {r : Req} {i : Instr} (h : decode s.ctx r = .ok i) : runReq r s = exec i s := by
  simp [runReq, h]

/-- A rule that is selected and does what the byte step does is the step on the byte. -/
theorem fxRun_eq_byte {s : State} {b : Byte} {sel : Bool} {rule : Fx → FxStep} (hsel : sel = true)
    (hrule : rule s.fx = s.fx.byte s.cfg.frameMax b) : fxRun sel rule s = fxAnswer (.byte b) s := by
  simp [fxAnswer, fxRun, hsel, hrule]

/-- R73, R100: in its state, the row of a byte is the step on the byte. -/
theorem exec_selected_row {s : State} {b : Byte} {row : ExtRow} (h : SelectsRow s.fx.st b row) :
    exec (row.instr s.full b) s = fxAnswer (.byte b) s := by
  generalize hst : s.fx.st = st at h
  cases h with
  | stoppedDle => exact fxRun_eq_byte (by simp [hst]) (by simp [Fx.byte, hst])
  | stoppedOther hb => exact fxRun_eq_byte (by simp [hst]) (by simp [Fx.byte, hst, hb])
  | firstStx => exact fxRun_eq_byte (by simp [hst]) (by simp [Fx.byte, hst])
  | firstOther hb => exact fxRun_eq_byte (by simp [hst]) (by simp [Fx.byte, hst, hb])
  | inmsgDle => exact fxRun_eq_byte (by simp [hst]) (by simp [Fx.byte, hst])
  | inmsgData hb =>
    cases hfull : s.full with
    | false => exact fxRun_eq_byte (by simp [hst]) (by simp [Fx.byte, hst, hb])
    | true => exact fxRun_eq_byte (by simp [hst, hb, hfull]) (by simp [Fx.byte, hst, hb, Fx.inmsgData_full b hfull])
  | escDle =>
    cases hfull : s.full with
    | false => exact fxRun_eq_byte (by simp [hst]) (by simp [Fx.byte, hst])
    | true => exact fxRun_eq_byte (by simp [hst, hfull]) (by simp [Fx.byte, hst, Fx.escDle_full hfull])
  | escEtx => exact fxRun_eq_byte (by simp [hst]) (by simp [Fx.byte, hst, ETX, DLE])
  | escOther hd he => exact fxRun_eq_byte (by simp [hst]) (by simp [Fx.byte, hst, hd, he])

/-- R38, R73: the instruction that a byte's word decodes to in the present state is the step on the byte. -/
theorem exec_decodeExt (s : State) (b : Byte) :
    exec (decodeExt s.full (extWord s.fx.st b)) s = fxAnswer (.byte b) s := by
  rw [decodeExt_extWord]
  exact exec_selected_row (selectsRow_byteRow _ _)

/-- R38: the request an answer of the transport stands for is the event of the answer. -/
theorem runReq_answerReq (s : State) (a : Answer) : runReq (answerReq s.fx.st a) s = fxAnswer a s := by
  cases a with
  | byte b =>
    have hrow := selectsRow_byteRow s.fx.st b
    obtain ⟨hwf, _, _⟩ := hrow.decoded s.ctx
    rw [answerReq, runReq_of_decode (decode_eq_ok.2 ⟨hrow.decodeFormat_ext s.ctx, hwf⟩)]
    exact exec_selected_row hrow
  | noData | timeout | error => rfl

/-- With no request waiting, a step takes one answer of the transport (R55). -/
theorem step_answer {s : State} {a : Answer} {rest : List Answer} (hreqs : s.reqs = []) (hline : s.line = a :: rest) :
    step s = fxAnswer a { s.quiet with line := rest } := by
  simp only [step, serve, quiet_reqs, quiet_line, hreqs, hline]
  exact runReq_answerReq { s.quiet with reqs := [], line := rest } a

theorem step_idle {s : State} (hreqs : s.reqs = []) (hline : s.line = []) : step s = .next s.quiet := by
  simp only [step, serve, quiet_reqs, quiet_line, hreqs, hline]
  rfl

theorem step_op {s : State} {r : Req} {rest : List Input} (hreqs : s.reqs = .op r :: rest) :
    step s = runReq r { s.quiet with reqs := rest } := by
  simp only [step, serve, quiet_reqs, hreqs]

/-- Settles O58: a request by decode of encode, an answer by the event it stands for. -/
theorem stepRunsTheDecodedInstruction : Obligations.StepRunsTheDecodedInstruction := by
  unfold Obligations.StepRunsTheDecodedInstruction
  refine ⟨fun s i rest hwf hsel hreqs => ?_, fun s rest hreqs => ⟨fun b hline => ?_, ?_, ?_, ?_, ?_⟩⟩
  · rw [step_op hreqs]
    exact runReq_of_decode (decode_encode (cx := s.ctx) hwf hsel)
  · rw [step_answer hreqs hline]
    exact (exec_decodeExt { s.quiet with line := rest } b).symm
  · exact step_answer hreqs
  · exact step_answer hreqs
  · exact step_answer hreqs
  · exact step_idle hreqs

/-! ## Steps over the transport's answers (R111, R115) -/

/-- The byte of an answer, if it has one, then those of the rest. -/
theorem bytesOf_cons (a : Answer) (as : List Answer) : bytesOf (a :: as) = bytesOf [a] ++ bytesOf as := by
  cases a <;> rfl

/-- R115: a run over the bytes of answers, the first answer's apart. -/
theorem Fx.run_bytesOf_cons (max : Option Nat) (q : Fx) (a : Answer) (as : List Answer) :
    (q.run max (bytesOf (a :: as))).1 = ((q.run max (bytesOf [a])).1.run max (bytesOf as)).1 := by
  rw [bytesOf_cons, Fx.run_append]

/-- R111, R113: on a live connection with no call, an answer that is no error steps FX over its byte, if it has one, and
gives a label. -/
theorem fxAnswer_no_call {s : State} {a : Answer} (hf : s.failed = false) (hc : s.call = none) (ha : a ≠ .error) :
    ∃ l, fxAnswer a s = .next { s with fx := (s.fx.run s.cfg.frameMax (bytesOf [a])).1, label := l } := by
  cases a with
  | noData => exact ⟨s.label, rfl⟩
  | byte b => exact ⟨_, fxRun_no_call hf hc⟩
  | timeout => exact ⟨.timedOut, by simp [fxAnswer, fxTimeout, hf, deliver_no_call hc, bytesOf]⟩
  | error => exact absurd rfl ha

/-- One more step of a run of the machine. -/
theorem core_run_succ {k : Nat} {s t : State} (h : step s = .next t) :
    Host.Core.run Sys2Proof.core (k + 1) s = Host.Core.run Sys2Proof.core k t := by
  simp only [Host.Core.run]
  rw [show Sys2Proof.core.step s = .next t from h]

/-- Settles O15, by induction over the answers. -/
theorem stepsFollowTheBytesWhateverTheTimeouts : Obligations.StepsFollowTheBytesWhateverTheTimeouts := by
  unfold Obligations.StepsFollowTheBytesWhateverTheTimeouts
  intro s as rest hreqs hcall hfailed hline herr
  induction as generalizing s with
  | nil => exact ⟨s, rfl, rfl, hline, hfailed, hcall, fun _ => rfl, fun h => absurd rfl h, rfl⟩
  | cons a as ih =>
    obtain ⟨ha, has⟩ : a ≠ .error ∧ .error ∉ as := by simpa [eq_comm] using herr
    obtain ⟨l, hl⟩ := fxAnswer_no_call (s := { s.quiet with line := as ++ rest }) hfailed hcall ha
    have hstep := (step_answer hreqs hline).trans hl
    obtain ⟨t, hrun, hfx, hrest, hf, hc, hnil, hcons, hcfg⟩ :=
      ih { s.quiet with fx := (s.fx.run s.cfg.frameMax (bytesOf [a])).1, label := l, line := as ++ rest }
        hreqs hcall hfailed rfl has
    refine ⟨t, (core_run_succ hstep).trans hrun, ?_, hrest, hf, hc, by simp, fun _ => ?_, hcfg⟩
    · exact hfx.trans (Fx.run_bytesOf_cons _ s.fx a as).symm
    · by_cases hempty : as = []
      · rw [hnil hempty]; rfl
      · exact hcons hempty

end Sys2Proof.Machine

namespace Sys2Proof.Machine

/-! ## Types mapped outside the spec (R210) -/

/-- R137: bit 6 of a byte, tested against zero or against the mask. -/
theorem and_mark_eq_iff (b : Byte) : b &&& HDR_MARK = HDR_MARK ↔ b &&& 0x40 ≠ 0 := by
  rw [show HDR_MARK = BitVec.twoPow 8 6 from rfl, show (0x40 : Byte) = BitVec.twoPow 8 6 from rfl, BitVec.and_twoPow]
  split
  · decide
  · decide

theorem lookup_255 (c : Config) (dir : Dir) : c.lookup dir 255 = .unmapped := rfl

/-- The case of a decode that a mapped cell of a dispatch table stands for (R141). -/
def cellRow : Entry → HdrRow
  | .unmapped => .unknownType
  | .health => .health
  | .spConfig => .spConfig
  | .vw => .vw
  | .program _ _ | .lacking => .otherMapped

/-- R135: a whole header with the marker set and a type that is mapped selects the case of its cell. -/
theorem selectHdr_mapped {c : Config} {f : List Byte} {dir : Dir} {cell : Entry} (hlen : 6 ≤ f.length)
    (hmark : f.getD 0 0 &&& 0x40 ≠ 0) (hcell : c.lookup dir (f.getD 5 0) = cell) (hmapped : cell ≠ .unmapped) :
    selectHdr c f dir = cellRow cell := by
  have hwhole : ¬ f.length < HDR_LEN := Nat.not_lt.2 hlen
  have hset : markerSet f = true := decide_eq_true ((and_mark_eq_iff _).2 hmark)
  have htype : msgTypeOf f ≠ 255 := fun h => hmapped (hcell.symm.trans ((congrArg (c.lookup dir) h).trans (lookup_255 c dir)))
  have hlookup : c.lookup dir (msgTypeOf f) = cell := hcell
  unfold selectHdr
  rw [if_neg hwhole, hset, if_neg (by decide), if_neg htype, hlookup]
  cases cell <;> rfl

section OtherMapped

variable {s : State} {f : List Byte} {dir : Dir}

theorem exec_otherMapped (hsel : selectHdr s.cfg f dir = .otherMapped) :
    exec (.otherMapped f dir) s = mdReturn (otherResult s.cfg f dir) s :=
  if_pos hsel

theorem otherResult_lacking {c : Config} (h : c.lookup dir (msgTypeOf f) = .lacking) :
    otherResult c f dir = .refuse .decoderLacking := by
  simp [otherResult, h]

/-- R29, R205: a decoder of the configuration, well formed, is run from the bit its cell names. -/
theorem otherResult_program {c : Config} {start : Nat} {d : Parser} (h : c.lookup dir (msgTypeOf f) = .program start d) :
    otherResult c f dir =
      if d.wfPayload c start then recordResult f (programPayload c start d (payload f))
      else .refuse .decoderIllFormed := by
  simp [otherResult, h]

end OtherMapped

/-- Settles O36: such a type selects OTHER_MAPPED, whose end is that of the configuration's decoder. -/
theorem otherMappedTypesRunOrAreRefused : Obligations.OtherMappedTypesRunOrAreRefused := by
  unfold Obligations.OtherMappedTypesRunOrAreRefused
  intro s f dir hlen hmark
  refine ⟨fun hcell => ?_, fun start d hcell => ?_⟩
  · rw [exec_otherMapped (selectHdr_mapped hlen hmark hcell (by decide)), otherResult_lacking hcell]
    rfl
  · rw [exec_otherMapped (selectHdr_mapped hlen hmark hcell (by simp)), otherResult_program hcell]
    refine ⟨fun hwf => ?_, fun r cur hwf hrun => ?_, fun hwf hrun => ?_⟩
    · simp [hwf, mdReturn]
    · simp [hwf, programPayload, payload, HDR_LEN, hrun, asRecord, recordResult, mdReturn]
    · simp [hwf, programPayload, payload, HDR_LEN, hrun, recordResult, mdReturn]

/-! ## Words and codes (R35, R39, R70 to R81, R140) -/

/-- Settles O55: words of each format evaluated, and the code tables by their rows. -/
theorem wordsAndPortCodesAreTheSpecs : Obligations.WordsAndPortCodesAreTheSpecs := by
  unfold Obligations.WordsAndPortCodesAreTheSpecs
  refine ⟨by decide, fun r => ?_, fun l => ?_, fun l => ?_, fun r => ?_, fun s => ⟨rfl, ?_⟩, by decide,
    fun s => ⟨fun h => ?_, fun r h => ?_⟩⟩
  · cases r <;> rfl
  · cases l <;> rfl
  · cases l <;> simp [labelReachesCaller]
  · cases r <;> simp [resultIsError]
  · unfold statusSt
    cases s.fx.st <;> rfl
  · simp [strobe, h]
  · simp [strobe, h]

end Sys2Proof.Machine

namespace Sys2Proof.Machine

/-! ## The configuration (R63, R260) -/

theorem PureEffect.cfg_eq {s t : State} (h : PureEffect s t) : t.cfg = s.cfg := by
  obtain ⟨r, v, p, c, T, a, is, w, rfl⟩ := h
  rfl

theorem CallEffect.cfg_eq {s t : State} (h : CallEffect s t) : t.cfg = s.cfg := by
  obtain ⟨q, l, f, r, c, ln, rfl, _⟩ := h
  rfl

/-- R63: no instruction writes the configuration. -/
theorem exec_cfg_eq {i : Instr} {s t : State} (h : exec i s = .next t) : t.cfg = s.cfg := by
  obtain hp | he | ⟨_, hc⟩ := exec_next h
  · exact hp.cfg_eq
  · exact he.call.cfg_eq
  · exact hc.cfg_eq

/-- Settles O11: a step is the reset pin or one instruction, and neither writes the configuration. -/
theorem configurationNeverWritten : Obligations.ConfigurationNeverWritten := by
  unfold Obligations.ConfigurationNeverWritten
  intro s t h
  obtain ⟨rest, _, rfl⟩ | ⟨i, rq, ln, hi⟩ := step_next h
  · rfl
  · exact exec_cfg_eq (s := { s.quiet with reqs := rq, line := ln }) hi

end Sys2Proof.Machine

namespace Sys2Proof.Machine

/-! ## Selection of an instruction, the header, and fields (R38, R73, R75, R82) -/

/-- Settles O56. -/
theorem decodeOfEncodeIsTheInstruction : Obligations.DecodeOfEncodeIsTheInstruction := by
  unfold Obligations.DecodeOfEncodeIsTheInstruction
  exact fun _ _ hwf hsel => decode_encode hwf hsel

/-- Settles O7: the row of a state and a byte, and BYTE as the step on the byte. -/
theorem everyStateAndByteSelectsItsRow : Obligations.EveryStateAndByteSelectsItsRow := by
  unfold Obligations.EveryStateAndByteSelectsItsRow
  refine ⟨fun full st b => ?_, fun d => ⟨rfl, rfl, rfl, rfl⟩, fun w => ?_, fun s b => (exec_decodeExt s b).symm,
    fun s b hf hc => ⟨_, _, fxRun_no_call hf hc, rfl⟩, fun s => rfl⟩
  · rw [decodeExt_extWord]
    cases st with
    | stopped | firstDelimiter | inMessage | inMessageEscape =>
      simp only [byteRow, apply_ite (ExtRow.instr full b)]
      rfl
  · rw [← extWord_extState_extByte w, extSelect_extWord]
    rfl

/-- R138: the parts of nodeId do not overlap. -/
theorem parseHeader_nodeId_toNat (f : List Byte) :
    (parseHeader f).nodeId.toNat =
      (frameByte f 0).toNat % 16 * 65536 + (frameByte f 2).toNat * 256 + (frameByte f 3).toNat := by
  have h2 : (frameByte f 2).toNat < 256 := (frameByte f 2).isLt
  have h3 : (frameByte f 3).toNat < 2 ^ 8 := (frameByte f 3).isLt
  have hmid : (frameByte f 2).toNat <<< 8 < 2 ^ 16 := by rw [Nat.shiftLeft_eq]; omega
  have hlow : (frameByte f 0 &&& 0x0F).toNat = (frameByte f 0).toNat % 16 := Nat.and_two_pow_sub_one_eq_mod _ 4
  have hpair : ((frameByte f 0).toNat % 16) <<< 16 + (frameByte f 2).toNat <<< 8 =
      ((frameByte f 0).toNat % 16 * 256 + (frameByte f 2).toNat) <<< 8 := by simp only [Nat.shiftLeft_eq]; omega
  calc (parseHeader f).nodeId.toNat
      = ((frameByte f 0).toNat % 16) <<< 16 ||| (frameByte f 2).toNat <<< 8 ||| (frameByte f 3).toNat := by
        simp only [parseHeader, BitVec.toNat_or, BitVec.toNat_shiftLeft, BitVec.toNat_setWidth, hlow, Nat.shiftLeft_eq]
        congr 1 <;> [congr 1; skip] <;> omega
    _ = (((frameByte f 0).toNat % 16) * 256 + (frameByte f 2).toNat) <<< 8 + (frameByte f 3).toNat := by
        rw [← Nat.shiftLeft_add_eq_or_of_lt hmid, hpair, Nat.shiftLeft_add_eq_or_of_lt h3]
    _ = _ := by rw [Nat.shiftLeft_eq]; omega

/-- Settles O28. -/
theorem headerFieldsFromTheirBytes : Obligations.HeaderFieldsFromTheirBytes := by
  unfold Obligations.HeaderFieldsFromTheirBytes
  exact fun _ _ _ _ _ _ _ => ⟨parseHeader_nodeId_toNat _, rfl, rfl, rfl⟩

/-- R161: the complement of a `w`-bit value. -/
theorem xor_two_pow_sub_one {v w : Nat} (h : v < 2 ^ w) : v ^^^ (2 ^ w - 1) = 2 ^ w - (v + 1) := by
  refine Nat.eq_of_testBit_eq fun i => ?_
  rw [Nat.testBit_xor, Nat.testBit_two_pow_sub_one, Nat.testBit_two_pow_sub_succ h]
  by_cases hi : i < w
  · simp [hi]
  · simp [hi, Nat.testBit_lt_two_pow (h.trans_le (Nat.pow_le_pow_right (by decide) (not_lt.1 hi)))]

/-- R161: from half the range on, a value reads as itself less the range. -/
theorem signExtend_eq {v w : Nat} (hw : 1 ≤ w) (hv : v < 2 ^ w) :
    signExtend v w = if 2 ^ w ≤ 2 * v then (v : Int) - 2 ^ w else v := by
  obtain ⟨m, rfl⟩ := Nat.exists_eq_add_of_le' hw
  have hrange : ((2 ^ (m + 1) : Nat) : Int) = 2 ^ (m + 1) := by norm_cast
  by_cases hhalf : 2 ^ (m + 1) ≤ 2 * v
  · have hbit : v.testBit m = true := Nat.testBit_of_two_pow_le_and_two_pow_add_one_gt (by omega) hv
    rw [if_pos hhalf, signExtend, Nat.add_sub_cancel, if_pos hbit, xor_two_pow_sub_one hv]
    omega
  · have hbit : v.testBit m = false := Nat.testBit_lt_two_pow (by omega)
    simp [signExtend, hbit, hhalf]

/-- R162 -/
theorem sentinelUnsigned_eq (v n : Nat) : sentinelUnsigned v n = decide (v + 1 = 2 ^ n) := by
  have := Nat.two_pow_pos n
  exact decide_eq_decide.2 (by omega)

/-- R163 -/
theorem sentinelSigned_eq {v n : Nat} (hn : 1 ≤ n) : sentinelSigned v n = decide (2 * v = 2 ^ n) := by
  obtain ⟨m, rfl⟩ := Nat.exists_eq_add_of_le' hn
  exact decide_eq_decide.2 (by rw [Nat.add_sub_cancel]; omega)

/-- R190: an enumerated integer is named by the first row of its key. -/
theorem enumName_eq (x : Int) (e : Enum) :
    enumName x e = (e.find? fun r => r.1 = x).elim (.unrecognized x) fun r => .str r.2 := by
  induction e with
  | nil => rfl
  | cons r e ih =>
    by_cases h : r.1 = x
    · simp [enumName, h]
    · simp [enumName, h, ih]

/-- R168: a group of one item is its item. -/
theorem groupLoop_one {g : Nat → Nat → Bu (Value × Nat)} {cur cur' : Nat} {v : Value} (h : g cur 0 = .ok (v, cur')) :
    groupLoop g 1 0 cur = .ok (valuesOf [v], cur') := by
  simp [groupLoop, h, valuesOf]

/-- R172: a field that lies in the payload. -/
theorem readField_ok {p : List Byte} {cur : Nat} {f : FieldSpec} (c : Config) (t : Fields) (hw : widthOk f.width = true)
    (hend : cur + f.width ≤ 8 * p.length) :
    readField c p t cur f = .ok (fieldValue c t f (bitSum p cur f.width), cur + f.width) := by
  simp [readField, extract_eq_ok.2 ⟨hw, hend, rfl⟩]

/-- R82: a field is ABSENT by its raw pattern; another raw value is sign extended and then converted. -/
theorem fieldValue_eq (c : Config) (t : Fields) (f : FieldSpec) {raw : Nat} (hw : 1 ≤ f.width) (hraw : raw < 2 ^ f.width) :
    fieldValue c t f raw =
      if f.sentinel ∧ (if f.signed then 2 * raw = 2 ^ f.width else raw + 1 = 2 ^ f.width) then .absent
      else converted (fun code x => pairValue (unitScaled c x (namedInt t code)))
        (if f.signed ∧ 2 ^ f.width ≤ 2 * raw then (raw : Int) - 2 ^ f.width else raw) f.conv := by
  unfold fieldValue
  rw [sentinelUnsigned_eq, sentinelSigned_eq hw, signExtend_eq hw hraw]
  cases f.signed <;> simp

/-- Settles O41: the two tests by their patterns, and a field as the one item of a group. -/
theorem sentinelPatternsReadAbsent : Obligations.SentinelPatternsReadAbsent := by
  unfold Obligations.SentinelPatternsReadAbsent
  refine ⟨fun s v n hn _ => ?_, fun s p off n conv signed sentinel hn hmax hend => ?_⟩
  · have hn0 : n ≠ 0 := by omega
    rw [← sentinelUnsigned_eq, ← sentinelSigned_eq hn]
    simp [exec, execSentU, execSentS, Machine.sentinel, hn0]
  · have hread := readField_ok (f := ⟨n, signed, sentinel, conv⟩) s.cfg s.tab ((widthOk_iff n).2 ⟨hn, hmax⟩) hend
    rw [fieldValue_eq s.cfg s.tab _ hn (bitSum_lt p off n)] at hread
    have hgroup := groupLoop_one (g := fun cur j => runParser s.cfg p s.tab j cur (.field ⟨n, signed, sentinel, conv⟩))
      hread
    simp only [exec, execGroups, hgroup, uopReturn_ok]
    cases conv with
    | plain => rfl
    | named e =>
      simp only [converted, enumName_eq]
      cases e.find? _ <;> rfl
    | scaled how =>
      cases how with
      | places k => rfl
      | byUnit code => rfl

end Sys2Proof.Machine

namespace Sys2Proof.Machine

/-! ## Schemas that are refused before they run (R80, R189, U14) -/

/-- R80, R189: the descriptors of a schema are checked in declared order, each with the names of those before it. -/
theorem schemaOf_append_wf (before after : List Desc) (names : List String) :
    (schemaOf (before ++ after)).wf names =
      ((schemaOf before).wf names && (schemaOf after).wf ((before.map Desc.name).reverse ++ names)) := by
  induction before generalizing names with
  | nil => simp [schemaOf, Schema.wf]
  | cons d before ih => simp [schemaOf, Schema.wf, ih, Bool.and_assoc]

theorem Desc.wf_eq_false_of_mem {d : Desc} {names : List String} (h : d.name ∈ names) : d.wf names = false := by
  cases d with
  | mk name width enum signed cond sub =>
    have hmem : name ∈ names := h
    simp [Desc.wf, hmem]

/-- R80: a schema that repeats a name is not well formed. -/
theorem schema_wf_eq_false_of_repeated_name {before between after : List Desc} {d d' : Desc} {names : List String}
    (h : d.name = d'.name) : (schemaOf (before ++ d :: (between ++ d' :: after))).wf names = false := by
  simp [schemaOf_append_wf, schemaOf, Schema.wf, Desc.wf_eq_false_of_mem (d := d'), h]

/-- R189: a schema with a condition on a name that no earlier descriptor has is not well formed. -/
theorem schema_wf_eq_false_of_unknown_name {before after : List Desc} {name n : String} {w : Nat} {e : Option Enum} {signed : Bool}
    {k : Cond} {sub : Sub} (hread : n ∈ condNames k) (hnone : ∀ d ∈ before, d.name ≠ n) :
    (schemaOf (before ++ .mk name w e signed (some k) sub :: after)).wf [] = false := by
  have hcond : condOk ((before.map Desc.name).reverse ++ []) (some k) = false := by
    simp only [condOk, List.all_eq_false]
    exact ⟨n, hread, by simpa using hnone⟩
  rw [schemaOf_append_wf, schemaOf, Schema.wf, Desc.wf, hcond]
  simp

theorem decode_illFormed {cx : Ctx} {r : Req} {i : Instr} (hformat : decodeFormat cx r = .ok i) (hwf : i.wf cx = false) :
    decode cx r = .error .illFormed := by
  simp [decode, hformat, hwf]

section Decoding

variable {cx : Ctx} {ds : Schema} {p : List Byte} {cur : Nat}

theorem schemaRun_wf : (Instr.schemaRun p cur ds).wf cx = (ds.wf [] && (Parser.schema ds).defined cx.cfg .nil cur) := by
  simp [Instr.wf, Parser.wfRun, Parser.wf]

/-- U14: a program with a schema that is not well formed, or not defined, is refused by the decoder. -/
theorem decode_program_illFormed (h : ds.wf [] = true → (Parser.schema ds).defined cx.cfg .nil cur = false) :
    decode cx (.uop 12 (.program p cur ds)) = .error .illFormed := by
  refine decode_illFormed (i := .schemaRun p cur ds) rfl ?_
  rw [schemaRun_wf, Bool.and_eq_false_imp]
  exact h

theorem decode_program_ok (hwf : ds.wf [] = true) (hdef : (Parser.schema ds).defined cx.cfg .nil cur = true) :
    decode cx (.uop 12 (.program p cur ds)) = .ok (.schemaRun p cur ds) :=
  decode_encode (i := .schemaRun p cur ds) (by rw [schemaRun_wf, hwf, hdef]; rfl) rfl

/-- R189: a lone descriptor whose sub-parser is such a schema is refused too. -/
theorem decode_desc_illFormed {name : String} {w : Nat} {e : Option Enum} {signed : Bool}
    (h : ds.wf [] = true → (Parser.schema ds).defined cx.cfg cx.tab cx.cur = false) :
    decode cx (.desc (.mk name w e signed none (.some (.schema ds)))) = .error .illFormed := by
  refine decode_illFormed (i := .desc (.mk name w e signed none (.some (.schema ds)))) rfl ?_
  simp only [Instr.wf, Desc.wfAlone, Sub.wf, Parser.wf, Sub.definedIn, fieldPresent_none, Bool.and_eq_false_imp]
  intro hwf
  simp [h (Bool.and_eq_true_iff.1 hwf).2]

end Decoding

/-! ## Conditions on a name that some payloads only write (R189) -/

/-- The names a condition reads are looked at. -/
theorem mem_schemaLooks_names {name n : String} {w : Nat} {e : Option Enum} {signed : Bool} {k : Cond} {sub : Sub}
    {rest : Schema} (h : n ∈ condNames k) :
    n ∈ (schemaLooks (.cons (.mk name w e signed (some k) sub) rest)).names := by
  simp only [schemaLooks, descLooks, Looks.append, Looks.names, List.mem_append, List.mem_flatMap]
  exact .inl (.inl ⟨k, by simp, h⟩)

theorem mem_schemaLooks_names_of_rest {d : Desc} {n : String} {rest : Schema} (h : n ∈ (schemaLooks rest).names) :
    n ∈ (schemaLooks (.cons d rest)).names := by
  simp only [schemaLooks, Looks.append, Looks.names, List.mem_append, List.mem_flatMap] at h ⊢
  grind

/-- A descriptor of a plain unsigned field. -/
def plainDesc (name : String) (w : Nat) (cond : Option Cond) : Desc := .mk name w none false cond .none

/-- A schema that writes `b` where `a` is `v` only, and then has a condition on `b`. -/
def unguardedSchema (a b n : String) (w : Nat) (v u : Value) (after : List Desc) : Schema :=
  schemaOf (plainDesc a w none :: plainDesc b w (some (.equals a v)) :: plainDesc n w (some (.equals b u)) :: after)

/-- The same with `a` tested first in the condition on `b`. -/
def guardedSchema (a b n : String) (w : Nat) (v u : Value) : Schema :=
  schemaOf [plainDesc a w none, plainDesc b w (some (.equals a v)),
    plainDesc n w (some (.and (.equals a v) (.equals b u)))]

section Ways

variable {c : Config} {q : Probe} {outer t : Fields} {j cur w : Nat} {name : String} {cond : Option Cond}

/-- A field that is present takes the least and the greatest integer of its width, in a run that counts no room. -/
theorem mem_descWays_plain (hq : q.room = none) (hcond : fieldPresent t cond = some true) {x : Nat}
    (hx : x = 0 ∨ x = 2 ^ w - 1) :
    some (fieldSet name (.int x) t, cur) ∈ descWays c q outer t j cur (plainDesc name w cond) := by
  simp only [plainDesc, descWays, hcond, subWays, Ways.mem_bind]
  refine .inl ⟨(.int x, cur), ?_, by simp⟩
  simp only [Probe.field, Probe.after, hq, conversionOf]
  exact List.mem_map.2 ⟨.int x, Probe.fieldValues_ends hx, rfl⟩

/-- A plain field stores an integer, or is skipped; it fails only where its condition does. -/
theorem descWays_plain_all (hcond : (fieldPresent t cond).isSome) :
    ∀ r ∈ descWays c q outer t j cur (plainDesc name w cond), ∃ s, r = some s ∧
      (fieldPresent t cond = some false ∧ s.1 = t ∨
        fieldPresent t cond = some true ∧ ∃ x : Int, s.1 = fieldSet name (.int x) t) := by
  intro r hr
  simp only [plainDesc, descWays] at hr
  split at hr
  · simp_all
  · rename_i h
    exact ⟨(t, cur), by simpa using hr, .inl ⟨h, rfl⟩⟩
  · rename_i h
    refine Ways.bind_all (P := fun s => ∃ x : Int, s.1 = .int x) Probe.field_plain (fun s hs w hw => ?_) r hr
    obtain ⟨x, hx⟩ := hs
    exact ⟨_, by simpa using hw, .inr ⟨h, x, by simp [hx]⟩⟩

theorem descWays_skipped (hcond : fieldPresent t cond = some false) :
    descWays c q outer t j cur (plainDesc name w cond) = [some (t, cur)] := by
  simp only [plainDesc, descWays, hcond]

theorem descWays_undefined (hcond : fieldPresent t cond = none) :
    descWays c q outer t j cur (plainDesc name w cond) = [none] := by
  simp only [plainDesc, descWays, hcond]

/-- A name that is looked at keeps its integer. -/
theorem Probe.settle_get_int {names : List String} {x : Int} (hn : name ∈ names) (h : fieldGet name t = some (.int x)) :
    fieldGet name (q.settle names t) = some (.int x) := by
  rw [q.settle_get hn, h]
  rfl

theorem Probe.settle_get_none {names : List String} (hn : name ∈ names) (h : fieldGet name t = none) :
    fieldGet name (q.settle names t) = none := by
  rw [q.settle_get hn, h]
  rfl

end Ways

/-- Of the least and the greatest integer of a field, one is not the value given. -/
theorem exists_end_ne {w : Nat} (hw : 1 ≤ w) (v : Value) : ∃ x : Nat, (x = 0 ∨ x = 2 ^ w - 1) ∧ Value.int x ≠ v := by
  by_cases hv : Value.int (0 : Nat) = v
  · have hrange : 2 ^ 1 ≤ 2 ^ w := Nat.pow_le_pow_right (by decide) hw
    refine ⟨2 ^ w - 1, .inr rfl, fun h => ?_⟩
    injection h.trans hv.symm with hint
    omega
  · exact ⟨0, .inl rfl, hv⟩

section Guarded

variable {c : Config} {q : Probe} {outer t : Fields} {j cur w : Nat} {a b n : String} {v u : Value}

/-- A run that comes to `b` with `a` another integer than `v`, and `b` not yet written, fails at the condition on `b`. -/
theorem none_mem_schemaWays_unwritten {ws : Ways (Fields × Nat)} {x : Int} {rest : Schema} (hws : some (t, cur) ∈ ws)
    (ha : fieldGet a t = some (.int x)) (hx : .int x ≠ v) (hb : fieldGet b t = none) :
    none ∈ schemaWays c q outer j ws
      (.cons (plainDesc b w (some (.equals a v))) (.cons (plainDesc n w (some (.equals b u))) rest)) := by
  have hskip : fieldPresent t (some (.equals a v)) = some false := by simp [evalCond, ha, hx]
  have hskipped : some (t, cur) ∈ descWays c q outer t j cur (plainDesc b w (some (.equals a v))) := by
    rw [descWays_skipped hskip]
    exact List.mem_singleton_self _
  refine mem_schemaWays hws hskipped fun ws' hws' => none_mem_schemaWays_cons hws' ?_
  have hnames : b ∈ (schemaLooks (.cons (plainDesc n w (some (.equals b u))) rest)).names :=
    mem_schemaLooks_names (by simp [condNames])
  rw [descWays_undefined (by simp [evalCond, Probe.settle_get_none hnames hb])]
  exact List.mem_singleton_self _

/-- R189: the run on a payload where `a` is not `v` fails. -/
theorem unguardedSchema_not_defined (hw : 1 ≤ w) (hab : a ≠ b) (after : List Desc) :
    (Parser.schema (unguardedSchema a b n w v u after)).defined c t cur = false := by
  refine schema_not_defined fun c' => ?_
  obtain ⟨x, hx, hne⟩ := exists_end_ne hw v
  refine mem_schemaWays (List.mem_singleton_self _) (mem_descWays_plain rfl rfl hx) fun ws hws => ?_
  refine none_mem_schemaWays_unwritten hws ?_ hne ?_
  · exact Probe.settle_get_int (mem_schemaLooks_names (by simp [condNames])) (fieldGet_set_same _ _ _)
  · refine Probe.settle_get_none (mem_schemaLooks_names_of_rest (mem_schemaLooks_names ?_)) (fieldGet_set_other _ hab.symm _)
    simp [condNames]

/-- U14: it never passes both checks, whatever its names and widths: the first of them gives what the failing run needs. -/
theorem unguardedSchema_not_defined_of_wf {after : List Desc} (hwf : (unguardedSchema a b n w v u after).wf [] = true) :
    (Parser.schema (unguardedSchema a b n w v u after)).defined c t cur = false := by
  simp only [unguardedSchema, schemaOf, plainDesc, Schema.wf, Desc.wf, Sub.wf, Desc.name, Bool.and_eq_true] at hwf
  obtain ⟨⟨_, hw⟩, ⟨⟨⟨hnew, _⟩, _⟩, _⟩, _⟩ := hwf
  have hab : a ≠ b := fun h => by simp [h] at hnew
  exact unguardedSchema_not_defined ((widthOk_iff w).1 hw).1 hab after

/-- `a` is an integer. -/
def HoldsInt (a : String) (t : Fields) : Prop := ∃ x : Int, fieldGet a t = some (.int x)

/-- `a` is an integer, and where it is `v` then `b` is written. -/
def WrittenWhere (a : String) (v : Value) (b : String) (t : Fields) : Prop :=
  ∃ x : Int, fieldGet a t = some (.int x) ∧ (.int x = v → (fieldGet b t).isSome)

theorem WrittenWhere.fieldPresent_isSome (h : WrittenWhere a v b t) :
    (fieldPresent t (some (.and (.equals a v) (.equals b u)))).isSome := by
  obtain ⟨x, ha, hb⟩ := h
  by_cases hx : .int x = v
  · simp [evalCond, ha, hx, hb hx]
  · simp [evalCond, ha, hx]

/-- R189: with `a` tested first, no run reads an absent name. -/
theorem guardedSchema_defined (hab : a ≠ b) : (Parser.schema (guardedSchema a b n w v u)).defined c t cur = true := by
  have hna : a ∈ (schemaLooks (.cons (plainDesc n w (some (.and (.equals a v) (.equals b u)))) .nil)).names :=
    mem_schemaLooks_names (by simp [condNames])
  have hnb : b ∈ (schemaLooks (.cons (plainDesc n w (some (.and (.equals a v) (.equals b u)))) .nil)).names :=
    mem_schemaLooks_names (by simp [condNames])
  refine schema_defined rfl rfl ?_
  simp only [guardedSchema, schemaOf, schemaWays]
  refine schemaWays_step_all (WrittenWhere a v b) (fun _ => True)
    (schemaWays_step_all (HoldsInt a) _
      (schemaWays_step_all (fun _ => True) (HoldsInt a) (by simp) ?_) ?_) ?_
  · intro t cur _ r hr
    obtain ⟨s, rfl, ⟨⟨⟩, _⟩ | ⟨_, x, hs⟩⟩ := descWays_plain_all rfl r hr
    refine ⟨s, rfl, x, Probe.settle_get_int (mem_schemaLooks_names (by simp [condNames])) ?_⟩
    rw [hs, fieldGet_set_same]
  · rintro t cur ⟨x, ha⟩ r hr
    obtain ⟨s, rfl, ⟨hcond, hs⟩ | ⟨_, _, hs⟩⟩ := descWays_plain_all (by simp [evalCond, ha]) r hr
    · refine ⟨s, rfl, x, Probe.settle_get_int hna (by rw [hs, ha]), fun hx => ?_⟩
      simp [evalCond, ha, hx] at hcond
    · refine ⟨s, rfl, x, Probe.settle_get_int hna (by rw [hs, fieldGet_set_other _ hab, ha]), fun _ => ?_⟩
      rw [Probe.settle_get_int hnb (hs ▸ fieldGet_set_same _ _ _)]
      rfl
  · intro t cur hwritten r hr
    obtain ⟨s, rfl, _⟩ := descWays_plain_all hwritten.fieldPresent_isSome r hr
    exact ⟨s, rfl, trivial⟩

/-- R80: its names are distinct, and each condition reads earlier ones. -/
theorem guardedSchema_wf (hw : widthOk w = true) (hab : a ≠ b) (han : a ≠ n) (hbn : b ≠ n) :
    (guardedSchema a b n w v u).wf [] = true := by
  simp [guardedSchema, schemaOf, plainDesc, Schema.wf, Desc.wf, Desc.name, Sub.wf, condOk, condNames, enumOk, hw, hab.symm,
    han.symm, hbn.symm]

end Guarded

/-! ## Operands outside an operation's domain (U9, U13) -/

theorem extract_of_not_widthOk {p : List Byte} {off n : Nat} (h : n = 0 ∨ 32 < n) :
    extract p off n = .refuse .widthOutOfRange := by
  have hw : ¬ widthOk n = true := by rw [widthOk_iff]; omega
  simp [extract, hw]

theorem sext_of_outside {v w : Nat} (h : w = 0 ∨ 2 ^ w ≤ v) : sext v w = .refuse .sextDomain := by
  have hw : ¬ (1 ≤ w ∧ v < 2 ^ w) := by omega
  simpa [sext] using hw

theorem unpackFixed_of_float {p : List Byte} {l : List Item} (h : .f4 ∈ l) : unpackFixed p l = .refuse .floatItem := by
  simp [unpackFixed, h]

/-- Settles O54: the operations by their domains, a schema by the two checks of U14. -/
theorem outsideTheDomainIsRefused : Obligations.OutsideTheDomainIsRefused := by
  unfold Obligations.OutsideTheDomainIsRefused
  refine fun s => ⟨rfl, rfl, rfl, fun p off n h => ?_, fun v w h => ?_, fun p l h => ?_, fun p cur before after =>
    ⟨fun d between d' h => ?_, fun name w e signed k sub n hread hnone => ?_, fun a b n w v u => ?_⟩⟩
  · simp [exec, execExtract, extract_of_not_widthOk h]
  · simp [exec, execSext, sext_of_outside h]
  · simp [exec, execUnpackFixed, unpackFixed_of_float h]
  · exact decode_program_illFormed fun hwf => by simp [schema_wf_eq_false_of_repeated_name h] at hwf
  · exact decode_program_illFormed fun hwf => by simp [schema_wf_eq_false_of_unknown_name hread hnone] at hwf
  · refine ⟨decode_program_illFormed unguardedSchema_not_defined_of_wf,
      fun _ _ _ _ => decode_desc_illFormed unguardedSchema_not_defined_of_wf, fun hmin hmax hab han hbn => ?_⟩
    exact decode_program_ok (guardedSchema_wf ((widthOk_iff w).2 ⟨hmin, hmax⟩) hab han hbn) (guardedSchema_defined hab)

end Sys2Proof.Machine

namespace Sys2Proof

/-- R73: the word of a state and a byte decodes to the row they select. -/
theorem SelectsRow.decodeExt {st : FxState} {b : Byte} {row : ExtRow} (h : SelectsRow st b row) (full : Bool) :
    decodeExt full (extWord st b) = row.instr full b :=
  Except.ok.inj (h.decodeFormat_ext ⟨full, Config.default, .nil, 0⟩)

end Sys2Proof

namespace Sys2Proof.Machine

/-! ## The step rules run as instructions (R101 to R112) -/

/-- R57: the buffer has room. -/
theorem Fx.full_eq_false_iff {max : Option Nat} {q : Fx} : q.full max = false ↔ ∀ n, max = some n → q.len < n := by
  cases max with
  | none => simp
  | some n => simp [Fx.full]

/-- A row selected on a live connection whose label reaches no caller writes FX state and the label. -/
theorem fxRun_silent {s : State} {sel : Bool} {rule : Fx → FxStep} {q : Fx} {l : Label} (hf : s.failed = false)
    (hsel : sel = true) (hrule : rule s.fx = (q, l)) (hl : labelReachesCaller l = false) :
    fxRun sel rule s = .next { s with fx := q, label := l } := by
  subst hsel
  rw [fxRun_quiet hf (by rw [hrule]; exact hl), hrule]

/-- Settles O1: the rows by what selects them, their effect by the step rules, which label nothing. -/
theorem stoppedStepsHuntForDle : Obligations.StoppedStepsHuntForDle := by
  unfold Obligations.StoppedStepsHuntForDle
  refine ⟨fun full => SelectsRow.stoppedDle.decodeExt full, fun full b hb => (SelectsRow.stoppedOther hb).decodeExt full,
    fun s hf hst => ?_⟩
  have hsel := decide_eq_true hst
  exact ⟨fxRun_silent hf hsel rfl rfl, fun _ _ => fxRun_silent hf hsel rfl rfl⟩

/-- Settles O2: the rows by what selects them, their effect by the step rules, which label nothing. -/
theorem firstDelimiterStepsOpenOrResync : Obligations.FirstDelimiterStepsOpenOrResync := by
  unfold Obligations.FirstDelimiterStepsOpenOrResync
  refine ⟨fun full => SelectsRow.firstStx.decodeExt full, fun full b hb => (SelectsRow.firstOther hb).decodeExt full,
    fun s hf hst => ?_⟩
  have hsel := decide_eq_true hst
  exact ⟨fxRun_silent hf hsel rfl rfl, fun _ _ => fxRun_silent hf hsel rfl rfl⟩

/-- Settles O3; the append by the rule for a buffer with room. -/
theorem inMessageStepsEscapeOrAppend : Obligations.InMessageStepsEscapeOrAppend := by
  unfold Obligations.InMessageStepsEscapeOrAppend
  refine ⟨fun full => SelectsRow.inmsgDle.decodeExt full, fun b hb => (SelectsRow.inmsgData hb).decodeExt false,
    fun s hf hst => ?_⟩
  have hsel := decide_eq_true hst
  exact ⟨fxRun_silent hf hsel rfl rfl,
    fun b _ hroom => fxRun_silent hf hsel (Fx.inmsgData_room b (Fx.full_eq_false_iff.2 hroom)) rfl⟩

/-- Settles O4; the append by the rule for a buffer with room. -/
theorem escapeStepsAppendOrAbort : Obligations.EscapeStepsAppendOrAbort := by
  unfold Obligations.EscapeStepsAppendOrAbort
  refine ⟨SelectsRow.escDle.decodeExt false, fun full b hd he => (SelectsRow.escOther hd he).decodeExt full,
    fun s hf hst => ?_⟩
  have hsel := decide_eq_true hst
  exact ⟨fun hroom => fxRun_silent hf hsel (Fx.escDle_room (Fx.full_eq_false_iff.2 hroom)) rfl,
    fun _ _ _ => fxRun_silent hf hsel rfl rfl⟩

/-! ## Timeouts and errors (R111, R112) -/

section Failed

variable {s : State}

/-- R112, U4: after an error no step rule runs. -/
theorem fxRun_failed (hf : s.failed = true) (sel : Bool) (rule : Fx → FxStep) :
    fxRun sel rule s = .refused .eventAfterTransportError := by
  simp [fxRun, hf]

/-- R112, U4: after an error every event but that of an empty read is refused. -/
theorem fxAnswer_failed (hf : s.failed = true) {a : Answer} (ha : a ≠ .noData) :
    fxAnswer a s = .refused .eventAfterTransportError := by
  cases a with
  | noData => exact absurd rfl ha
  | byte b => exact fxRun_failed hf _ _
  | timeout => simp [fxAnswer, fxTimeout, hf]
  | error => simp [fxAnswer, fxError, hf]

theorem event_row_failed (hf : s.failed = true) {i : Instr} (hi : isEventRow i = true) (hne : i ≠ .evtNone) :
    exec i s = .refused .eventAfterTransportError := by
  cases i with
  | stoppedDle | stoppedOther | firstStx | firstOther | inmsgDle | inmsgData | escDle | escEtx | escOther | overflow =>
    exact fxRun_failed hf _ _
  | evtNone => exact absurd rfl hne
  | evtByte b => exact fxAnswer_failed hf (a := .byte b) (by simp)
  | evtTimeout => exact fxAnswer_failed hf (a := .timeout) (by simp)
  | evtError => exact fxAnswer_failed hf (a := .error) (by simp)
  | _ => simp [isEventRow, stepsFx] at hi

/-- R112, U4: after an error no call begins. -/
theorem beginCall_failed (hf : s.failed = true) (hc : s.call = none) (c : Call) :
    beginCall c s = .refused .eventAfterTransportError := by
  simp [beginCall, hf, hc]

end Failed

section Live

variable {s : State}

theorem fxTimeout_live (hf : s.failed = false) : fxTimeout s = deliver .timedOut s := by simp [fxTimeout, hf]

theorem fxError_live (hf : s.failed = false) : fxError s = deliver .transportError { s with failed := true } := by
  simp [fxError, hf]

/-- R113: a timeout ends the call in progress, whichever it is. -/
theorem deliver_timedOut_call {c : Call} (hc : s.call = some c) :
    deliver .timedOut s = .next (endCall .timedOut { s with label := .timedOut }) := by
  simp [deliver, hc]

/-- R113: an error ends the call in progress, whichever it is. -/
theorem deliver_transportError_call {c : Call} (hc : s.call = some c) :
    deliver .transportError s = .next (endCall .transportError { s with label := .transportError }) := by
  simp [deliver, hc]

end Live

/-- Settles O8: on a live connection by the end of a step, with and without a call; after an error by the refusals. -/
theorem timeoutAndErrorWriteNoRegister : Obligations.TimeoutAndErrorWriteNoRegister := by
  unfold Obligations.TimeoutAndErrorWriteNoRegister
  refine ⟨fun s hf => ⟨fun hc => ⟨?_, ?_⟩, fun c hc => ⟨?_, ?_⟩⟩,
    fun s hf => ⟨fun i => event_row_failed hf, fun n dir hc => ?_⟩⟩
  · exact (fxTimeout_live hf).trans (deliver_no_call hc)
  · exact (fxError_live hf).trans (deliver_no_call (s := { s with failed := true }) hc)
  · exact (fxTimeout_live hf).trans (deliver_timedOut_call hc)
  · exact (fxError_live hf).trans (deliver_transportError_call (s := { s with failed := true }) hc)
  · exact ⟨beginCall_failed hf hc _, beginCall_failed hf hc _⟩

/-! ## Runs of the extractor over wire frames and noise (R114, R115, R117 to R119) -/

/-- Settles O14: the run over a concatenation, and one label per byte. -/
theorem runIsAFoldOverTheBytes : Obligations.RunIsAFoldOverTheBytes := by
  unfold Obligations.RunIsAFoldOverTheBytes
  intro max q s t
  rw [Fx.run_append]
  exact ⟨rfl, rfl, Fx.run_length max q s⟩

@[simp] theorem framesOf_replicate_none (k : Nat) : framesOf (List.replicate k .none) = [] := by
  induction k with
  | zero => rfl
  | succ k ih => exact ih

/-- R114: the frames of a run over a concatenation are those of its parts. -/
theorem framesOf_run_append (max : Option Nat) (q : Fx) (s t : List Byte) :
    framesOf (q.run max (s ++ t)).2 = framesOf (q.run max s).2 ++ framesOf ((q.run max s).1.run max t).2 := by
  rw [Fx.run_append, framesOf_append]

theorem deframe_append (max : Option Nat) (s t : List Byte) :
    deframe max (s ++ t) = deframe max s ++ framesOf ((Fx.reset.run max s).1.run max t).2 :=
  framesOf_run_append max Fx.reset s t

section Runs

variable {max : Option Nat} {q : Fx}

/-- R117: a wire frame in STOPPED, with room for its content. -/
theorem Fx.run_frameOf (content : List Byte) (hq : q.st = .stopped) (hw : q.buf.wf = true)
    (hr : ∀ n, max = some n → content.length ≤ n) :
    ∃ q', q.run max (frameOf content) =
        (q', List.replicate ((frameOf content).length - 1) .none ++ [.frame content]) ∧
      q'.st = .stopped ∧ q'.len = 0 ∧ q'.buf.wf = true := by
  obtain ⟨q', hbody, hst, hlen, hbuf⟩ := Fx.run_body (q := q.clear.goto .inMessage) content rfl hw
    (fun n hn => by simpa using hr n hn)
  refine ⟨q', ?_, hst, hlen, hbuf⟩
  rw [frameOf, List.append_assoc, Fx.run_append, Fx.run_start hq, hbody]
  simp [startDelimiter, endDelimiter, List.replicate_succ]

theorem Fx.framesOf_run_frameOf (content : List Byte) (hq : q.st = .stopped) (hw : q.buf.wf = true)
    (hr : ∀ n, max = some n → content.length ≤ n) : framesOf (q.run max (frameOf content)).2 = [content] := by
  obtain ⟨q', hrun, _⟩ := Fx.run_frameOf content hq hw hr
  simp [hrun, framesOf_append]

/-- Settles O16: the run over a wire frame; FX ends with no contents since its length is 0. -/
theorem roundTripFromStopped : Obligations.RoundTripFromStopped := by
  unfold Obligations.RoundTripFromStopped
  intro max content q hroom hst _ hw
  obtain ⟨q', hrun, hst', hlen', _⟩ := Fx.run_frameOf content hst hw hroom
  rw [hrun]
  exact ⟨rfl, hst', List.eq_nil_of_length_eq_zero (q'.contents_length.trans hlen')⟩

/-! ### What is lost outside a message -/

/-- R102: a byte other than DLE in STOPPED. -/
theorem Fx.byte_stopped {b : Byte} (hq : q.st = .stopped) (hb : b ≠ DLE) : q.byte max b = (q, .none) := by
  simp [Fx.byte, hq, hb, Fx.stoppedOther]

/-- R101, R104: a DLE in STOPPED and a byte after it that does not start a message come back to where they began. -/
theorem Fx.run_dle_other {b : Byte} (hq : q.st = .stopped) (hb : b ≠ STX) : q.run max [DLE, b] = (q, [.none, .none]) := by
  have hback : (q.goto .firstDelimiter).goto .stopped = q := by rw [← hq]; rfl
  simp [Fx.run_cons, Fx.byte, hq, hb, Fx.stoppedDle, Fx.firstOther, hback]

/-- R118: noise without a DLE in STOPPED. -/
theorem Fx.run_noise (noise : List Byte) (hq : q.st = .stopped) (hn : DLE ∉ noise) :
    q.run max noise = (q, List.replicate noise.length .none) := by
  induction noise with
  | nil => rfl
  | cons b noise ih =>
    obtain ⟨hb, hrest⟩ : b ≠ DLE ∧ DLE ∉ noise := by simpa [eq_comm] using hn
    rw [Fx.run_cons, Fx.byte_stopped hq hb, ih hrest]
    rfl

/-- R119: escaped content in STOPPED; each DLE of it comes with a second one. -/
theorem Fx.run_esc_stopped (content : List Byte) (hq : q.st = .stopped) :
    q.run max (esc content) = (q, List.replicate (esc content).length .none) := by
  induction content with
  | nil => rfl
  | cons b content ih =>
    have hone : q.run max (escByte b) = (q, List.replicate (escByte b).length .none) := by
      unfold escByte
      split
      · exact Fx.run_dle_other hq (by decide)
      · rename_i hb
        exact Fx.run_noise [b] hq (by simpa [eq_comm] using hb)
    rw [esc_cons, Fx.run_append, hone, ih]
    simp

/-- R119: the rest of a wire frame whose start FX missed emits nothing. -/
theorem Fx.framesOf_run_body_stopped (content : List Byte) (hq : q.st = .stopped) :
    framesOf (q.run max (esc content ++ endDelimiter)).2 = [] := by
  rw [framesOf_run_append, Fx.run_esc_stopped content hq, endDelimiter, Fx.run_dle_other hq (by decide)]
  simp

/-! ### A wire frame met outside STOPPED -/

/-- R104, R102: in FIRST_DELIMITER the start delimiter is lost. -/
theorem Fx.run_start_firstDelimiter (hq : q.st = .firstDelimiter) :
    q.run max startDelimiter = (q.goto .stopped, [.none, .none]) := by
  simp [startDelimiter, Fx.run_cons, Fx.byte, hq, Fx.firstOther, Fx.stoppedOther, DLE, STX]

/-- R105, R109: in IN_MESSAGE the start delimiter is a framing error. -/
theorem Fx.run_start_inMessage (hq : q.st = .inMessage) :
    q.run max startDelimiter = (q.clear.goto .stopped, [.none, .framingError]) := by
  simp [startDelimiter, Fx.run_cons, Fx.byte, hq, Fx.inmsgDle, Fx.escOther, Fx.clear, Fx.goto, DLE, STX, ETX]

/-- R107, R106: in IN_MESSAGE_ESCAPE the start delimiter is two bytes of content. -/
theorem Fx.run_start_escape (hq : q.st = .inMessageEscape) (hr : ∀ n, max = some n → q.len + 2 ≤ n) :
    q.run max startDelimiter = (((q.append DLE).goto .inMessage).append STX, [.none, .none]) := by
  have hdle : q.full max = false := Fx.full_eq_false_iff.2 fun n hn => by have := hr n hn; omega
  have hstx : ((q.append DLE).goto .inMessage).full max = false :=
    Fx.full_eq_false_iff.2 fun n hn => by have := hr n hn; simp; omega
  have hne : STX ≠ DLE := by decide
  simp [startDelimiter, Fx.run_cons, Fx.byte, hq, hne, Fx.escDle_room hdle, Fx.inmsgData_room STX hstx]

/-- R118: in FIRST_DELIMITER or IN_MESSAGE the start of a wire frame leads to STOPPED, and nothing of it is emitted. -/
theorem Fx.framesOf_run_frameOf_missed (content : List Byte) (hq : q.st = .firstDelimiter ∨ q.st = .inMessage) :
    framesOf (q.run max (frameOf content)).2 = [] := by
  rw [frameOf, List.append_assoc, framesOf_run_append]
  obtain hfirst | hmsg := hq
  · rw [Fx.run_start_firstDelimiter hfirst, Fx.framesOf_run_body_stopped content rfl]
    rfl
  · rw [Fx.run_start_inMessage hmsg, Fx.framesOf_run_body_stopped content rfl]
    rfl

/-- R118, R119: in IN_MESSAGE_ESCAPE the message goes on with the start delimiter and the content of the frame. -/
theorem Fx.framesOf_run_frameOf_escape (content : List Byte) (hq : q.st = .inMessageEscape) (hw : q.buf.wf = true)
    (hr : ∀ n, max = some n → q.len + 2 + content.length ≤ n) :
    framesOf (q.run max (frameOf content)).2 = [q.contents ++ [DLE, STX] ++ content] := by
  have hdle : ((q.append DLE).goto .inMessage).buf.wf = true := Memory.write_wf _ _ hw
  have hcontents : (((q.append DLE).goto .inMessage).append STX).contents = q.contents ++ [DLE, STX] := by
    rw [Fx.contents_append STX hdle, Fx.contents_goto, Fx.contents_append DLE hw, List.append_assoc]
    rfl
  obtain ⟨q', hbody, _⟩ := Fx.run_body (q := ((q.append DLE).goto .inMessage).append STX) content rfl
    (Memory.write_wf _ _ hdle) hr
  rw [frameOf, List.append_assoc, framesOf_run_append,
    Fx.run_start_escape hq fun n hn => Nat.le_of_add_right_le (hr n hn), hbody, framesOf_append, hcontents]
  simp

end Runs

/-- Settles O18: noise and then a wire frame, by the state the noise ends in. -/
theorem resynchronisationAsFarAsItIsTrue : Obligations.ResynchronisationAsFarAsItIsTrue := by
  unfold Obligations.ResynchronisationAsFarAsItIsTrue
  refine ⟨fun max q noise hq hn => Fx.run_noise noise hq hn, fun max noise content => ?_⟩
  have hw : (Fx.reset.run max noise).1.buf.wf = true := Fx.run_buf_wf max Fx.reset noise rfl
  simp only [deframe_append]
  generalize (Fx.reset.run max noise).1 = q at hw ⊢
  refine ⟨fun hq hr => ?_, fun hq => ?_, fun hq hr => ?_⟩
  · rw [Fx.framesOf_run_frameOf content hq hw hr]
  · rw [Fx.framesOf_run_frameOf_missed content hq, List.append_nil]
  · rw [Fx.framesOf_run_frameOf_escape content hq hw hr]
    rfl

/-! ### Runs of DLE bytes (R119) -/

/-- Settles O19, by pairs of DLE bytes. -/
theorem onlyOddDleRunsOpenAMessage : Obligations.OnlyOddDleRunsOpenAMessage := by
  unfold Obligations.OnlyOddDleRunsOpenAMessage
  intro max q k hq
  induction k using Nat.twoStepInduction with
  | zero => simpa [Fx.run_cons, Fx.byte_stopped hq (b := STX) (by decide)] using hq
  | one => exact congrArg (fun r => r.1.st) (Fx.run_start hq)
  | more k ih _ =>
    have hpair : List.replicate (k + 2) DLE ++ [STX] = [DLE, DLE] ++ (List.replicate k DLE ++ [STX]) := rfl
    rw [hpair, Fx.run_append, Fx.run_dle_other hq (by decide), Nat.add_mod_right]
    exact ih

/-! ### deframe (R114, R128) -/

/-- R39: the frame of a label, if it has one. -/
def frameOfLabel : Label → Option (List Byte)
  | .frame f => some f
  | .none | .framingError | .overflow | .timedOut | .transportError => none

theorem framesOf_eq_filterMap (ls : List Label) : framesOf ls = ls.filterMap frameOfLabel := by
  induction ls with
  | nil => rfl
  | cons l ls ih =>
    cases l with
    | frame f => exact congrArg (f :: ·) ih
    | none | framingError | overflow | timedOut | transportError => exact ih

/-- R128: deframe undoes frame. -/
theorem deframe_frameOf {max : Option Nat} (content : List Byte) (hr : ∀ n, max = some n → content.length ≤ n) :
    deframe max (frameOf content) = [content] :=
  Fx.framesOf_run_frameOf content rfl rfl hr

/-- Settles O17: the frames of a run are its labels filtered, and the run over a wire frame from reset has one. -/
theorem deframeCollectsFrames : Obligations.DeframeCollectsFrames := by
  unfold Obligations.DeframeCollectsFrames
  refine ⟨fun s bs => ?_, fun s content hr => ?_⟩
  · refine congrArg (fun fs => Host.Outcome.next { s with result := some (.frames fs) })
      ((framesOf_eq_filterMap _).trans (List.filterMap_congr fun l _ => ?_))
    cases l <;> rfl
  · simp only [exec, execDeframe, deframe_frameOf content hr]

end Sys2Proof.Machine

namespace Sys2Proof.Machine

/-! ## Calls that read the transport (R113, R145) -/

/-- R39: a byte step's label is that of a frame, or reaches no caller. -/
theorem Fx.byte_label (max : Option Nat) (b : Byte) (q : Fx) :
    labelReachesCaller (q.byte max b).2 = false ∨ ∃ f, (q.byte max b).2 = .frame f := by
  have hdata : labelReachesCaller (q.inmsgData max b).2 = false := by unfold Fx.inmsgData; split <;> rfl
  have hdle : labelReachesCaller (q.escDle max).2 = false := by unfold Fx.escDle; split <;> rfl
  unfold Fx.byte
  split
  · split <;> exact .inl rfl
  · split <;> exact .inl rfl
  · split
    · exact .inl rfl
    · exact .inl hdata
  · split
    · exact .inl hdle
    · split
      · exact .inr ⟨_, rfl⟩
      · exact .inl rfl

/-- R39: a byte step that emits no frame has a label that reaches no caller. -/
theorem Fx.byte_label_of_framesOf {max : Option Nat} {b : Byte} {q : Fx} (h : framesOf (q.run max [b]).2 = []) :
    labelReachesCaller (q.byte max b).2 = false := by
  obtain hl | ⟨f, hf⟩ := Fx.byte_label max b q
  · exact hl
  · simp [Fx.run_cons, hf] at h

@[simp] theorem bytesOf_map_byte (bs : List Byte) : bytesOf (bs.map .byte) = bs := by
  induction bs with
  | nil => rfl
  | cons b bs ih => exact congrArg (b :: ·) ih

/-- R113: an answer that ends no call steps FX over its byte, if it has one, and the call in progress goes on reading. -/
theorem fxAnswer_reads_on {s : State} {a : Answer} (hf : s.failed = false) (ht : a ≠ .timeout) (he : a ≠ .error)
    (hfr : framesOf (s.fx.run s.cfg.frameMax (bytesOf [a])).2 = []) :
    ∃ l, fxAnswer a s = .next { s with fx := (s.fx.run s.cfg.frameMax (bytesOf [a])).1, label := l } := by
  cases a with
  | noData => exact ⟨s.label, rfl⟩
  | byte b => exact ⟨_, fxRun_quiet hf (Fx.byte_label_of_framesOf hfr)⟩
  | timeout => exact absurd rfl ht
  | error => exact absurd rfl he

/-- R113: the read loop goes on where the answer leaves the call in progress. -/
theorem readLoop_cons_on {s t : State} {a : Answer} {rest : List Answer}
    (h : fxAnswer a { s with line := rest } = .next t) (hc : t.call ≠ none) : readLoop (a :: rest) s = readLoop rest t := by
  simp [readLoop, h, hc]

/-- R113: the read loop ends where the answer ends the call, or is refused. -/
theorem readLoop_cons_end {s : State} {a : Answer} {rest : List Answer} {o : Out}
    (h : fxAnswer a { s with line := rest } = o) (hend : ∀ t, o = .next t → t.call = none) :
    readLoop (a :: rest) s = o := by
  subst h
  cases ho : fxAnswer a { s with line := rest } with
  | next t => simp [readLoop, ho, hend t ho]
  | fault e => cases e
  | refused r => simp [readLoop, ho]

/-- R113: answers that end no call are read one after the other, and the call goes on with the next. -/
theorem readLoop_append (before after : List Answer) {s : State} (hc : s.call ≠ none) (hf : s.failed = false)
    (hb : ∀ a ∈ before, a ≠ .timeout ∧ a ≠ .error) (hfr : framesOf (s.fx.run s.cfg.frameMax (bytesOf before)).2 = []) :
    ∃ l ln, readLoop (before ++ after) s =
      readLoop after { s with fx := (s.fx.run s.cfg.frameMax (bytesOf before)).1, label := l, line := ln } := by
  induction before generalizing s with
  | nil => exact ⟨s.label, s.line, rfl⟩
  | cons a before ih =>
    obtain ⟨⟨ht, he⟩, hbefore⟩ := List.forall_mem_cons.1 hb
    rw [bytesOf_cons, framesOf_run_append, List.append_eq_nil_iff] at hfr
    obtain ⟨l, hl⟩ := fxAnswer_reads_on (s := { s with line := before ++ after }) hf ht he hfr.1
    obtain ⟨l', ln, hread⟩ := ih (s := { s with
      fx := (s.fx.run s.cfg.frameMax (bytesOf [a])).1, label := l, line := before ++ after }) hc hf hbefore hfr.2
    rw [Fx.run_bytesOf_cons]
    exact ⟨l', ln, (readLoop_cons_on hl hc).trans hread⟩

/-- R113, R145: a frame ends the call it is delivered to. -/
theorem deliverFrame_call {f : List Byte} {c : Call} {s t : State} (h : deliverFrame f c s = .next t) : t.call = none := by
  cases c with
  | nextFrame n =>
    obtain rfl : endCall (.frame f) s = t := by simpa [deliverFrame] using h
    rfl
  | nextMessage n dir =>
    obtain ⟨r, rfl⟩ := mdReturn_next h
    rfl

/-- R113, R145: the byte that completes a frame delivers it to the call in progress, which reads no further. -/
theorem readLoop_frame {s : State} {c : Call} {b : Byte} {f : List Byte} {rest : List Answer} (hc : s.call = some c)
    (hf : s.failed = false) (hframe : (s.fx.byte s.cfg.frameMax b).2 = .frame f) :
    readLoop (.byte b :: rest) s =
      deliverFrame f c { s with fx := (s.fx.byte s.cfg.frameMax b).1, label := .frame f, line := rest } :=
  readLoop_cons_end (by simp [fxAnswer, fxRun, hf, hframe, deliver, hc]) fun _ => deliverFrame_call

/-- R111, R113: a timeout ends the call in progress, which reads no further. -/
theorem readLoop_timeout {s : State} {c : Call} {rest : List Answer} (hc : s.call = some c) (hf : s.failed = false) :
    readLoop (.timeout :: rest) s = .next (endCall .timedOut { s with label := .timedOut, line := rest }) :=
  readLoop_cons_end (by simp [fxAnswer, fxTimeout_live, hf, deliver_timedOut_call, hc]) fun t ht => by
    obtain rfl := Host.Outcome.next.inj ht
    rfl

/-- R112, R113: an error ends the call in progress, which reads no further. -/
theorem readLoop_error {s : State} {c : Call} {rest : List Answer} (hc : s.call = some c) (hf : s.failed = false) :
    readLoop (.error :: rest) s =
      .next (endCall .transportError { s with label := .transportError, line := rest, failed := true }) :=
  readLoop_cons_end (by simp [fxAnswer, fxError_live, hf, deliver_transportError_call, hc]) fun t ht => by
    obtain rfl := Host.Outcome.next.inj ht
    rfl

section Calls

variable {s : State} {c : Call} {before rest : List Answer}

/-- R246, U6: one call at a time. -/
theorem beginCall_inProgress (h : s.call ≠ none) : beginCall c s = .refused .callInProgress := by
  simp [beginCall, Option.isSome_iff_ne_none, h]

/-- R113: a call that begins is the read loop over what the transport has to answer. -/
theorem beginCall_live (hc : s.call = none) (hf : s.failed = false) :
    beginCall c s = readLoop s.line { s with call := some c } := by
  simp [beginCall, hc, hf]

variable (hc : s.call = none) (hf : s.failed = false) (hb : ∀ a ∈ before, a ≠ .timeout ∧ a ≠ .error)
  (hfr : framesOf (s.fx.run s.cfg.frameMax (bytesOf before)).2 = [])

include hc hf hb hfr

/-- R113: a call reads the answers that end nothing, then the rest. -/
theorem beginCall_append (hline : s.line = before ++ rest) :
    ∃ l ln, beginCall c s = readLoop rest
      { s with fx := (s.fx.run s.cfg.frameMax (bytesOf before)).1, label := l, line := ln, call := some c } := by
  rw [beginCall_live hc hf, congrArg readLoop hline]
  exact readLoop_append before rest (s := { s with call := some c }) (by simp) hf hb hfr

/-- R113, R145: a call that reads a frame delivers it and reads no further. -/
theorem beginCall_frame {b : Byte} {f : List Byte} (hline : s.line = before ++ .byte b :: rest)
    (hframe : ((s.fx.run s.cfg.frameMax (bytesOf before)).1.byte s.cfg.frameMax b).2 = .frame f) :
    beginCall c s = deliverFrame f c { s with
      fx := ((s.fx.run s.cfg.frameMax (bytesOf before)).1.byte s.cfg.frameMax b).1, label := .frame f, line := rest,
      call := some c } := by
  obtain ⟨l, ln, hread⟩ := beginCall_append (c := c) hc hf hb hfr hline
  exact hread.trans (readLoop_frame rfl hf hframe)

/-- R113: nextFrame returns the frame. -/
theorem exec_nextFrame_frame {n : Nat} {b : Byte} {f : List Byte} (hline : s.line = before ++ .byte b :: rest)
    (hframe : ((s.fx.run s.cfg.frameMax (bytesOf before)).1.byte s.cfg.frameMax b).2 = .frame f) :
    exec (.nextFrame n) s = .next { s with
      fx := ((s.fx.run s.cfg.frameMax (bytesOf before)).1.byte s.cfg.frameMax b).1, line := rest, label := .frame f,
      result := some (.frame f) } := by
  rw [hc]
  exact beginCall_frame hc hf hb hfr hline hframe

/-- R145: nextMessage returns the decode of the frame, or is refused as that decode is. -/
theorem exec_nextMessage_frame {n : Nat} {dir : Dir} {b : Byte} {f : List Byte}
    (hline : s.line = before ++ .byte b :: rest)
    (hframe : ((s.fx.run s.cfg.frameMax (bytesOf before)).1.byte s.cfg.frameMax b).2 = .frame f) :
    exec (.nextMessage n dir) s = mdReturn (decodeResult s.cfg f dir) { s with
      fx := ((s.fx.run s.cfg.frameMax (bytesOf before)).1.byte s.cfg.frameMax b).1, line := rest, label := .frame f } := by
  rw [hc]
  exact beginCall_frame hc hf hb hfr hline hframe

/-- R111, R113: a call that reads a timeout returns it and reads no further. -/
theorem exec_nextFrame_timeout {n : Nat} (hline : s.line = before ++ .timeout :: rest) :
    exec (.nextFrame n) s = .next { s with
      fx := (s.fx.run s.cfg.frameMax (bytesOf before)).1, line := rest, label := .timedOut, result := some .timedOut } := by
  obtain ⟨l, ln, hread⟩ := beginCall_append (c := .nextFrame n) hc hf hb hfr hline
  rw [hc]
  exact hread.trans (readLoop_timeout rfl hf)

/-- R112, R113: a call that reads an error returns it and reads no further. -/
theorem exec_nextFrame_error {n : Nat} (hline : s.line = before ++ .error :: rest) :
    exec (.nextFrame n) s = .next { s with
      fx := (s.fx.run s.cfg.frameMax (bytesOf before)).1, line := rest, label := .transportError,
      result := some .transportError, failed := true } := by
  obtain ⟨l, ln, hread⟩ := beginCall_append (c := .nextFrame n) hc hf hb hfr hline
  rw [hc]
  exact hread.trans (readLoop_error rfl hf)

/-- R113: a call whose answers run out stays in progress (log entry 28). -/
theorem exec_nextFrame_blocks {n : Nat} (hline : s.line = before) :
    ∃ l, exec (.nextFrame n) s = .next { s with
      fx := (s.fx.run s.cfg.frameMax (bytesOf before)).1, line := [], label := l, call := some (.nextFrame n) } := by
  obtain ⟨l, ln, hread⟩ := beginCall_append (c := .nextFrame n) (rest := []) hc hf hb hfr (by simpa using hline)
  exact ⟨l, hread⟩

end Calls

/-- Settles O22: the answers before the outcome are read, and then the outcome, by its kind. -/
theorem nextFrameReturnsFirstOutcome : Obligations.NextFrameReturnsFirstOutcome := by
  unfold Obligations.NextFrameReturnsFirstOutcome
  intro s n before rest hc hf hb hfr q
  refine ⟨fun b f => exec_nextFrame_frame hc hf hb hfr, exec_nextFrame_timeout hc hf hb hfr,
    exec_nextFrame_error hc hf hb hfr, exec_nextFrame_blocks hc hf hb hfr, fun c => ?_⟩
  exact beginCall_inProgress (c := .nextFrame n) (s := { s with call := some c }) (by simp)

/-! ## A decode of a type the spec gives returns (R135, R207 to R209) -/

/-- R13, R53: an operation that returns or raises; the spec gives it a meaning. -/
def Bu.NotRefused {α : Type} (x : Bu α) : Prop := ∀ r, x ≠ .refuse r

section NotRefused

variable {α β : Type}

@[simp] theorem Bu.NotRefused.ok (a : α) : (Bu.ok a).NotRefused := fun _ => by simp
@[simp] theorem Bu.NotRefused.malformed : (Bu.malformed : Bu α).NotRefused := fun _ => by simp

theorem Bu.NotRefused.bind {x : Bu α} {k : α → Bu β} (hx : x.NotRefused) (hk : ∀ a, x = .ok a → (k a).NotRefused) :
    (x.bind k).NotRefused := by
  cases x with
  | ok a => exact hk a rfl
  | malformed => exact .malformed
  | refuse r => exact absurd rfl (hx r)

/-- R10: `n` bytes make a number below `256^n`. -/
theorem beFrom_lt (acc : Nat) (bs : List Byte) : beFrom acc bs < (acc + 1) * 256 ^ bs.length := by
  induction bs generalizing acc with
  | nil => simp [beFrom]
  | cons b bs ih =>
    have hb : acc * 256 + b.toNat + 1 ≤ (acc + 1) * 256 := by have := b.isLt; omega
    calc beFrom (acc * 256 + b.toNat) bs < (acc * 256 + b.toNat + 1) * 256 ^ bs.length := ih _
      _ ≤ (acc + 1) * 256 * 256 ^ bs.length := Nat.mul_le_mul_right _ hb
      _ = (acc + 1) * 256 ^ (b :: bs).length := by rw [List.length_cons, Nat.pow_succ', Nat.mul_assoc]

theorem memRead_notRefused (p : List Byte) (a n : Nat) : (memRead p a n).NotRefused := by
  unfold memRead
  split
  · exact .ok _
  · exact .malformed

/-- R48: a read of `n` bytes gives an `8n`-bit number. -/
theorem memRead_lt {p : List Byte} {a n v : Nat} (h : memRead p a n = .ok v) : v < 2 ^ (8 * n) := by
  obtain ⟨hlen, rfl⟩ := memRead_eq_ok.1 h
  have hread : ((p.drop a).take n).length = n := by simp; omega
  have hlt := beFrom_lt 0 ((p.drop a).take n)
  rwa [hread, Nat.zero_add, Nat.one_mul, show 256 = 2 ^ 8 from rfl, ← Nat.pow_mul] at hlt

/-- R161: SEXT has a meaning on its domain. -/
theorem sext_notRefused {v w : Nat} (hw : 1 ≤ w) (hv : v < 2 ^ w) : (sext v w).NotRefused := by
  simp [sext, hw, hv]

theorem itemValue_notRefused {i : Item} {v : Nat} (hi : i ≠ .f4) (hv : v < 2 ^ (8 * itemSize i)) :
    (itemValue i v).NotRefused := by
  cases i with
  | u1 | u2 | u4 => exact .ok _
  | s1 | s2 | s4 => exact sext_notRefused (by decide) hv
  | f4 => exact absurd rfl hi

theorem itemsFrom_notRefused (p : List Byte) (a : Nat) {l : List Item} (hl : .f4 ∉ l) : (itemsFrom p a l).NotRefused := by
  induction l generalizing a with
  | nil => exact .ok _
  | cons i l ih =>
    obtain ⟨hi, hrest⟩ : i ≠ .f4 ∧ .f4 ∉ l := by simpa [eq_comm] using hl
    have hitem : (itemAt p a i).NotRefused :=
      (memRead_notRefused p a _).bind fun v hv => itemValue_notRefused hi (memRead_lt hv)
    exact hitem.bind fun v _ => (ih _ hrest).bind fun vs _ => .ok _

/-- R155, R156: a layout without a float item has a meaning on every payload. -/
theorem unpackFixed_notRefused (p : List Byte) {l : List Item} (hl : .f4 ∉ l) : (unpackFixed p l).NotRefused := by
  rw [unpackFixed, if_neg (by simpa using hl)]
  split
  · exact .malformed
  · exact itemsFrom_notRefused p 0 hl

theorem lengthSelect_notRefused (p : List Byte) (e : List (Nat × α)) : (lengthSelect p e).NotRefused := by
  induction e with
  | nil => exact .malformed
  | cons x e ih =>
    unfold lengthSelect
    split
    · exact .ok _
    · exact ih

theorem recordResult_notRefused (f : List Byte) {x : Bu Fields} (hx : x.NotRefused) : (recordResult f x).NotRefused :=
  hx.bind fun _ _ => .ok _

theorem healthPayload_notRefused (p : List Byte) : (healthPayload p).NotRefused :=
  (unpackFixed_notRefused p (by decide)).bind fun _ _ => .ok _

theorem spConfigPayload_notRefused (p : List Byte) : (spConfigPayload p).NotRefused :=
  (memRead_notRefused p 0 2).bind fun _ _ => .ok _

theorem vwPayload_notRefused (p : List Byte) : (vwPayload p).NotRefused := by
  refine (lengthSelect_notRefused p _).bind fun n _ => (unpackFixed_notRefused p (by decide)).bind fun vs _ => ?_
  split
  · exact .ok _
  · exact .malformed

theorem shortResult_notRefused (c : Config) (f : List Byte) : (shortResult c f).NotRefused := by
  unfold shortResult
  split
  · exact .ok _
  · exact .malformed

/-- R135: a decode ends in a result unless its type is mapped outside the spec (R210). -/
theorem decodeResult_notRefused {c : Config} {f : List Byte} {dir : Dir} (h : selectHdr c f dir ≠ .otherMapped) :
    (decodeResult c f dir).NotRefused := by
  unfold decodeResult
  split
  · exact shortResult_notRefused c f
  · exact .ok _
  · exact recordResult_notRefused f (healthPayload_notRefused _)
  · exact recordResult_notRefused f (spConfigPayload_notRefused _)
  · exact recordResult_notRefused f (vwPayload_notRefused _)
  · exact .ok _
  · exact .ok _
  · rename_i hother
    exact absurd hother h

end NotRefused

/-- R13, R53: a decode that is not refused ends in a result. -/
theorem mdReturn_of_notRefused {x : Bu Result} (hx : x.NotRefused) (s : State) :
    ∃ r, mdReturn x s = .next { s with result := some r } := by
  cases x with
  | ok r => exact ⟨r, rfl⟩
  | malformed => exact ⟨.malformedPayload, rfl⟩
  | refuse q => exact absurd rfl (hx q)

/-- R31: a decode ends in the same result in every state. -/
theorem mdReturn_same_result {x : Bu Result} {r : Result} {s : State} (h : mdReturn x s = .next { s with result := some r })
    (t : State) : mdReturn x t = .next { t with result := some r } := by
  have hresult (r' : Result) (h' : mdReturn x s = .next { s with result := some r' }) : r' = r :=
    Option.some.inj (congrArg State.result (Host.Outcome.next.inj (h'.symm.trans h)))
  cases x with
  | ok r' => rw [← hresult r' rfl]; rfl
  | malformed => rw [← hresult .malformedPayload rfl]; rfl
  | refuse q => simp [mdReturn] at h

/-! ## A call on a wire frame (R113, R116, R117, R145) -/

/-- R117: the last byte of a wire frame completes it, and the bytes before it emit nothing. -/
theorem Fx.run_frameOf_last {max : Option Nat} {q : Fx} (content : List Byte) (hq : q.st = .stopped)
    (hw : q.buf.wf = true) (hr : ∀ n, max = some n → content.length ≤ n) :
    ∃ bs q', frameOf content = bs ++ [ETX] ∧ framesOf (q.run max bs).2 = [] ∧
      (q.run max bs).1.byte max ETX = (q', .frame content) ∧ q'.st = .stopped ∧ q'.len = 0 ∧ q'.buf.wf = true := by
  obtain ⟨q', hrun, hst, hlen, hbuf⟩ := Fx.run_frameOf content hq hw hr
  have hsplit : frameOf content = startDelimiter ++ esc content ++ [DLE] ++ [ETX] := by simp [frameOf, endDelimiter]
  rw [hsplit, Fx.run_append] at hrun
  obtain ⟨hfx, hlabels⟩ := Prod.mk.inj hrun
  obtain ⟨hquiet, hlast⟩ := List.append_inj' hlabels rfl
  refine ⟨_, q', hsplit, ?_, Prod.ext hfx (List.head_eq_of_cons_eq hlast), hst, hlen, hbuf⟩
  rw [hquiet, framesOf_replicate_none]

/-- Settles O23: the wire frame is one byte that completes it after answers that end no call. -/
theorem callsReceiveAWireMessage : Obligations.CallsReceiveAWireMessage := by
  unfold Obligations.CallsReceiveAWireMessage
  intro s n content rest hc hf hst _ hw hroom hline
  obtain ⟨bs, q, hframe, hquiet, hlast, hqst, hqlen, hqw⟩ := Fx.run_frameOf_last content hst hw hroom
  have hread : s.line = bs.map .byte ++ .byte ETX :: rest := by simpa [hframe] using hline
  have hb : ∀ a ∈ bs.map Answer.byte, a ≠ .timeout ∧ a ≠ .error := by simp
  rw [← bytesOf_map_byte bs] at hquiet hlast
  have hnextFrame := exec_nextFrame_frame (n := n) hc hf hb hquiet hread (congrArg Prod.snd hlast)
  have hnextMessage (dir : Dir) :=
    exec_nextMessage_frame (n := n) (dir := dir) hc hf hb hquiet hread (congrArg Prod.snd hlast)
  rw [congrArg Prod.fst hlast] at hnextFrame hnextMessage
  have hdecode (dir : Dir) (r : Result) (h : exec (.decode content dir) s = .next { s with result := some r }) :
      exec (.nextMessage n dir) s =
        .next { s with fx := q, line := rest, label := .frame content, result := some r } :=
    (hnextMessage dir).trans (mdReturn_same_result h _)
  refine ⟨q, hqst, hqlen, hqw, hnextFrame, hdecode, fun dir hsel => ?_⟩
  obtain ⟨r, hr⟩ := mdReturn_of_notRefused (decodeResult_notRefused hsel) s
  exact ⟨r, hr, hdecode dir r hr⟩

end Sys2Proof.Machine

namespace Sys2Proof.Machine

/-! ## What FE sends (R71, R125, R126) -/

/-- R126: the ENC row of a content byte sends it as it travels. -/
theorem exec_encRow (b : Byte) (s : State) : exec (encRow b) s = send (escByte b) s := by
  unfold encRow escByte
  split <;> rfl

theorem runRows_cons_send {i : Instr} {bs : List Byte} {s : State} (h : exec i s = send bs s) (rows : List Instr) :
    runRows (i :: rows) s = runRows rows { s with wire := s.wire ++ bs } := by
  simp only [runRows, h, send]

/-- R126: the ENC rows of the content, run in order, send its escaping. -/
theorem runRows_map_encRow (content : List Byte) (rows : List Instr) (s : State) :
    runRows (content.map encRow ++ rows) s = runRows rows { s with wire := s.wire ++ esc content } := by
  induction content generalizing s with
  | nil => simp
  | cons b content ih =>
    rw [List.map_cons, List.cons_append, runRows_cons_send (exec_encRow b s), ih, esc_cons, List.append_assoc]

/-- Settles O26: each row sends its part of the wire frame, and the parts in order are the frame. -/
theorem frameIsItsRowsInOrder : Obligations.FrameIsItsRowsInOrder := by
  unfold Obligations.FrameIsItsRowsInOrder
  intro s content
  have hstart : exec .wireStart s = send startDelimiter s := rfl
  have hend (t : State) : exec .wireEnd t = send endDelimiter t := rfl
  have hframe : exec (.frame content) s = send (frameOf content) s := rfl
  rw [hframe, runRows_cons_send hstart, runRows_map_encRow, runRows_cons_send (hend _)]
  simp [runRows, send, frameOf]

theorem esc_eq_flatMap (content : List Byte) : esc content = content.flatMap escByte := by
  induction content with
  | nil => rfl
  | cons b content ih => rw [esc_cons, ih, List.flatMap_cons]

/-- Settles O25: each operation by its definition, the whole frame with its escaping byte by byte. -/
theorem encoderSendsEscapedFrame : Obligations.EncoderSendsEscapedFrame := by
  unfold Obligations.EncoderSendsEscapedFrame
  intro s
  refine ⟨rfl, rfl, rfl, fun b _ => rfl, fun content => ?_⟩
  have hframe : exec (.frame content) s = send (startDelimiter ++ esc content ++ endDelimiter) s := rfl
  rw [hframe, esc_eq_flatMap]
  rfl

/-! ## The length of a wire frame (R127) -/

/-- R126: a DLE travels as two bytes, every other byte as one. -/
theorem length_escByte (b : Byte) : (escByte b).length = 1 + [b].count DLE := by
  unfold escByte
  split <;> simp [*]

theorem length_esc (content : List Byte) : (esc content).length = content.length + content.count DLE := by
  induction content with
  | nil => rfl
  | cons b content ih =>
    have hcount : (b :: content).count DLE = [b].count DLE + content.count DLE :=
      List.count_append (l₁ := [b])
    rw [esc_cons, List.length_append, length_escByte, ih, hcount, List.length_cons]
    omega

theorem length_frameOf (content : List Byte) :
    (frameOf content).length = content.length + 4 + content.count DLE := by
  simp only [frameOf, startDelimiter, endDelimiter, List.length_append, length_esc, List.length_cons, List.length_nil]
  omega

/-- Settles O27: the length exactly; the bounds are those of the number of DLE bytes in the content. -/
theorem wireFrameLength : Obligations.WireFrameLength := by
  unfold Obligations.WireFrameLength
  intro content
  have hlength := length_frameOf content
  have hcount : content.count DLE ≤ content.length := List.count_le_length
  exact ⟨hlength, by omega, by omega⟩

/-! ## A wire frame longer than the buffer (R110) -/

/-- R110: a content byte as it travels, inside a message at capacity; of a DLE's two bytes the second overflows. -/
theorem Fx.run_escByte_full {max : Option Nat} {q : Fx} (b : Byte) (hq : q.st = .inMessage) (hfull : q.full max = true) :
    ∃ labels, q.run max (escByte b) = (q.overflow.1, labels) ∧ framesOf labels = [] := by
  unfold escByte
  split
  · have hescape : (q.goto .inMessageEscape).escDle max = (q.overflow.1, .overflow) := Fx.escDle_full hfull
    exact ⟨[.none, .overflow], by simp [Fx.run_cons, Fx.byte, hq, Fx.inmsgDle, hescape], rfl⟩
  · next hb =>
    have hdata : q.inmsgData max b = (q.overflow.1, .overflow) := Fx.inmsgData_full b hfull
    exact ⟨[.overflow], by simp [Fx.run_cons, Fx.byte, hq, hb, hdata], rfl⟩

/-- R110: escaped content that does not fit, inside a message: what fits is appended, the next byte overflows to
STOPPED, and the rest is lost there. -/
theorem Fx.run_esc_overflow {n : Nat} (content : List Byte) {q : Fx} (hq : q.st = .inMessage) (hlen : q.len ≤ n)
    (hlong : n < q.len + content.length) :
    ∃ q' labels, q.run (some n) (esc content) = (q', labels) ∧ framesOf labels = [] ∧ q'.st = .stopped ∧ q'.len = 0 := by
  induction content generalizing q with
  | nil => exact absurd hlong (Nat.not_lt.2 hlen)
  | cons b content ih =>
    rw [List.length_cons] at hlong
    rw [esc_cons, Fx.run_append]
    cases hfull : q.full (some n) with
    | true =>
      obtain ⟨labels, hbyte, hquiet⟩ := Fx.run_escByte_full b hq hfull
      rw [hbyte, Fx.run_esc_stopped content rfl]
      exact ⟨q.overflow.1, _, rfl, by simp [framesOf_append, hquiet], rfl, rfl⟩
    | false =>
      have hroom : q.len < n := Fx.full_eq_false_iff.1 hfull n rfl
      obtain ⟨q', labels, hrest, hquiet, hst, hzero⟩ := ih (q := q.append b) hq hroom (by rw [Fx.append_len]; omega)
      rw [Fx.run_escByte b hq hfull, hrest]
      exact ⟨q', _, rfl, by simp [framesOf_append, hquiet], hst, hzero⟩

/-- Settles O20: the content overflows after the start delimiter, and the end delimiter is lost in STOPPED. -/
theorem oversizedMessageEmitsNothing : Obligations.OversizedMessageEmitsNothing := by
  unfold Obligations.OversizedMessageEmitsNothing
  intro n content q hlong hst _
  obtain ⟨q', labels, hesc, hquiet, hst', hlen'⟩ :=
    Fx.run_esc_overflow (q := q.clear.goto .inMessage) content rfl (Nat.zero_le n) (by simpa using hlong)
  have hend : q'.run (some n) endDelimiter = (q', [.none, .none]) := Fx.run_dle_other hst' (by decide)
  have hrun : q.run (some n) (frameOf content) = (q', .none :: .none :: labels ++ [.none, .none]) := by
    rw [frameOf, Fx.run_append, Fx.run_append, Fx.run_start hst, hesc, hend]
    rfl
  rw [hrun]
  exact ⟨by simp [framesOf_append, hquiet], hst', hlen'⟩

end Sys2Proof.Machine

namespace Sys2Proof.Machine

/-! ## nextMessage beside nextFrame (R113, R145) -/

/-- What a call ends in, said for every call at once: it blocks, it is given a frame, or it returns another result. -/
inductive CallEnds (run : Call → Out) : Prop where
  | blocks (t : State) (h : ∀ c, run c = .next { t with call := some c })
  | frame (t : State) (f : List Byte) (h : ∀ c, run c = deliverFrame f c t)
  | other (t : State) (r : Result) (hr : ∀ f, r ≠ .frame f) (h : ∀ c, run c = .next (endCall r t))

/-- R113, R145: whichever call is in progress, the read loop takes the same answers; the call decides only what is made
of a frame. -/
theorem readLoop_callEnds (as : List Answer) (s : State) (hf : s.failed = false) :
    CallEnds fun c => readLoop as { s with call := some c } := by
  induction as generalizing s with
  | nil => exact .blocks { s with line := [] } fun _ => rfl
  | cons a rest ih =>
    cases a with
    | noData =>
      have hon (c : Call) : readLoop (.noData :: rest) { s with call := some c } =
          readLoop rest { s with line := rest, call := some c } := readLoop_cons_on rfl (by simp)
      rw [funext hon]
      exact ih { s with line := rest } hf
    | byte b =>
      obtain hl | ⟨f, hframe⟩ := Fx.byte_label s.cfg.frameMax b s.fx
      · have hon (c : Call) : readLoop (.byte b :: rest) { s with call := some c } =
            readLoop rest { s with
              fx := (s.fx.byte s.cfg.frameMax b).1, label := (s.fx.byte s.cfg.frameMax b).2, line := rest,
              call := some c } :=
          readLoop_cons_on (fxRun_quiet hf hl) (by simp)
        rw [funext hon]
        exact ih { s with fx := _, label := _, line := rest } hf
      · refine .frame { s with fx := (s.fx.byte s.cfg.frameMax b).1, label := .frame f, line := rest } f fun c => ?_
        rw [readLoop_frame (s := { s with call := some c }) rfl hf hframe]
        cases c <;> rfl
    | timeout =>
      exact .other { s with label := .timedOut, line := rest } .timedOut (by simp) fun c =>
        readLoop_timeout (s := { s with call := some c }) rfl hf
    | error =>
      exact .other { s with label := .transportError, line := rest, failed := true } .transportError (by simp) fun c =>
        readLoop_error (s := { s with call := some c }) rfl hf

/-- R112, R246: a call that begins finds no call in progress and a live connection, and ends as its read loop does. -/
theorem beginCall_callEnds {c : Call} {s t : State} (h : beginCall c s = .next t) :
    CallEnds fun c => beginCall c s := by
  have hf : s.failed = false := (beginCall_effect h).1
  have hc : s.call = none := by
    by_contra hc
    simp [beginCall_inProgress hc] at h
  simpa only [beginCall_live hc hf] using readLoop_callEnds s.line s hf

/-- R13: a decode that returns overwrites the result of the step before. -/
theorem mdReturn_overwrites_result (x : Bu Result) (s : State) (r : Option Result) :
    mdReturn x { s with result := r } = mdReturn x s := by
  cases x <;> rfl

/-- Settles O24: by what the two calls end in. -/
theorem nextMessageIsNextFrameThenDecode : Obligations.NextMessageIsNextFrameThenDecode := by
  unfold Obligations.NextMessageIsNextFrameThenDecode
  intro s t n dir h
  cases beginCall_callEnds h with
  | blocks u hu =>
    obtain rfl := Host.Outcome.next.inj (h.symm.trans (hu (.nextFrame n)))
    exact ⟨fun _ => hu (.nextMessage n dir), fun hc => by simp at hc⟩
  | frame u f hu =>
    obtain rfl := Host.Outcome.next.inj (h.symm.trans (hu (.nextFrame n)))
    refine ⟨fun hc => absurd rfl hc, fun _ => ⟨fun f' hf' => ?_, fun hf' => absurd rfl (hf' f)⟩⟩
    obtain rfl : f = f' := by simpa using hf'
    exact (hu (.nextMessage n dir)).trans (mdReturn_overwrites_result _ { u with call := none } _).symm
  | other u r hr hu =>
    obtain rfl := Host.Outcome.next.inj (h.symm.trans (hu (.nextFrame n)))
    refine ⟨fun hc => absurd rfl hc, fun _ => ⟨fun f hf => ?_, fun _ => hu (.nextMessage n dir)⟩⟩
    exact absurd (Option.some.inj hf) (hr f)

/-! ## Which case of a decode a frame selects (R135 to R137, R142) -/

/-- R135: the row a frame selects ends as the decode of it. -/
theorem exec_hdrRow {s : State} {f : List Byte} {dir : Dir} {row : HdrRow} (hsel : selectHdr s.cfg f dir = row) :
    exec (row.instr f dir) s = mdReturn (decodeResult s.cfg f dir) s := by
  unfold decodeResult
  rw [hsel]
  cases row <;> exact if_pos hsel

/-- R137: the marker check, with its mask written out. -/
theorem markerSet_eq_true_iff (f : List Byte) : markerSet f = true ↔ f.getD 0 0 &&& 0x40 ≠ 0 :=
  decide_eq_true_iff.trans (and_mark_eq_iff _)

theorem markerSet_eq_false_iff (f : List Byte) : markerSet f = false ↔ f.getD 0 0 &&& 0x40 = 0 := by
  rw [← Bool.not_eq_true, markerSet_eq_true_iff, not_not]

section Selection

variable {c : Config} {f : List Byte} {dir : Dir}

/-- R136. -/
theorem selectHdr_short (hlen : f.length < 6) : selectHdr c f dir = .short := if_pos hlen

/-- R137. -/
theorem selectHdr_error (hlen : 6 ≤ f.length) (hmark : f.getD 0 0 &&& 0x40 = 0) : selectHdr c f dir = .error := by
  have hwhole : ¬ f.length < HDR_LEN := Nat.not_lt.2 hlen
  rw [selectHdr, if_neg hwhole, (markerSet_eq_false_iff f).2 hmark, if_pos (by decide)]

/-- R142: a whole header with the marker set and a type that is unmapped; 255 has a row of its own. -/
theorem selectHdr_unmapped (hlen : 6 ≤ f.length) (hmark : f.getD 0 0 &&& 0x40 ≠ 0)
    (hcell : c.lookup dir (f.getD 5 0) = .unmapped) :
    selectHdr c f dir = if f.getD 5 0 = 255 then .unmapped255 else .unknownType := by
  have hwhole : ¬ f.length < HDR_LEN := Nat.not_lt.2 hlen
  have hlookup : c.lookup dir (msgTypeOf f) = .unmapped := hcell
  rw [selectHdr, if_neg hwhole, (markerSet_eq_true_iff f).2 hmark, if_neg (by decide), hlookup]
  rfl

end Selection

/-- Settles O30: the row by what selects it, and a decode inside the spec returns. -/
theorem decodeRunsTheRowSelected : Obligations.DecodeRunsTheRowSelected := by
  unfold Obligations.DecodeRunsTheRowSelected
  intro s f dir
  refine ⟨(exec_hdrRow rfl).symm, selectHdr_short, selectHdr_error, fun hlen hmark hcell => ?_, fun hsel => ?_⟩
  · rw [selectHdr_unmapped hlen hmark hcell, apply_ite (HdrRow.instr f dir)]
    rfl
  · exact mdReturn_of_notRefused (decodeResult_notRefused hsel) s

/-! ## What a decode reads of its frame (R138, R139, U12) -/

/-- R135, R138, R143: a decode reads of its frame the length, the marker, the header and the payload. -/
theorem decodeResult_congr {f f' : List Byte} (c : Config) (dir : Dir) (hlen : f.length = f'.length)
    (hmark : markerSet f = markerSet f') (hhdr : parseHeader f = parseHeader f') (hpay : payload f = payload f') :
    decodeResult c f dir = decodeResult c f' dir := by
  have htype : msgTypeOf f = msgTypeOf f' := congrArg Header.msgType hhdr
  have hsel : selectHdr c f dir = selectHdr c f' dir := by simp only [selectHdr, hlen, hmark, htype]
  have hempty : f.isEmpty = f'.isEmpty := by
    rw [Bool.eq_iff_iff, List.isEmpty_iff_length_eq_zero, List.isEmpty_iff_length_eq_zero, hlen]
  simp only [decodeResult, hsel, shortResult, healthResult, spConfigResult, vwResult, unknownResult, otherResult,
    recordResult, hempty, hmark, hhdr, hpay, htype]

/-- A mask below `0x4F` sees of a byte no more than `0x4F` does. -/
theorem and_eq_and_of_submask {b b' m : Byte} (h : b &&& 0x4F = b' &&& 0x4F) (hm : 0x4F &&& m = m) :
    b &&& m = b' &&& m := by
  rw [← hm, ← BitVec.and_assoc, ← BitVec.and_assoc, h]

/-- Settles O29: the marker is bit 6 of byte 0 and nodeId takes bits 3 to 0 of it. -/
theorem unreadHeaderBitsDoNotMatter : Obligations.UnreadHeaderBitsDoNotMatter := by
  unfold Obligations.UnreadHeaderBitsDoNotMatter
  intro s dir b b' rest h
  have hmark : markerSet (b :: rest) = markerSet (b' :: rest) :=
    congrArg (fun x => decide (x = HDR_MARK)) (and_eq_and_of_submask h (by decide))
  have hhdr : parseHeader (b :: rest) = parseHeader (b' :: rest) := by
    have hnode : frameByte (b :: rest) 0 &&& 0x0F = frameByte (b' :: rest) 0 &&& 0x0F :=
      and_eq_and_of_submask h (by decide)
    simp only [parseHeader, hnode]
    rfl
  exact congrArg (mdReturn · s) (decodeResult_congr s.cfg dir rfl hmark hhdr rfl)

/-! ## ETX ends a message (R108) -/

/-- R31: a refused decode is refused in every state. -/
theorem mdReturn_same_refusal {x : Bu Result} {e : Refusal} {s : State} (h : mdReturn x s = .refused e) (t : State) :
    mdReturn x t = .refused e := by
  cases x with
  | ok | malformed => simp [mdReturn] at h
  | refuse q => exact h

/-- R113, R145: a row selected on a live connection that emits a frame delivers it to the call in progress. -/
theorem fxRun_frame_call {s : State} {rule : Fx → FxStep} {f : List Byte} {c : Call} (hf : s.failed = false)
    (hrule : (rule s.fx).2 = .frame f) (hc : s.call = some c) :
    fxRun true rule s = deliverFrame f c { s with fx := (rule s.fx).1, label := .frame f } := by
  simp [fxRun, hf, hrule, deliver, hc]

/-- Settles O5: the row by what selects it, and its frame delivered to the call in progress, by its kind. -/
theorem etxEmitsTheContents : Obligations.EtxEmitsTheContents := by
  unfold Obligations.EtxEmitsTheContents
  refine ⟨fun full => SelectsRow.escEtx.decodeExt full, fun s hf hst => ?_⟩
  have hexec : exec .escEtx s = fxRun true Fx.escEtx s := congrArg (fxRun · Fx.escEtx s) (decide_eq_true hst)
  have hcall {c : Call} (hc : s.call = some c) := hexec.trans (fxRun_frame_call hf rfl hc)
  refine ⟨fun hc => hexec.trans (fxRun_no_call hf hc), fun n hc => hcall hc,
    fun n dir hc => ⟨fun r hr => ?_, fun e he => ?_⟩⟩
  · exact (hcall hc).trans (mdReturn_same_result hr _)
  · exact (hcall hc).trans (mdReturn_same_refusal he _)

/-! ## Headers that fail, and types that are unmapped (R136, R137, R142, R146) -/

section HeaderRows

variable {s : State} {f : List Byte} {dir : Dir}

/-- R136. -/
theorem exec_hdrShort (hlen : f.length < 6) : exec (.hdrShort f dir) s = mdReturn (shortResult s.cfg f) s :=
  if_pos (selectHdr_short hlen)

/-- R137. -/
theorem exec_hdrError (hlen : 6 ≤ f.length) (hmark : f.getD 0 0 &&& 0x40 = 0) :
    exec (.hdrError f dir) s = .next { s with result := some .headerError } :=
  if_pos (selectHdr_error hlen hmark)

/-- R136, U5: where the length is tested first, and of a frame without a clear marker. -/
theorem shortResult_malformed {c : Config} (h : c.shortMarkerFirst = false ∨ f = [] ∨ f.getD 0 0 &&& 0x40 ≠ 0) :
    shortResult c f = .malformed := by
  obtain h | h | h := h
  · simp [shortResult, h]
  · simp [shortResult, h]
  · simp [shortResult, (markerSet_eq_true_iff f).2 h]

/-- U5: where the marker is tested first. -/
theorem shortResult_headerError {c : Config} (hfirst : c.shortMarkerFirst = true) (hne : f ≠ [])
    (hmark : f.getD 0 0 &&& 0x40 = 0) : shortResult c f = .ok .headerError := by
  simp [shortResult, hfirst, hne, (markerSet_eq_false_iff f).2 hmark]

end HeaderRows

/-- Settles O31. -/
theorem headerFailuresByLengthThenMarker : Obligations.HeaderFailuresByLengthThenMarker := by
  unfold Obligations.HeaderFailuresByLengthThenMarker
  refine ⟨fun s f dir hlen => ?_, fun s f dir => exec_hdrError⟩
  rw [exec_hdrShort hlen]
  refine ⟨fun h => ?_, fun hfirst hne hmark => ?_⟩
  · rw [shortResult_malformed h]
    rfl
  · rw [shortResult_headerError hfirst hne hmark]
    rfl

/-- R146: Health is in the up table at 64. -/
theorem lookup_up_64 (c : Config) : c.lookup .up 64 = .health := rfl

/-- R146, D15: SP Config is in its table at 130. -/
theorem lookup_spcfgDir_130 (c : Config) : c.lookup c.spcfgDir 130 = .spConfig := by
  simp [Config.lookup]

/-- R146: VW is in the up table at its number, where that is none of the fixed ones. -/
theorem lookup_up_vwMsgType {c : Config} (h64 : c.vwMsgType ≠ 64) (h130 : c.vwMsgType ≠ 130)
    (h255 : c.vwMsgType ≠ 255) : c.lookup .up c.vwMsgType = .vw := by
  rw [Config.lookup, if_neg h255, if_neg (mt And.left h64), if_neg (mt And.left h130), if_pos ⟨rfl, rfl⟩]

/-- Settles O35: the tables by their fixed cells; either row of an unmapped type answers with the header. -/
theorem unmappedTypeIsUnknownType : Obligations.UnmappedTypeIsUnknownType := by
  unfold Obligations.UnmappedTypeIsUnknownType
  refine ⟨fun c dir => ⟨lookup_255 c dir, lookup_up_64 c, lookup_spcfgDir_130 c, lookup_up_vwMsgType⟩,
    fun s f dir hlen hmark => ⟨fun h255 => ?_, fun hne hcell => ?_⟩⟩
  · have hsel := selectHdr_unmapped hlen hmark (h255 ▸ lookup_255 s.cfg dir)
    exact if_pos (hsel.trans (if_pos h255))
  · exact if_pos ((selectHdr_unmapped hlen hmark hcell).trans (if_neg hne))

end Sys2Proof.Machine

namespace Sys2Proof.Machine

/-! ## Bit fields as numbers (R11, R49, R158, R159) -/

/-- R158 -/
theorem extract_ok {p : List Byte} {off n : Nat} (hmin : 1 ≤ n) (hmax : n ≤ 32) (hend : off + n ≤ 8 * p.length) :
    extract p off n = .ok (bitSum p off n) :=
  extract_eq_ok.2 ⟨(widthOk_iff n).2 ⟨hmin, hmax⟩, hend, rfl⟩

/-- R53, R158 -/
theorem extract_past_end {p : List Byte} {off n : Nat} (hmin : 1 ≤ n) (hmax : n ≤ 32) (hend : 8 * p.length < off + n) :
    extract p off n = .malformed := by
  rw [extract, if_pos ((widthOk_iff n).2 ⟨hmin, hmax⟩), if_neg (Nat.not_le.2 hend)]

/-- R158: the recursion over the bits is the sum. -/
theorem bitSum_eq_sum (p : List Byte) (off n : Nat) :
    bitSum p off n = ∑ i ∈ Finset.range n, bitAt p (off + i) * 2 ^ (n - 1 - i) := by
  induction n generalizing off with
  | zero => rfl
  | succ n ih =>
    rw [bitSum, ih, Finset.sum_range_succ', Nat.add_comm]
    refine congrArg₂ (· + ·) (Finset.sum_congr rfl fun i _ => ?_) rfl
    rw [show off + 1 + i = off + (i + 1) by omega, show n - 1 - i = n + 1 - 1 - (i + 1) by omega]

/-- Settles O37: by whether the field lies in the payload. -/
theorem extractIsTheSumOfItsBits : Obligations.ExtractIsTheSumOfItsBits := by
  unfold Obligations.ExtractIsTheSumOfItsBits
  refine fun s p off n => ⟨fun hmin hmax hend => ?_, fun hmin hmax hend => ?_⟩
  · simp only [exec, execExtract, extract_ok hmin hmax hend, uopReturn_ok, bitSum_eq_sum]
    rfl
  · simp only [exec, execExtract, extract_past_end hmin hmax hend, uopReturn_malformed]

/-- A field is its first bits, then the others. -/
theorem bitSum_add (p : List Byte) (off m n : Nat) :
    bitSum p off (m + n) = bitSum p off m * 2 ^ n + bitSum p (off + m) n := by
  induction m generalizing off with
  | zero => simp [bitSum]
  | succ m ih =>
    rw [Nat.add_right_comm, bitSum, bitSum, ih, Nat.pow_add, Nat.add_right_comm off 1 m]
    ring_nf

/-- The lowest `n + 1` bits of a number are its bit `n` and the `n` below it. -/
theorem mod_two_pow_succ (x n : Nat) : x % 2 ^ (n + 1) = (x.testBit n).toNat * 2 ^ n + x % 2 ^ n := by
  rw [Nat.mod_pow_succ, Nat.toNat_testBit, Nat.add_comm, Nat.mul_comm]

/-- R11: the last `n` bits of a byte. -/
theorem bitSum_end_of_byte (p : List Byte) (a : Nat) {n : Nat} (hn : n ≤ 8) :
    bitSum p (8 * a + (8 - n)) n = (p.getD a 0).toNat % 2 ^ n := by
  induction n with
  | zero => simp [bitSum, Nat.mod_one]
  | succ n ih =>
    have hbyte : (8 * a + (8 - (n + 1))) / 8 = a := by omega
    have hbit : 7 - (8 * a + (8 - (n + 1))) % 8 = n := by omega
    have hrest : 8 * a + (8 - (n + 1)) + 1 = 8 * a + (8 - n) := by omega
    rw [bitSum, hrest, ih (by omega), mod_two_pow_succ, bitAt, hbyte, hbit, BitVec.getLsbD]
    cases (p.getD a 0).toNat.testBit n <;> rfl

/-- R10: a byte in front of others weighs more than they do. -/
theorem beFrom_eq (acc : Nat) (bs : List Byte) : beFrom acc bs = acc * 2 ^ (8 * bs.length) + be bs := by
  unfold be
  induction bs generalizing acc with
  | nil => simp [beFrom]
  | cons b bs ih =>
    rw [beFrom, beFrom, ih (acc * 256 + b.toNat), ih (0 * 256 + b.toNat), List.length_cons, Nat.mul_add, Nat.pow_add]
    ring

/-- R49: whole bytes, most significant bit first, are their big-endian number. -/
theorem bitSum_bytes {p : List Byte} {a k : Nat} (hend : a + k ≤ p.length) :
    bitSum p (8 * a) (8 * k) = be ((p.drop a).take k) := by
  induction k generalizing a with
  | zero => rfl
  | succ k ih =>
    have ha : a < p.length := by omega
    have hbyte : bitSum p (8 * a) 8 = p[a].toNat := by
      have := bitSum_end_of_byte p a (n := 8) le_rfl
      rw [List.getD_eq_getElem p 0 ha] at this
      exact this.trans (Nat.mod_eq_of_lt p[a].isLt)
    have hlen : ((p.drop (a + 1)).take k).length = k := by simp; omega
    rw [List.drop_eq_getElem_cons ha, List.take_succ_cons, be, beFrom, beFrom_eq, hlen, ← ih (by omega),
      Nat.mul_succ, Nat.add_comm (8 * k), bitSum_add, hbyte]
    simp [Nat.mul_add]

/-- R49, R51: a byte-aligned field of one to four bytes is the read of those bytes, past the end included. -/
theorem extract_aligned (p : List Byte) (a : Nat) {k : Nat} (hmin : 1 ≤ k) (hmax : k ≤ 4) :
    extract p (8 * a) (8 * k) = memRead p a k := by
  by_cases hend : a + k ≤ p.length
  · rw [extract_ok (by omega) (by omega) (by omega), bitSum_bytes hend, memRead, if_pos hend]
  · rw [extract_past_end (by omega) (by omega) (by omega), memRead, if_neg hend]

/-- Shifting away the bits after a field and masking away those before it leaves the field. -/
theorem shift_mask_field {before field after n k : Nat} (hfield : field < 2 ^ n) (hafter : after < 2 ^ k) :
    ((before * 2 ^ n + field) * 2 ^ k + after) >>> k &&& (2 ^ n - 1) = field := by
  rw [Nat.shiftRight_eq_div_pow, Nat.and_two_pow_sub_one_eq_mod, Nat.mul_comm _ (2 ^ k),
    Nat.mul_add_div (Nat.two_pow_pos k), Nat.div_eq_of_lt hafter, Nat.add_zero, Nat.mul_comm,
    Nat.mul_add_mod, Nat.mod_eq_of_lt hfield]

/-- R159: the bytes that hold a field are the bits before it in its first byte, the field, and those after it in its last. -/
theorem extractBytes_eq_bitSum {p : List Byte} {off n : Nat} (hmin : 1 ≤ n) (hend : off + n ≤ 8 * p.length) :
    extractBytes p off n = bitSum p off n := by
  have hbytes : off / 8 + ((off + n - 1) / 8 - off / 8 + 1) ≤ p.length := by omega
  have hbits : 8 * ((off + n - 1) / 8 - off / 8 + 1) = off % 8 + n + (7 - (off + n - 1) % 8) := by omega
  have hoff : 8 * (off / 8) + off % 8 = off := Nat.div_add_mod off 8
  rw [extractBytes, ← bitSum_bytes hbytes, hbits, bitSum_add, bitSum_add, hoff]
  exact shift_mask_field (bitSum_lt p off n) (bitSum_lt p _ _)

/-- Settles O38: both forms are the same bits of the payload. -/
theorem byteGranularExtractAgrees : Obligations.ByteGranularExtractAgrees := by
  unfold Obligations.ByteGranularExtractAgrees
  refine ⟨fun p off n hmin hmax hend => ?_, fun p a k => extract_aligned p a⟩
  rw [extract_ok hmin hmax hend, extractBytes_eq_bitSum hmin hend]

/-! ## The reference bit-packer (R160) -/

@[simp] theorem length_setBit (p : List Byte) (k : Nat) (x : Bool) : (setBit p k x).length = p.length :=
  List.length_set

@[simp] theorem length_packField (p : List Byte) (off n v : Nat) : (packField p off n v).length = p.length := by
  induction n generalizing p off with
  | zero => rfl
  | succ n ih => rw [packField, ih, length_setBit]

/-- One bit of a byte written, as `setBit` writes it. -/
theorem getLsbD_write_bit (b : Byte) (x : Bool) {i j : Nat} (hj : j < 8) :
    (if x then b ||| BitVec.twoPow 8 i else b &&& ~~~BitVec.twoPow 8 i).getLsbD j = if i = j then x else b.getLsbD j := by
  cases x <;> by_cases h : i = j <;> simp [h, hj, eq_comm (a := j)]

/-- What a bit reads after a bit of the payload is written. -/
theorem bitAt_setBit {p : List Byte} {k : Nat} (x : Bool) (j : Nat) (hk : k < 8 * p.length) :
    bitAt (setBit p k x) j = if j = k then x.toNat else bitAt p j := by
  have hbyte : k / 8 < p.length := by omega
  unfold bitAt setBit
  by_cases h : k / 8 = j / 8
  · rw [← h, List.getD_eq_getElem _ 0 (by rwa [List.length_set]), List.getElem_set_self,
      getLsbD_write_bit _ _ (by omega)]
    by_cases hjk : j = k
    · subst hjk
      cases x <;> simp
    · have : 7 - k % 8 ≠ 7 - j % 8 := by omega
      simp [this, hjk]
  · have hjk : j ≠ k := fun e => h (e ▸ rfl)
    rw [if_neg hjk, List.getD_eq_getElem?_getD, List.getElem?_set_ne h, List.getD_eq_getElem?_getD]

/-- R160: the packer keeps every bit outside the field. -/
theorem bitAt_packField_outside {p : List Byte} {off n j : Nat} (v : Nat) (hend : off + n ≤ 8 * p.length)
    (hj : j < off ∨ off + n ≤ j) : bitAt (packField p off n v) j = bitAt p j := by
  induction n generalizing p off with
  | zero => rfl
  | succ n ih =>
    rw [packField, ih (by rw [length_setBit]; omega) (by omega), bitAt_setBit _ _ (by omega), if_neg (by omega)]

/-- R160: the field that was packed is the value, as far as it fits. -/
theorem bitSum_packField {p : List Byte} {off n : Nat} (v : Nat) (hend : off + n ≤ 8 * p.length) :
    bitSum (packField p off n v) off n = v % 2 ^ n := by
  induction n generalizing p off with
  | zero => simp [bitSum, Nat.mod_one]
  | succ n ih =>
    have hlen : off + 1 + n ≤ 8 * (setBit p off (v.testBit n)).length := by rw [length_setBit]; omega
    have hfirst : bitAt (packField p off (n + 1) v) off = (v.testBit n).toNat := by
      rw [packField, bitAt_packField_outside v hlen (by omega), bitAt_setBit _ _ (by omega), if_pos rfl]
    rw [bitSum, hfirst, packField, ih hlen, mod_two_pow_succ]

/-- Settles O39, by induction over the bits of the field. -/
theorem extractOfPackedFieldIsValue : Obligations.ExtractOfPackedFieldIsValue := by
  unfold Obligations.ExtractOfPackedFieldIsValue
  refine fun p off n v hmin hmax hend hv => ⟨?_, length_packField p off n v, fun _ => bitAt_packField_outside v hend⟩
  rw [extract_ok hmin hmax (by rwa [length_packField]), bitSum_packField v hend, Nat.mod_eq_of_lt hv]

/-! ## Signed readings (R161) -/

/-- R161 -/
theorem sext_ok {v w : Nat} (hw : 1 ≤ w) (hv : v < 2 ^ w) : sext v w = .ok (signExtend v w) := by
  simp [sext, hw, hv]

/-- Settles O40: by the half of the range the value lies in. -/
theorem signExtensionIsTwosComplement : Obligations.SignExtensionIsTwosComplement := by
  unfold Obligations.SignExtensionIsTwosComplement
  intro s v w
  have hdouble (hw : 1 ≤ w) : 2 ^ (w - 1) + 2 ^ (w - 1) = 2 ^ w := Nat.two_pow_pred_add_two_pow_pred hw
  refine ⟨fun hw hlow => ?_, fun hw hhigh hv => ⟨?_, ?_⟩⟩
  · have hv : v < 2 ^ w := by have := hdouble hw; omega
    have hread : signExtend v w = v := by rw [signExtend_eq hw hv, if_neg (by have := hdouble hw; omega)]
    simp only [exec, execSext, sext_ok hw hv, uopReturn_ok, hread]
  · have hread : signExtend v w = v - 2 ^ w := by rw [signExtend_eq hw hv, if_pos (by have := hdouble hw; omega)]
    simp only [exec, execSext, sext_ok hw hv, uopReturn_ok, hread]
  · have hrange : ((2 ^ w : Nat) : Int) = 2 ^ w := by norm_cast
    rw [xor_two_pow_sub_one hv]
    omega

end Sys2Proof.Machine

namespace Sys2Proof.Machine

/-! ## Scaling (R165 to R167) -/

/-- R165 -/
theorem mkRat_mul_ten_pow (x : Int) (k : Nat) : mkRat x (10 ^ k) * 10 ^ k = x := by
  rw [Rat.mkRat_eq_div]
  push_cast
  exact div_mul_cancel₀ _ (pow_ne_zero k (by norm_num))

/-- The first row of a key in a table. -/
theorem find?_append_cons_key {α β : Type} [DecidableEq α] {key : α} {before : List (α × β)}
    (h : ∀ r ∈ before, r.1 ≠ key) (x : β) (after : List (α × β)) :
    (before ++ (key, x) :: after).find? (fun r => r.1 = key) = some (key, x) := by
  have hnone : before.find? (fun r => r.1 = key) = none := List.find?_eq_none.2 (by simpa using h)
  rw [List.find?_append, hnone, Option.none_or, List.find?_cons_of_pos (by simp)]

/-- R166: a unit code is read by the first row of it. -/
theorem unitRow_eq_find? (code : Int) (table : List (Int × String × Nat)) :
    unitRow code table = (table.find? fun r => r.1 = code).map Prod.snd := by
  induction table with
  | nil => rfl
  | cons r table ih => by_cases h : r.1 = code <;> simp [unitRow, h, ih]

/-- Settles O42: the quotient multiplied back, and the unit by the first row of its code. -/
theorem scalingIsExact : Obligations.ScalingIsExact := by
  unfold Obligations.ScalingIsExact
  refine ⟨fun s x k => ⟨fun hk => ?_, fun hk => ⟨mkRat x (10 ^ k), ?_, mkRat_mul_ten_pow x k⟩⟩,
    fun s x code => ⟨fun before name k after htable hbefore => ?_, fun hnone => ?_⟩⟩
  · simp only [exec, execScale, scaled, if_pos hk]
  · simp only [exec, execScale, scaled, if_neg (Nat.ne_of_gt hk)]
  · have hrow : unitRow code s.cfg.unitTable = some (name, k) := by
      rw [unitRow_eq_find?, htable, find?_append_cons_key hbefore, Option.map_some]
    simp only [exec, execUnitscale, unitScaled, hrow, pairValue, valuesOf]
  · have hrow : unitRow code s.cfg.unitTable = none := by
      rw [unitRow_eq_find?, List.find?_eq_none.2 (by simpa using hnone), Option.map_none]
    simp only [exec, execUnitscale, unitScaled, hrow, pairValue, valuesOf]

/-! ## Whole-byte items (R79, R155, R156) -/

/-- R155: what an integer item makes of its raw bytes. -/
def itemReading (i : Item) (raw : Nat) : Int :=
  if i = .s1 ∨ i = .s2 ∨ i = .s4 then signExtend raw (8 * itemSize i) else raw

theorem itemSize_bounds (i : Item) : 1 ≤ itemSize i ∧ itemSize i ≤ 4 := by cases i <;> decide

theorem itemValue_ok {i : Item} {raw : Nat} (hi : i ≠ .f4) (hraw : raw < 2 ^ (8 * itemSize i)) :
    itemValue i raw = .ok (itemReading i raw) := by
  cases i with
  | u1 | u2 | u4 => rfl
  | s1 | s2 | s4 => exact sext_ok (by decide) hraw
  | f4 => exact absurd rfl hi

/-- R155: an integer item that lies in the payload. -/
theorem itemAt_ok {p : List Byte} {a : Nat} {i : Item} (hi : i ≠ .f4) (hend : a + itemSize i ≤ p.length) :
    itemAt p a i = .ok (itemReading i (be ((p.drop a).take (itemSize i)))) := by
  have hread : memRead p a (itemSize i) = .ok (be ((p.drop a).take (itemSize i))) := memRead_eq_ok.2 ⟨hend, rfl⟩
  rw [itemAt, hread, Bu.bind_ok, itemValue_ok hi (memRead_lt hread)]

/-- R53: an item that does not. -/
theorem itemAt_past_end {p : List Byte} {a : Nat} {i : Item} (hend : p.length < a + itemSize i) :
    itemAt p a i = .malformed := by
  rw [itemAt, memRead, if_neg (Nat.not_le.2 hend), Bu.bind_malformed]

/-- R155: the values of a layout from byte index `a`. -/
def itemReadings (p : List Byte) (a : Nat) : List Item → List Int
  | [] => []
  | i :: rest => itemReading i (be ((p.drop a).take (itemSize i))) :: itemReadings p (a + itemSize i) rest

@[simp] theorem length_itemReadings (p : List Byte) (a : Nat) (l : List Item) : (itemReadings p a l).length = l.length := by
  induction l generalizing a with
  | nil => rfl
  | cons i l ih => simp [itemReadings, ih]

/-- R155: each value is read at the running offset of its item. -/
theorem getElem?_itemReadings (p : List Byte) (a : Nat) {l : List Item} {k : Nat} {i : Item} (h : l[k]? = some i) :
    (itemReadings p a l)[k]? =
      some (itemReading i (be ((p.drop (a + layoutSize (l.take k))).take (itemSize i)))) := by
  induction l generalizing a k with
  | nil => simp at h
  | cons j l ih =>
    cases k with
    | zero =>
      obtain rfl : j = i := by simpa using h
      rfl
    | succ k =>
      rw [itemReadings, List.getElem?_cons_succ, ih (a + itemSize j) h, List.take_succ_cons, layoutSize_cons, Nat.add_assoc]

/-- R155: a payload read from byte `a` on. -/
theorem itemReadings_drop (p : List Byte) (a b : Nat) (l : List Item) :
    itemReadings (p.drop a) b l = itemReadings p (a + b) l := by
  induction l generalizing b with
  | nil => rfl
  | cons i l ih => simp only [itemReadings, List.drop_drop, ih, Nat.add_assoc]

theorem not_mem_cons_f4 {i : Item} {l : List Item} (h : Item.f4 ∉ i :: l) : i ≠ .f4 ∧ .f4 ∉ l := by
  simpa [eq_comm] using h

theorem itemsFrom_ok {p : List Byte} {a : Nat} {l : List Item} (hl : .f4 ∉ l) (hend : a + layoutSize l ≤ p.length) :
    itemsFrom p a l = .ok (itemReadings p a l) := by
  induction l generalizing a with
  | nil => rfl
  | cons i l ih =>
    obtain ⟨hi, hrest⟩ := not_mem_cons_f4 hl
    rw [layoutSize_cons] at hend
    rw [itemsFrom, itemAt_ok hi (by omega), Bu.bind_ok, ih hrest (by omega)]
    rfl

/-- R53, R155: of a layout that ends past the payload, some item does. -/
theorem itemsFrom_past_end {p : List Byte} {a : Nat} {l : List Item} (hl : .f4 ∉ l) (hne : l ≠ [])
    (hend : p.length < a + layoutSize l) : itemsFrom p a l = .malformed := by
  induction l generalizing a with
  | nil => exact absurd rfl hne
  | cons i l ih =>
    obtain ⟨hi, hrest⟩ := not_mem_cons_f4 hl
    rw [layoutSize_cons] at hend
    rw [itemsFrom]
    by_cases hfirst : a + itemSize i ≤ p.length
    · have hne : l ≠ [] := by rintro rfl; rw [layoutSize_nil] at hend; omega
      rw [itemAt_ok hi hfirst, Bu.bind_ok, ih hrest hne (by omega), Bu.bind_malformed]
    · rw [itemAt_past_end (Nat.not_le.1 hfirst), Bu.bind_malformed]

theorem unpackFixed_ok {p : List Byte} {l : List Item} (hl : .f4 ∉ l) (hend : layoutSize l ≤ p.length) :
    unpackFixed p l = .ok (itemReadings p 0 l) := by
  rw [unpackFixed, if_neg (by simpa using hl), if_neg (Nat.not_lt.2 hend), itemsFrom_ok hl (by omega)]

theorem unpackFixed_past_end {p : List Byte} {l : List Item} (hl : .f4 ∉ l) (hend : p.length < layoutSize l) :
    unpackFixed p l = .malformed := by
  rw [unpackFixed, if_neg (by simpa using hl), if_pos hend]

/-- R49, R172: at a byte boundary, reading at the cursor is reading whole bytes. -/
theorem itemsAtCursor_aligned (p : List Byte) (a : Nat) (l : List Item) :
    itemsAtCursor p (8 * a) l = (itemsFrom p a l).bind fun vs => .ok (vs, 8 * (a + layoutSize l)) := by
  induction l generalizing a with
  | nil => rfl
  | cons i l ih =>
    obtain ⟨hmin, hmax⟩ := itemSize_bounds i
    rw [itemsAtCursor, itemsFrom, itemAt, extract_aligned p a hmin hmax, ← Nat.mul_add, ih, layoutSize_cons,
      Nat.add_assoc]
    cases memRead p a (itemSize i) with
    | malformed | refuse => rfl
    | ok raw =>
      rw [Bu.bind_ok, Bu.bind_ok]
      cases itemValue i raw with
      | malformed | refuse => rfl
      | ok v =>
        rw [Bu.bind_ok, Bu.bind_ok]
        cases itemsFrom p (a + itemSize i) l <;> rfl

/-- The two spellings of a list of integers as a value (R14). -/
theorem intValues_eq_valuesOf (vs : List Int) : intValues vs = valuesOf (vs.map .int) := by
  induction vs with
  | nil => rfl
  | cons v vs ih => rw [intValues, ih]; rfl

/-- R172: a whole-byte unpack inside a decoder, at a byte boundary. -/
theorem runParser_unpack_aligned (c : Config) (p : List Byte) (t : Fields) (j a : Nat) {l : List Item} (hl : .f4 ∉ l) :
    runParser c p t j (8 * a) (.unpack l) =
      (itemsFrom p a l).bind fun vs => .ok (.list (valuesOf (vs.map .int)), 8 * (a + layoutSize l)) := by
  rw [runParser, unpackAtCursor, if_neg (by simpa using hl), itemsAtCursor_aligned]
  cases itemsFrom p a l with
  | malformed | refuse => rfl
  | ok vs => simp only [Bu.bind_ok, intValues_eq_valuesOf]

theorem exec_unpackFixed_ok (s : State) {p : List Byte} {l : List Item} (hl : .f4 ∉ l) (hend : layoutSize l ≤ p.length) :
    exec (.unpackFixed p l) s = .next { s with
      pay := p, pos := layoutSize l, items := itemReadings p 0 l, ret := some (.items (itemReadings p 0 l)) } := by
  simp only [exec, execUnpackFixed, unpackFixed_ok hl hend, uopReturn_ok]

/-- Settles O43: the items by induction over the layout, and inside a decoder by the same read of whole bytes. -/
theorem unpackFixedReadsEveryItem : Obligations.UnpackFixedReadsEveryItem := by
  unfold Obligations.UnpackFixedReadsEveryItem
  refine fun s p l => ⟨fun hl hend => ⟨_, exec_unpackFixed_ok s hl hend, length_itemReadings p 0 l, fun k i hk => ?_⟩,
    fun hl hend => ?_, fun c t j a hl => ⟨fun hend => ?_, fun hne hend => ?_⟩⟩
  · have hread := getElem?_itemReadings p 0 hk
    rw [Nat.zero_add] at hread
    exact hread
  · simp only [exec, execUnpackFixed, unpackFixed_past_end hl hend, uopReturn_malformed]
  · have hrest : layoutSize l ≤ (p.drop a).length := by rw [List.length_drop]; omega
    refine ⟨_, unpackFixed_ok hl hrest, exec_unpackFixed_ok s hl hrest, ?_⟩
    rw [runParser_unpack_aligned c p t j a hl, itemsFrom_ok hl hend, itemReadings_drop]
    rfl
  · rw [runParser_unpack_aligned c p t j a hl, itemsFrom_past_end hl hne hend, Bu.bind_malformed]

/-- R10: a byte alone. -/
theorem be_singleton (b : Byte) : be [b] = b.toNat := by simp [be, beFrom]

/-- R79: `b` reads a byte in two's complement. -/
theorem itemReading_s1 (b : Byte) : itemReading .s1 (be [b]) = b.toInt := by
  have hread : itemReading .s1 b.toNat = signExtend b.toNat 8 := rfl
  rw [be_singleton, hread, signExtend_eq (by decide) b.isLt, BitVec.toInt_eq_toNat_cond]
  split_ifs <;> omega

/-- R79: a layout character whose item lies in the payload. -/
theorem layItem_ok {s : State} {i : Item} (hi : i ≠ .f4) (hend : s.pos + itemSize i ≤ s.pay.length) :
    layItem i s =
      let v := itemReading i (be ((s.pay.drop s.pos).take (itemSize i)))
      .next { s with pos := s.pos + itemSize i, items := s.items ++ [v], ret := some (.value (.int v)) } := by
  rw [layItem, itemAt_ok hi hend, uopReturn_ok]

theorem layItem_past_end {s : State} {i : Item} (hend : s.pay.length < s.pos + itemSize i) :
    layItem i s = .next s.raiseMalformed := by
  rw [layItem, itemAt_past_end hend, uopReturn_malformed]

/-- Settles O44: every character is one item read at the byte index. -/
theorem layoutCharactersReadTheirItems : Obligations.LayoutCharactersReadTheirItems := by
  unfold Obligations.LayoutCharactersReadTheirItems
  refine ⟨fun s => rfl, fun s i n hi => ?_, fun s => ⟨fun hend => ?_, fun hend =>
    layItem_past_end (i := .s1) (Nat.lt_succ_of_le hend)⟩⟩
  · simp only [List.mem_cons, Prod.mk.injEq, List.not_mem_nil, or_false] at hi
    obtain ⟨rfl, rfl⟩ | ⟨rfl, rfl⟩ | ⟨rfl, rfl⟩ := hi
    · exact ⟨layItem_ok (i := .u4) (by decide), layItem_past_end (i := .u4)⟩
    · exact ⟨layItem_ok (i := .u2) (by decide), layItem_past_end (i := .u2)⟩
    · exact ⟨layItem_ok (i := .u1) (by decide), layItem_past_end (i := .u1)⟩
  · have hbyte : (s.pay.drop s.pos).take 1 = [s.pay.getD s.pos 0] := by
      rw [List.drop_eq_getElem_cons hend, List.getD_eq_getElem _ 0 hend]
      rfl
    have h := layItem_ok (s := s) (i := .s1) (by decide) hend
    rw [show itemSize .s1 = 1 from rfl, hbyte, itemReading_s1] at h
    exact h

/-- R79: the character of an item, where it has one, reads the item. -/
theorem exec_itemRow {i : Item} {row : Instr} (h : itemRow i = some row) (s : State) : exec row s = layItem i s := by
  cases i with
  | u1 | u2 | u4 | s1 => cases h; rfl
  | s2 | s4 | f4 => cases h

/-- R155: where the items of a layout can be read, its characters read them, one after another. -/
theorem runRows_of_itemsFrom {l : List Item} {rows : List Instr} {s : State} {vs : List Int}
    (hrows : l.mapM itemRow = some rows) (hread : itemsFrom s.pay s.pos l = .ok vs) :
    ∃ u, runRows rows s = .next u ∧ u.items = s.items ++ vs ∧ u.pos = s.pos + layoutSize l := by
  induction l generalizing rows s vs with
  | nil =>
    cases hrows
    cases hread
    exact ⟨s, rfl, by simp, by simp⟩
  | cons i l ih =>
    simp only [List.mapM_cons, Option.bind_eq_bind, Option.bind_eq_some_iff, Option.pure_def, Option.some.injEq] at hrows
    obtain ⟨row, hrow, rows, hrest, rfl⟩ := hrows
    obtain ⟨v, hv, hread⟩ := Bu.bind_eq_ok hread
    obtain ⟨ws, hws, hread⟩ := Bu.bind_eq_ok hread
    cases hread
    obtain ⟨u, hu, hitems, hpos⟩ := ih (s := { s with
      pos := s.pos + itemSize i, items := s.items ++ [v], ret := some (.value (.int v)) }) hrest hws
    refine ⟨u, ?_, by simp [hitems], by rw [hpos, layoutSize_cons, Nat.add_assoc]⟩
    rw [runRows, exec_itemRow hrow, layItem, hv, uopReturn_ok]
    exact hu

/-- Settles O45: the layout has no float item, so its items can be read, and its characters read them. -/
theorem unpackFixedIsItsCharactersInOrder : Obligations.UnpackFixedIsItsCharactersInOrder := by
  unfold Obligations.UnpackFixedIsItsCharactersInOrder
  intro s t p l rows hrows hend h
  have hl : .f4 ∉ l := fun hf => by simp [exec, execUnpackFixed, unpackFixed_of_float hf] at h
  obtain rfl := Host.Outcome.next.inj (h.symm.trans (exec_unpackFixed_ok s hl hend))
  obtain ⟨u, hu, hitems, hpos⟩ := runRows_of_itemsFrom (s := { s with pay := p, pos := 0, items := [] }) hrows
    (itemsFrom_ok hl ((Nat.zero_add _).trans_le hend))
  exact ⟨u, hu, hitems, hpos.trans (Nat.zero_add _)⟩

end Sys2Proof.Machine

namespace Sys2Proof.Machine

/-! ## A continuation chosen by length (R157) -/

/-- R157: the keys of a finite map are the numbers it has a decoder under. -/
theorem hasKey_eq_isSome (k : Nat) : (e : Alts) → e.hasKey k = (altAt k e).isSome
  | .nil => rfl
  | .cons key d rest => by
    by_cases h : key = k
    · simp [Alts.hasKey, altAt, h]
    · simp [Alts.hasKey, altAt, h, hasKey_eq_isSome k rest]

theorem altAt_eq_none {k : Nat} {e : Alts} (h : e.hasKey k = false) : altAt k e = none := by
  rwa [hasKey_eq_isSome, Option.isSome_eq_false_iff, Option.isNone_iff_eq_none] at h

/-- R157: inside a decoder, the continuation is run at the cursor. -/
theorem runParser_lensel (c : Config) (p : List Byte) (t : Fields) (j cur : Nat) (e : Alts) :
    runParser c p t j cur (.lensel e) = (altAt p.length e).elim .malformed (runParser c p t j cur) := by
  rw [runParser, runAlts_eq]
  cases altAt p.length e <;> rfl

/-- Settles O46: by whether the map has a decoder under the length. -/
theorem lengthSelectsContinuation : Obligations.LengthSelectsContinuation := by
  unfold Obligations.LengthSelectsContinuation
  refine fun s p e => ⟨fun d hd => ?_, fun hkey => ?_, fun hkey => ?_,
    fun c t j cur => ⟨fun d hd => ?_, fun hkey => ?_⟩⟩
  · simp only [exec, execLensel, lengthChoice, hd, uopReturn_ok]
  · simp only [exec, execLensel, lengthChoice, altAt_eq_none hkey, uopReturn_malformed]
  · rwa [hasKey_eq_isSome, Option.isSome_iff_exists] at hkey
  · rw [runParser_lensel, hd, Option.elim_some]
  · rw [runParser_lensel, altAt_eq_none hkey, Option.elim_none]

/-! ## Repeated groups (R168) -/

theorem valuesSnoc_valuesOf (v : Value) (vs : List Value) : valuesSnoc v (valuesOf vs) = valuesOf (vs ++ [v]) := by
  induction vs with
  | nil => rfl
  | cons w vs ih => simp only [valuesOf, valuesSnoc, ih, List.cons_append]

/-- R168: one group more is read, with the next index, where those before it ended. -/
theorem groupLoop_succ (g : Nat → Nat → Bu (Value × Nat)) (c j cur : Nat) :
    groupLoop g (c + 1) j cur =
      (groupLoop g c j cur).bind fun r => (g r.2 (j + c)).bind fun x => .ok (valuesSnoc x.1 r.1, x.2) := by
  induction c generalizing j cur with
  | zero => rfl
  | succ c ih =>
    rw [groupLoop, groupLoop]
    cases g cur j with
    | malformed | refuse => rfl
    | ok x =>
      simp only [Bu.bind_ok, ih, Nat.add_right_comm j 1 c, Nat.add_assoc j c 1]
      cases groupLoop g c (j + 1) x.2 with
      | malformed | refuse => rfl
      | ok r =>
        simp only [Bu.bind_ok]
        cases g r.2 (j + (c + 1)) <;> rfl

/-- The groups that the row GROUPS reads, with the configuration and the side table of the state. -/
def groupsAt (s : State) (p : List Byte) (cur c : Nat) (g : Parser) : Bu (Values × Nat) :=
  groupLoop (fun cur' j => runParser s.cfg p s.tab j cur' g) c 0 cur

section Groups

variable {s : State} {p : List Byte} {cur c : Nat} {g : Parser}

theorem exec_groups : exec (.groups p cur c g) s =
    uopReturn (groupsAt s p cur c g) s fun r => { s with pay := p, cur := r.2, ret := some (.values r.1) } := rfl

theorem groupsAt_succ : groupsAt s p cur (c + 1) g =
    (groupsAt s p cur c g).bind fun r =>
      (runParser s.cfg p s.tab c r.2 g).bind fun x => .ok (valuesSnoc x.1 r.1, x.2) := by
  rw [groupsAt, groupLoop_succ, Nat.zero_add]
  rfl

theorem groupsAt_snoc {vs : List Value} {v : Value} {cur1 cur2 : Nat} (h : groupsAt s p cur c g = .ok (valuesOf vs, cur1))
    (hv : runParser s.cfg p s.tab c cur1 g = .ok (v, cur2)) :
    groupsAt s p cur (c + 1) g = .ok (valuesOf (vs ++ [v]), cur2) := by
  rw [groupsAt_succ, h, Bu.bind_ok, hv, Bu.bind_ok, valuesSnoc_valuesOf]

theorem groupsAt_succ_malformed_of_last {vs : Values} {cur1 : Nat} (h : groupsAt s p cur c g = .ok (vs, cur1))
    (hv : runParser s.cfg p s.tab c cur1 g = .malformed) : groupsAt s p cur (c + 1) g = .malformed := by
  rw [groupsAt_succ, h, Bu.bind_ok, hv, Bu.bind_malformed]

theorem groupsAt_succ_malformed_of_before (h : groupsAt s p cur c g = .malformed) :
    groupsAt s p cur (c + 1) g = .malformed := by
  rw [groupsAt_succ, h, Bu.bind_malformed]

/-- R168: what GROUPS returns is what its loop ends with. -/
theorem exec_groups_returns_iff {vs : Values} {cur' : Nat} :
    exec (.groups p cur c g) s = .next { s with pay := p, cur := cur', ret := some (.values vs) } ↔
      groupsAt s p cur c g = .ok (vs, cur') := by
  refine ⟨fun h => ?_, fun h => by rw [exec_groups, h, uopReturn_ok]⟩
  obtain ⟨⟨ws, cur''⟩, hloop, ht⟩ | ⟨_, ht⟩ := uopReturn_next (exec_groups.symm.trans h)
  · obtain rfl : cur' = cur'' := congrArg State.cur ht
    obtain rfl : vs = ws := by simpa using congrArg State.ret ht
    exact hloop
  · exact absurd (congrArg State.ret ht) (by simp)

/-- R168, R233: GROUPS raises where its loop does. -/
theorem exec_groups_raises_iff :
    exec (.groups p cur c g) s = .next s.raiseMalformed ↔ groupsAt s p cur c g = .malformed := by
  refine ⟨fun h => ?_, fun h => by rw [exec_groups, h, uopReturn_malformed]⟩
  obtain ⟨_, _, ht⟩ | ⟨hloop, _⟩ := uopReturn_next (exec_groups.symm.trans h)
  · exact absurd (congrArg State.ret ht) (by simp)
  · exact hloop

/-- R168: inside a decoder, the groups of the row with a count that is given. -/
theorem runParser_groups_fixed : runParser s.cfg p s.tab 0 cur (.groups (.fixed c) g) =
    (groupsAt s p cur c g).bind fun r => .ok (.list r.1, r.2) := by
  rw [runParser]
  rfl

theorem runParser_groups_fixed_returns_iff {vs : Values} {cur' : Nat} :
    runParser s.cfg p s.tab 0 cur (.groups (.fixed c) g) = .ok (.list vs, cur') ↔
      groupsAt s p cur c g = .ok (vs, cur') := by
  rw [runParser_groups_fixed]
  cases groupsAt s p cur c g with
  | ok r => simp [Prod.ext_iff]
  | malformed | refuse => simp

theorem runParser_groups_fixed_raises_iff :
    runParser s.cfg p s.tab 0 cur (.groups (.fixed c) g) = .malformed ↔ groupsAt s p cur c g = .malformed := by
  rw [runParser_groups_fixed]
  cases groupsAt s p cur c g <;> simp

/-- R168: a count is a number already decoded. -/
theorem runParser_groups_named {name : String} (h : fieldGet name s.tab = some (.int (c : Nat))) :
    runParser s.cfg p s.tab 0 cur (.groups (.named name) g) = runParser s.cfg p s.tab 0 cur (.groups (.fixed c) g) := by
  have hcount : namedNat s.tab name = c := namedFrom_int h (Int.natCast_nonneg c)
  simp only [runParser, countAt, hcount]

/-- R168: a count is a field read first. -/
theorem runParser_groups_inline {w : Nat} : runParser s.cfg p s.tab 0 cur (.groups (.inline w) g) =
    (extract p cur w).bind fun k => runParser s.cfg p s.tab 0 (cur + w) (.groups (.fixed k) g) := by
  simp only [runParser, countAt]
  cases extract p cur w <;> rfl

end Groups

/-- An unsigned field of `n` bits, as it is. -/
abbrev unsignedField (n : Nat) : Parser := .field ⟨n, false, false, .plain⟩

section UnsignedFields

variable {p : List Byte} {cur n : Nat}

theorem runParser_unsignedField (c : Config) (t : Fields) (j : Nat) (hmin : 1 ≤ n) (hmax : n ≤ 32)
    (hend : cur + n ≤ 8 * p.length) :
    runParser c p t j cur (unsignedField n) = .ok (.int (bitSum p cur n), cur + n) := by
  rw [runParser, readField_ok c t ((widthOk_iff n).2 ⟨hmin, hmax⟩) hend]
  rfl

theorem runParser_unsignedField_past_end (c : Config) (t : Fields) (j : Nat) (hmin : 1 ≤ n) (hmax : n ≤ 32)
    (hend : 8 * p.length < cur + n) : runParser c p t j cur (unsignedField n) = .malformed := by
  rw [runParser, readField, extract_past_end hmin hmax hend, Bu.bind_malformed]

/-- R168: the fields of a group are adjacent. -/
theorem groupsAt_unsignedField (s : State) {c : Nat} (hmin : 1 ≤ n) (hmax : n ≤ 32)
    (hend : c = 0 ∨ cur + c * n ≤ 8 * p.length) :
    groupsAt s p cur c (unsignedField n) =
      .ok (valuesOf ((List.range c).map fun j => .int (bitSum p (cur + j * n) n)), cur + c * n) := by
  induction c with
  | zero => rw [Nat.zero_mul]; rfl
  | succ c ih =>
    have hlast : cur + c * n + n ≤ 8 * p.length := by
      rw [Nat.add_assoc, ← Nat.succ_mul]
      exact hend.resolve_left (Nat.succ_ne_zero c)
    rw [groupsAt_snoc (ih (.inr (by omega))) (runParser_unsignedField _ _ _ hmin hmax hlast), List.range_succ,
      List.map_append, Nat.add_assoc, ← Nat.succ_mul]
    rfl

/-- R53, R168: the count is believed. -/
theorem groupsAt_unsignedField_past_end (s : State) {c : Nat} (hmin : 1 ≤ n) (hmax : n ≤ 32) (hc : 1 ≤ c)
    (hend : 8 * p.length < cur + c * n) : groupsAt s p cur c (unsignedField n) = .malformed := by
  induction c, hc using Nat.le_induction with
  | base =>
    refine groupsAt_succ_malformed_of_last (groupsAt_unsignedField s hmin hmax (.inl rfl)) ?_
    exact runParser_unsignedField_past_end _ _ _ hmin hmax (by omega)
  | succ c hc ih =>
    rw [Nat.add_one_mul c] at hend
    by_cases hbefore : cur + c * n ≤ 8 * p.length
    · refine groupsAt_succ_malformed_of_last (groupsAt_unsignedField s hmin hmax (.inr hbefore)) ?_
      exact runParser_unsignedField_past_end _ _ _ hmin hmax (by omega)
    · exact groupsAt_succ_malformed_of_before (ih (Nat.not_le.1 hbefore))

end UnsignedFields

/-- Settles O47: what the row and the decoder end in is what the loop over the groups ends in. -/
theorem groupsReadAdjacentItems : Obligations.GroupsReadAdjacentItems := by
  unfold Obligations.GroupsReadAdjacentItems
  refine ⟨fun s p cur g => ⟨rfl, fun c vs cur1 h => ⟨fun v cur2 hv => ?_, fun hv => ?_⟩, fun c h => ?_⟩,
    fun s p cur c n hmin hmax => ⟨fun hend => ?_, fun hc hend => ?_⟩,
    fun s p cur g => ⟨fun c => ⟨fun vs cur' => ?_, ?_⟩, fun name c => runParser_groups_named,
      fun w hmin hmax => ⟨fun hend => ?_, fun hend => ?_⟩⟩⟩
  · exact exec_groups_returns_iff.2 (groupsAt_snoc (exec_groups_returns_iff.1 h) hv)
  · exact exec_groups_raises_iff.2 (groupsAt_succ_malformed_of_last (exec_groups_returns_iff.1 h) hv)
  · exact exec_groups_raises_iff.2 (groupsAt_succ_malformed_of_before (exec_groups_raises_iff.1 h))
  · exact exec_groups_returns_iff.2 (groupsAt_unsignedField s hmin hmax hend)
  · exact exec_groups_raises_iff.2 (groupsAt_unsignedField_past_end s hmin hmax hc hend)
  · exact runParser_groups_fixed_returns_iff.trans exec_groups_returns_iff.symm
  · exact runParser_groups_fixed_raises_iff.trans exec_groups_raises_iff.symm
  · exact runParser_groups_inline.trans (by rw [extract_ok hmin hmax hend, Bu.bind_ok])
  · exact runParser_groups_inline.trans (by rw [extract_past_end hmin hmax hend, Bu.bind_malformed])

/-! ## The absolute index (R169, R170) -/

/-- R7, R170: the capacity of a family is read from the first entry of it. -/
theorem familyItems_eq_find? (family : String) (table : List (String × Nat)) :
    familyItems family table = (table.find? fun r => r.1 = family).map Prod.snd := by
  induction table with
  | nil => rfl
  | cons r table ih => by_cases h : r.1 = family <;> simp [familyItems, h, ih]

theorem capacityOf_family {c : Config} {family : String} {before after : List (String × Nat)} {n : Nat}
    (htable : c.itemsPerFrame = before ++ (family, n) :: after) (h : ∀ r ∈ before, r.1 ≠ family) (t : Fields) :
    capacityOf c t (.family family) = n := by
  rw [capacityOf, capacityUnder, familyItems_eq_find?, htable, find?_append_cons_key h, Option.map_some,
    Option.getD_some]

theorem capacityOf_named {t : Fields} {name : String} {n : Nat} (h : fieldGet name t = some (.int n)) (c : Config) :
    capacityOf c t (.named name) = n :=
  namedFrom_int h (Int.natCast_nonneg n)

/-- R169: a family that numbers from one passes one less. -/
theorem frameOperand_eq {t : Fields} {name : String} {base : Numbering} {fn : Nat}
    (h : fieldGet name t = some (.int (fn + firstFrame base : Nat))) : frameOperand t name base = fn := by
  rw [frameOperand, namedFrom_int h (by omega)]
  omega

/-- Settles O48: the operands by where they are decoded from. -/
theorem absoluteIndexIsContiguous : Obligations.AbsoluteIndexIsContiguous := by
  unfold Obligations.AbsoluteIndexIsContiguous
  refine ⟨fun s fn ipf k => rfl, fun fn ipf => ?_, fun c p t j cur fn ipf name cap hcap => ?_⟩
  · rw [absIndex, absIndex, Nat.succ_mul, Nat.add_zero]
  · have hcapacity : capacityOf c t cap = ipf := by
      cases cap with
      | family family =>
        obtain ⟨before, after, htable, hbefore⟩ := hcap
        exact capacityOf_family htable hbefore t
      | named n => exact capacityOf_named hcap c
    have hindex (base : Numbering) (h : fieldGet name t = some (.int (fn + firstFrame base : Nat))) :
        runParser c p t j cur (.absidx name base cap) = .ok (.int (fn * ipf + j : Nat), cur) := by
      rw [runParser, frameOperand_eq h, hcapacity, absIndex]
    exact ⟨hindex .fromZero, hindex .fromOne⟩

end Sys2Proof.Machine

namespace Sys2Proof.Machine

/-! ## A schema and its descriptor rows (R188) -/

/-- R188: the row of a descriptor, by what the descriptor does at the state's own table and cursor. -/
theorem exec_desc (d : Desc) (s : State) : exec (.desc d) s =
    uopReturn (runDesc s.cfg s.pay .nil s.tab 0 s.cur d) s fun r => { s with tab := r.1, cur := r.2 } := rfl

/-- R188: a schema run, by what its descriptors do from an empty table. -/
theorem exec_schemaRun (p : List Byte) (cur : Nat) (ds : Schema) (s : State) : exec (.schemaRun p cur ds) s =
    uopReturn (runSchema s.cfg p .nil .nil 0 cur ds) s fun r =>
      { s with pay := p, cur := r.2, tab := r.1, ret := some (.value (.record r.1)) } := rfl

section DescriptorRows

variable {s u : State} {d : Desc} {rest : Schema}

theorem runDescRows_cons_next (h : exec (.desc d) s = .next u) : runDescRows (.cons d rest) s = runDescRows rest u := by
  rw [runDescRows, h]

theorem runDescRows_cons_refused {q : Refusal} (h : exec (.desc d) s = .refused q) :
    runDescRows (.cons d rest) s = .refused q := by
  rw [runDescRows, h]

/-- R233: a row of a descriptor leaves the result that stands, or raises. -/
theorem exec_desc_result (h : exec (.desc d) s = .next u) (hs : s.result ≠ none) : u.result ≠ none := by
  obtain ⟨_, _, rfl⟩ | ⟨_, rfl⟩ := uopReturn_next ((exec_desc d s).symm.trans h)
  · exact hs
  · exact Option.some_ne_none _

end DescriptorRows

/-- R233: a result that a row has left is not cleared by the rows after it. -/
theorem runDescRows_result {u : State} : (ds : Schema) → {s : State} → runDescRows ds s = .next u → s.result ≠ none →
    u.result ≠ none
  | .nil, s, h, hs => by
    obtain rfl : s = u := by simpa [runDescRows] using h
    exact hs
  | .cons d rest, s, h, hs => by
    cases hd : exec (.desc d) s with
    | next t => exact runDescRows_result rest ((runDescRows_cons_next hd).symm.trans h) (exec_desc_result hd hs)
    | fault f => nomatch f
    | refused q => exact nomatch (runDescRows_cons_refused hd).symm.trans h

/-- What rows that start in `s` end in, where the run that they are the rows of ends in `r`: its table and its cursor; a
result, if they end at all, where it raises; its refusal. -/
def RowsFollow (s : State) (o : Out) (r : Bu (Fields × Nat)) : Prop :=
  match r with
  | .ok x => o = .next { s with tab := x.1, cur := x.2 }
  | .malformed => ∀ u, o = .next u → u.result ≠ none
  | .refuse q => o = .refused q

/-- R188: the rows of a schema follow its run from their table and cursor. -/
theorem runDescRows_follow (ds : Schema) (s : State) :
    RowsFollow s (runDescRows ds s) (runSchema s.cfg s.pay .nil s.tab 0 s.cur ds) :=
  match ds with
  | .nil => rfl
  | .cons d rest => by
    rw [runSchema]
    cases hd : runDesc s.cfg s.pay .nil s.tab 0 s.cur d with
    | ok x =>
      rw [runDescRows_cons_next (by rw [exec_desc, hd, uopReturn_ok])]
      exact runDescRows_follow rest { s with tab := x.1, cur := x.2 }
    | malformed =>
      intro u hu
      rw [runDescRows_cons_next (by rw [exec_desc, hd, uopReturn_malformed])] at hu
      exact runDescRows_result rest hu (Option.some_ne_none _)
    | refuse q => exact runDescRows_cons_refused (by rw [exec_desc, hd, uopReturn_refuse])

/-- Settles O52: by what the run of the schema ends in, which its rows follow. -/
theorem schemaRunIsItsDescriptorsInOrder : Obligations.SchemaRunIsItsDescriptorsInOrder := by
  unfold Obligations.SchemaRunIsItsDescriptorsInOrder
  intro s p cur ds
  have hrows := runDescRows_follow ds { s with pay := p, cur := cur, tab := .nil, result := none }
  simp only [exec_schemaRun]
  refine ⟨rfl, fun u hu => ?_, fun q hq => ?_, fun T c hrun => ⟨by rw [hrun, uopReturn_ok], ?_⟩⟩
  · rw [hu] at hrows
    cases hrun : runSchema s.cfg p .nil .nil 0 cur ds with
    | ok x =>
      rw [hrun] at hrows
      obtain rfl := Host.Outcome.next.inj hrows
      exact ⟨fun _ => rfl, fun hraised => absurd rfl hraised⟩
    | malformed =>
      rw [hrun] at hrows
      exact ⟨fun hnone => absurd hnone (hrows u rfl), fun _ => rfl⟩
    | refuse q =>
      rw [hrun] at hrows
      exact nomatch hrows
  · cases hrun : runSchema s.cfg p .nil .nil 0 cur ds with
    | ok | malformed => simp [hrun] at hq
    | refuse q' =>
      obtain rfl : q' = q := by simpa [hrun] using hq
      rwa [hrun] at hrows
  · have hrows' := runDescRows_follow ds { s with pay := p, cur := cur, tab := .nil }
    rwa [hrun] at hrows'

/-! ## Nested decoders (R185 to R187) -/

/-- R185, R186: the sub-type byte is read, and then the decoder under it, where there is one. -/
theorem runParser_subdispatch (c : Config) (p : List Byte) (t : Fields) (j cur : Nat) (alts : Alts) :
    runParser c p t j cur (.subdispatch alts) = (extract p cur 8).bind fun k =>
      (altAt k alts).elim (.ok (unmappedSubType k, cur + 8)) fun d =>
        (runParser c p t j (cur + 8) d).bind fun x => (withSubType k x.1).bind fun v => .ok (v, x.2) := by
  rw [runParser]
  refine congrArg _ (funext fun k => ?_)
  rw [runAlts_eq]
  cases altAt k alts <;> rfl

theorem exec_subdispatch (p : List Byte) (cur : Nat) (alts : Alts) (s : State) : exec (.subdispatch p cur alts) s =
    uopReturn (runParser s.cfg p s.tab 0 cur (.subdispatch alts)) s fun r =>
      { s with pay := p, cur := r.2, ret := some (.value r.1) } := rfl

/-- R185: a value that is a record is merged under `subType`. -/
theorem withSubType_record (k : Nat) (r : Fields) :
    withSubType k (.record r) = .ok (.record (fieldMerge (.cons "subType" (.int k) .nil) r)) := rfl

/-- R185: what the record merged under `subType` reads. -/
theorem fieldGet_withSubType (k : Nat) (r : Fields) (m : String) :
    fieldGet m (fieldMerge (.cons "subType" (.int k) .nil) r) =
      (fieldGet m r).or (if m = "subType" then some (.int k) else none) := by
  rw [fieldGet_merge, fieldGet, fieldGet_nil]
  simp only [eq_comm]

/-- Settles O49: by whether the byte is there and the table has a decoder under it. -/
theorem subtypeByteSelectsDecoder : Obligations.SubtypeByteSelectsDecoder := by
  unfold Obligations.SubtypeByteSelectsDecoder
  refine fun s p cur alts => ⟨fun hend => ?_, fun hend hkey => ?_, fun d hend hd => ⟨fun r cur' hr => ?_, fun hr => ?_,
    fieldGet_withSubType⟩⟩ <;> rw [exec_subdispatch, runParser_subdispatch]
  · rw [extract_past_end (by decide) (by decide) hend, Bu.bind_malformed, uopReturn_malformed]
  · rw [extract_ok (by decide) (by decide) hend, Bu.bind_ok, altAt_eq_none hkey]
    rfl
  · rw [extract_ok (by decide) (by decide) hend, Bu.bind_ok, hd, Option.elim_some, hr, Bu.bind_ok, withSubType_record,
      Bu.bind_ok, uopReturn_ok]
  · rw [extract_ok (by decide) (by decide) hend, Bu.bind_ok, hd, Option.elim_some, hr, Bu.bind_malformed,
      uopReturn_malformed]

/-- R187: one sub-structure, and then the other where it ended. -/
theorem exec_aggregate (p : List Byte) (cur : Nat) (d1 d2 : Parser) (s : State) : exec (.aggregate p cur d1 d2) s =
    uopReturn ((runParser s.cfg p s.tab 0 cur d1).bind fun r1 => (runParser s.cfg p s.tab 0 r1.2 d2).bind fun r2 =>
      .ok (aggregateValue r1.1 r2.1, r2.2)) s fun r => { s with pay := p, cur := r.2, ret := some (.value r.1) } := by
  rw [exec, execAggregate, runParser]

/-- Settles O50: by what each of the two ends in. -/
theorem aggregateRunsBackToBack : Obligations.AggregateRunsBackToBack := by
  unfold Obligations.AggregateRunsBackToBack
  refine fun s p cur d1 d2 => ⟨fun v1 c1 v2 c2 h1 h2 => ?_, fun h1 => ?_, fun v1 c1 h1 h2 => ?_⟩ <;> rw [exec_aggregate, h1]
  · rw [Bu.bind_ok, h2, Bu.bind_ok, uopReturn_ok, aggregateValue]
  · rw [Bu.bind_malformed, uopReturn_malformed]
  · rw [Bu.bind_ok, h2, Bu.bind_malformed, uopReturn_malformed]

/-! ## One descriptor (R188 to R192) -/

section Descriptor

variable {s : State} {name : String} {n : Nat} {enum : Option Enum} {signed : Bool} {cond : Option Cond}

/-- R188: a descriptor whose condition is false. -/
theorem exec_desc_skipped (sub : Sub) (h : fieldPresent s.tab cond = some false) :
    exec (.desc (.mk name n enum signed cond sub)) s = .next s := by
  simp only [exec_desc, runDesc, h, uopReturn_ok]

/-- R189 -/
theorem exec_desc_absentName (sub : Sub) (h : fieldPresent s.tab cond = none) :
    exec (.desc (.mk name n enum signed cond sub)) s = .refused .conditionReadsAbsentName := by
  simp only [exec_desc, runDesc, h, uopReturn_refuse]

/-- R80: a name is stored once. -/
theorem exec_desc_duplicate (sub : Sub) (h : fieldPresent s.tab cond = some true) (hname : fieldGet name s.tab ≠ none) :
    exec (.desc (.mk name n enum signed cond sub)) s = .refused .duplicateFieldName := by
  simp only [exec_desc, runDesc, h, Option.isSome_iff_ne_none.2 hname, if_true, uopReturn_refuse]

/-- R188: a descriptor of a new name that is run reads its field, and stores the value under the name. -/
theorem exec_desc_run (sub : Sub) (h : fieldPresent s.tab cond = some true) (hname : fieldGet name s.tab = none) :
    exec (.desc (.mk name n enum signed cond sub)) s =
      uopReturn (runSub s.cfg s.pay s.tab 0 s.cur ⟨n, signed, false, conversionOf enum⟩ sub) s fun r =>
        { s with tab := fieldSet name r.1 s.tab, cur := r.2 } := by
  simp only [exec_desc, runDesc, h, hname, Option.isSome_none, Bool.false_eq_true, if_false, fieldsAround_nil]
  cases runSub s.cfg s.pay s.tab 0 s.cur ⟨n, signed, false, conversionOf enum⟩ sub <;> rfl

end Descriptor

/-- R161: the sign bit of an `n`-bit value is set from half the range on. -/
theorem signBit_iff {n : Nat} (hn : 1 ≤ n) (raw : Nat) : 2 ^ n ≤ 2 * raw ↔ 2 ^ (n - 1) ≤ raw := by
  have := Nat.two_pow_pred_add_two_pow_pred hn
  omega

/-- Settles O51: by the condition, the name, and what the field or the sub-parser ends in. -/
theorem descriptorReadsItsField : Obligations.DescriptorReadsItsField := by
  unfold Obligations.DescriptorReadsItsField
  refine fun s name n enum signed => ⟨fun k sub => exec_desc_skipped (cond := some k) sub,
    fun k sub => exec_desc_absentName (cond := some k) sub, fun cond hcond => ?_⟩
  have hrun : fieldPresent s.tab cond = some true := by
    obtain rfl | ⟨k, rfl, hk⟩ := hcond
    · rfl
    · exact hk
  refine ⟨fun hname hmin hmax hend => ⟨?_, fieldGet_set_same _ _ _, fun m hm => fieldGet_set_other _ hm _⟩,
    fun hname hmin hmax hend => ?_, fun d v cur' hname hd => ?_, fun d hname hd => ?_,
    fun sub => exec_desc_duplicate sub hrun⟩
  · have hread := readField_ok (f := ⟨n, signed, false, conversionOf enum⟩) s.cfg s.tab ((widthOk_iff n).2 ⟨hmin, hmax⟩) hend
    rw [fieldValue_eq s.cfg s.tab _ hmin (bitSum_lt s.pay s.cur n)] at hread
    rw [exec_desc_run .none hrun hname, runSub, hread, uopReturn_ok]
    simp only [Bool.false_eq_true, false_and, if_false, signBit_iff hmin]
    cases enum with
    | none => rfl
    | some e =>
      simp only [conversionOf, converted, enumName_eq]
      cases e.find? _ <;> rfl
  · rw [exec_desc_run .none hrun hname, runSub, readField, extract_past_end hmin hmax hend, Bu.bind_malformed,
      uopReturn_malformed]
  · rw [exec_desc_run (.some d) hrun hname, runSub, hd, uopReturn_ok]
  · rw [exec_desc_run (.some d) hrun hname, runSub, hd, uopReturn_malformed]

end Sys2Proof.Machine

namespace Sys2Proof.Machine

/-! ## The delimiter states (R277) -/

/-- R103, R104: a byte in FIRST_DELIMITER starts a message or is discarded. -/
theorem Fx.byte_st_of_firstDelimiter (max : Option Nat) (b : Byte) {q : Fx} (hq : q.st = .firstDelimiter) :
    (q.byte max b).1.st = .stopped ∨ (q.byte max b).1.st = .inMessage := by
  by_cases hb : b = STX
  · exact .inr (by simp [Fx.byte, hq, hb, Fx.firstStx])
  · exact .inl (by simp [Fx.byte, hq, hb, Fx.firstOther])

/-- R107 to R110: a byte in IN_MESSAGE_ESCAPE is an escaped DLE, for which there may be no room, or ends the message. -/
theorem Fx.byte_st_of_inMessageEscape (max : Option Nat) (b : Byte) {q : Fx} (hq : q.st = .inMessageEscape) :
    (q.byte max b).1.st = .stopped ∨ (q.byte max b).1.st = .inMessage := by
  by_cases hd : b = DLE
  · cases hfull : q.full max with
    | false => exact .inr (by simp [Fx.byte, hq, hd, Fx.escDle_room hfull])
    | true => exact .inl (by simp [Fx.byte, hq, hd, Fx.escDle_full hfull, Fx.overflow])
  · by_cases he : b = ETX
    · exact .inl (by simp [Fx.byte, hq, he, (by decide : ETX ≠ DLE), Fx.escEtx])
    · exact .inl (by simp [Fx.byte, hq, hd, he, Fx.escOther])

/-- Settles O12: by the byte's class in each of the two states. -/
theorem delimiterStatesLastOneByte : Obligations.DelimiterStatesLastOneByte := by
  unfold Obligations.DelimiterStatesLastOneByte
  refine ⟨fun s b hlive hcall => ⟨_, fxRun_no_call hlive hcall, Fx.byte_st_of_firstDelimiter _ b,
    Fx.byte_st_of_inMessageEscape _ b⟩, fun max q b => ⟨fun hq => ?_, Fx.byte_st_of_inMessageEscape max b⟩⟩
  obtain h | h := Fx.byte_st_of_firstDelimiter max b hq <;> simp [h]

end Sys2Proof.Machine

namespace Sys2Proof.Machine

/-! ## An append at capacity (R110) -/

/-- R110: the OVERFLOW row, where the row it takes the place of would append. -/
theorem exec_overflow {s : State} {b : Byte} (hlive : s.failed = false) (hfull : s.full = true)
    (hst : s.fx.st = if b = DLE then .inMessageEscape else .inMessage) :
    exec (.overflow b) s = .next { s with fx := s.fx.overflow.1, label := .overflow } :=
  fxRun_silent hlive (by rw [hfull, decide_eq_true hst]; rfl) rfl rfl

/-- R110: with room in the buffer no byte overflows. -/
theorem Fx.byte_label_ne_overflow {max : Option Nat} {q : Fx} (b : Byte) (hroom : q.full max = false) :
    (q.byte max b).2 ≠ .overflow := by
  rw [Fx.byte, Fx.inmsgData_room b hroom, Fx.escDle_room hroom]
  cases q.st with
  | stopped | firstDelimiter | inMessage => dsimp only; split <;> nofun
  | inMessageEscape =>
    dsimp only
    split
    · nofun
    · split <;> nofun

/-- Settles O6: a full buffer by the rules for an append at capacity; an unbounded buffer is never full. -/
theorem overflowReplacesAppendAtCapacity : Obligations.OverflowReplacesAppendAtCapacity := by
  unfold Obligations.OverflowReplacesAppendAtCapacity
  have hfull {s : State} (hcap : s.cfg.frameMax = some s.fx.len) : s.full = true := by
    rw [State.full, hcap, Fx.full_some]
  refine ⟨fun s b hlive hcap hb hst => ?_, fun s hlive hcap hst => ?_,
    fun q b => Fx.byte_label_ne_overflow b (Fx.full_none q)⟩
  · have hdata : exec (.inmsgData b) s = .next { s with fx := s.fx.overflow.1, label := .overflow } :=
      fxRun_silent hlive (decide_eq_true hst) (Fx.inmsgData_full b (hfull hcap)) rfl
    refine ⟨hdata, (exec_overflow hlive (hfull hcap) (by rw [hst, if_neg hb])).trans hdata.symm, ?_⟩
    rw [hfull hcap, hst]
    exact (SelectsRow.inmsgData hb).decodeExt true
  · have hdle : exec .escDle s = .next { s with fx := s.fx.overflow.1, label := .overflow } :=
      fxRun_silent hlive (decide_eq_true hst) (Fx.escDle_full (hfull hcap)) rfl
    refine ⟨hdle, (exec_overflow hlive (hfull hcap) (by rw [hst, if_pos rfl])).trans hdle.symm, ?_⟩
    rw [hfull hcap, hst]
    exact SelectsRow.escDle.decodeExt true

/-! ## The payload decoders of the spec (R205, R207 to R209) -/

section PayloadDecoders

variable {f : List Byte} {x : Bu Fields}

/-- R135, R143: a payload decoder's record is the message's, with the header. -/
theorem mdReturn_recordResult_ok {r : Fields} (hx : x = .ok r) (s : State) :
    mdReturn (recordResult f x) s = .next { s with result := some (.ok (parseHeader f) r) } := by
  rw [hx]
  rfl

/-- R143: a payload decoder's failure is the message's. -/
theorem mdReturn_recordResult_malformed (hx : x = .malformed) (s : State) :
    mdReturn (recordResult f x) s = .next { s with result := some .malformedPayload } := by
  rw [hx]
  rfl

end PayloadDecoders

/-- The bytes read at the index of a byte of the payload, one of them. -/
theorem drop_take_one {p : List Byte} {a : Nat} (ha : a < p.length) : (p.drop a).take 1 = [p.getD a 0] := by
  rw [List.drop_eq_getElem_cons ha, List.getD_eq_getElem _ 0 ha]
  rfl

/-- R10: two bytes, the first the more significant. -/
theorem be_pair (b c : Byte) : be [b, c] = b.toNat * 256 + c.toNat := by simp [be, beFrom]

/-- R208: SP_CONFIG(p) from two bytes up. -/
theorem spConfigPayload_ok {p : List Byte} (hlen : 2 ≤ p.length) :
    spConfigPayload p =
      .ok (.cons "SamplingPeriod" (.int ((p.getD 0 0).toNat * 256 + (p.getD 1 0).toNat : Nat)) .nil) := by
  match p, hlen with
  | b :: c :: rest, hlen =>
    have hread : memRead (b :: c :: rest) 0 2 = .ok (be [b, c]) := if_pos hlen
    rw [spConfigPayload, hread, be_pair]
    rfl

theorem spConfigPayload_malformed {p : List Byte} (hlen : p.length < 2) : spConfigPayload p = .malformed := by
  rw [spConfigPayload, memRead, if_neg (Nat.not_le.2 hlen), Bu.bind_malformed]

/-- Settles O33: the row by its cell, the record by the read of two bytes. -/
theorem samplingPeriodFromTwoBytes : Obligations.SamplingPeriodFromTwoBytes := by
  unfold Obligations.SamplingPeriodFromTwoBytes
  intro s f dir hlen hmark hcell
  have hrow : exec (.spConfig f dir) s = mdReturn (spConfigResult f) s :=
    if_pos (selectHdr_mapped hlen hmark hcell (by decide))
  exact ⟨fun h => hrow.trans (mdReturn_recordResult_ok (spConfigPayload_ok h) s),
    fun h => hrow.trans (mdReturn_recordResult_malformed (spConfigPayload_malformed h) s)⟩

/-- R207: HEALTH(p) from fifteen bytes up, each item read at its offset. -/
theorem healthPayload_ok {p : List Byte} (hlen : 15 ≤ p.length) :
    healthPayload p = .ok
      (.cons "Time" (.int (be (p.take 4)))
      (.cons "Uptime" (.int (be ((p.drop 4).take 4)))
      (.cons "Battery" (.int (be ((p.drop 8).take 2)))
      (.cons "Temperature" (.int (p.getD 10 0).toInt)
      (.cons "SN" (.int (be ((p.drop 11).take 2)))
      (.cons "FW" (.list (valuesOf [.int (p.getD 13 0).toNat, .int (p.getD 14 0).toNat])) .nil)))))) := by
  have hread : itemReadings p 0 healthLayout =
      [(be (p.take 4) : Int), (be ((p.drop 4).take 4) : Int), (be ((p.drop 8).take 2) : Int), (p.getD 10 0).toInt,
        (be ((p.drop 11).take 2) : Int), ((p.getD 13 0).toNat : Int), ((p.getD 14 0).toNat : Int)] := by
    rw [← itemReading_s1, ← be_singleton (p.getD 13 0), ← be_singleton (p.getD 14 0),
      ← drop_take_one (a := 10) (by omega), ← drop_take_one (a := 13) (by omega), ← drop_take_one (a := 14) (by omega)]
    rfl
  rw [healthPayload, unpackFixed_ok (l := healthLayout) (by decide) hlen, hread]
  rfl

theorem healthPayload_malformed {p : List Byte} (hlen : p.length < 15) : healthPayload p = .malformed := by
  rw [healthPayload, unpackFixed_past_end (l := healthLayout) (by decide) hlen, Bu.bind_malformed]

/-- Settles O32: the row by its cell, the record by the items of the layout. -/
theorem healthRecordFromItsBytes : Obligations.HealthRecordFromItsBytes := by
  unfold Obligations.HealthRecordFromItsBytes
  intro s f dir hlen hmark hcell
  have hrow : exec (.health f dir) s = mdReturn (healthResult f) s :=
    if_pos (selectHdr_mapped hlen hmark hcell (by decide))
  exact ⟨fun h => hrow.trans (mdReturn_recordResult_ok (healthPayload_ok h) s),
    fun h => hrow.trans (mdReturn_recordResult_malformed (healthPayload_malformed h) s)⟩

/-- R157: the payload's length, mapped, selects what it is mapped to. -/
theorem lengthSelect_ok {α : Type} {p : List Byte} {e : List (Nat × α)} {x : α} (hkeys : (e.map Prod.fst).Nodup)
    (hx : (p.length, x) ∈ e) : lengthSelect p e = .ok x := by
  induction e with
  | nil => simp at hx
  | cons kx e ih =>
    obtain ⟨k, y⟩ := kx
    obtain ⟨hk, hkeys⟩ := List.nodup_cons.1 hkeys
    obtain h | hx := List.mem_cons.1 hx
    · cases h
      exact if_pos rfl
    · have hne : p.length ≠ k := fun h => hk (List.mem_map.2 ⟨_, hx, h⟩)
      rw [lengthSelect, if_neg hne, ih hkeys hx]

/-- R157: a length that is not mapped. -/
theorem lengthSelect_malformed {α : Type} {p : List Byte} {e : List (Nat × α)} (h : ∀ x, (p.length, x) ∉ e) :
    lengthSelect p e = .malformed := by
  induction e with
  | nil => rfl
  | cons kx e ih =>
    obtain ⟨k, y⟩ := kx
    have hne : p.length ≠ k := fun hk => h y (by rw [hk]; exact List.mem_cons_self)
    rw [lengthSelect, if_neg hne, ih fun x hx => h x (List.mem_cons_of_mem _ hx)]

/-- R209: the six lengths of the family. -/
theorem mem_vwLengths {len n : Nat} : (len, n) ∈ vwLengths ↔ n ≤ 5 ∧ len = 6 + 8 * n := by
  simp only [vwLengths, List.mem_cons, Prod.mk.injEq, List.not_mem_nil, or_false]
  omega

theorem byteValues_eq_valuesOf (bs : List Byte) : byteValues bs = valuesOf (bs.map fun b => .int b.toNat) := by
  induction bs with
  | nil => rfl
  | cons b bs ih => rw [byteValues, ih]; rfl

/-- R209: channel `j` is the eight bytes at `8 * j`. -/
theorem vwChannels_eq_valuesOf (p : List Byte) (n : Nat) :
    vwChannels p n = valuesOf ((List.range n).map fun j =>
      .list (valuesOf (((p.drop (8 * j)).take 8).map fun b => .int b.toNat))) := by
  induction n generalizing p with
  | zero => rfl
  | succ n ih =>
    rw [vwChannels, ih, byteValues_eq_valuesOf, List.range_succ_eq_map]
    simp [valuesOf, Function.comp_def, Nat.mul_succ, Nat.add_comm]

/-- R209: VW(p) at the length of `n` channels. -/
theorem vwPayload_ok {p : List Byte} {n : Nat} (hn : n ≤ 5) (hlen : p.length = 6 + 8 * n) :
    vwPayload p = .ok
      (.cons "Time" (.int (be (p.take 4)))
      (.cons "Pressure" (.int (be ((p.drop 4).take 2)))
      (.cons "ChannelCount" (.int n)
      (.cons "Channels" (.list (valuesOf ((List.range n).map fun j =>
        .list (valuesOf (((p.drop (6 + 8 * j)).take 8).map fun b => .int b.toNat))))) .nil)))) := by
  have hchannels := vwChannels_eq_valuesOf (p.drop 6) n
  simp only [List.drop_drop] at hchannels
  have hsize : layoutSize vwPrefix ≤ p.length := hlen ▸ Nat.le_add_right 6 _
  rw [vwPayload, lengthSelect_ok (by decide) (mem_vwLengths.2 ⟨hn, hlen⟩), Bu.bind_ok,
    unpackFixed_ok (by decide) hsize, ← hchannels]
  rfl

theorem vwPayload_malformed {p : List Byte} (hlen : ∀ n, n ≤ 5 → p.length ≠ 6 + 8 * n) :
    vwPayload p = .malformed := by
  have hnone : ∀ n, (p.length, n) ∉ vwLengths := fun n hn =>
    let ⟨hmax, heq⟩ := mem_vwLengths.1 hn
    hlen n hmax heq
  rw [vwPayload, lengthSelect_malformed hnone, Bu.bind_malformed]

/-- Settles O34: the row by its cell, the record by the length, the channels after Time and Pressure. -/
theorem vibratingWireLengthsAndChannels : Obligations.VibratingWireLengthsAndChannels := by
  unfold Obligations.VibratingWireLengthsAndChannels
  intro s f dir hlen hmark hcell
  have hrow : exec (.vw f dir) s = mdReturn (vwResult f) s :=
    if_pos (selectHdr_mapped hlen hmark hcell (by decide))
  exact ⟨fun n hn h => hrow.trans (mdReturn_recordResult_ok (vwPayload_ok hn h) s),
    fun h => hrow.trans (mdReturn_recordResult_malformed (vwPayload_malformed h) s)⟩

end Sys2Proof.Machine
